-- ==== Sys2Proof/Word.lean ====
section
/-! DEFINITION. Word.lean: the word types of the converter, named after what the spec calls them. -/

namespace Sys2Proof

/-- A byte of memory (spec/20 R50). -/
abbrev Byte := BitVec 8

/-- A raw 16-bit lane (spec/00 R13, R14). -/
abbrev Lane := BitVec 16

/-- An input word, a word slot of a vector register or a 32-bit integer pattern (spec/00 R9). -/
abbrev Word32 := BitVec 32

/-- The bit pattern of an IEEE-754 binary32 value (spec/40 R100). -/
abbrev F32 := BitVec 32

/-- The bit pattern of an IEEE-754 binary64 value (spec/40 R100). -/
abbrev F64 := BitVec 64

/-- An address or a sample count: `AW` = 64 bits (spec/00 R7). -/
abbrev Addr := BitVec 64

/-- A vector register: `VLEN` = 256 bits (spec/00 R11). -/
abbrev VReg := BitVec 256

end Sys2Proof
end

