-- ==== Sys2Proof/Config.lean ====
section
/-! DEFINITION. Config.lean: what the spec leaves without a value. Every constant here is opaque: nothing in Lean can
evaluate it, so a claim that is proved holds for every value of it. The parameters whose value the spec decides
(spec/00 R7, spec/41 R122) are in Machine/Params.lean. -/

namespace Sys2Proof

/-- What a host read of an argument register returns while its written-mark is clear: `any value` (spec/93 U7,
spec/70 R251). Drawn with a counter of the state, a fresh one for each such read. Log 15. -/
opaque Config.unwrittenRead : Nat → BitVec 64

/-- `fmul` with an operand that is an infinity or a NaN: given no meaning (spec/40 R106, spec/93 U12). Log 12. -/
opaque Config.fmulNonFinite : F32 → F32 → F32

/-- `i2f` of an integer that no binary32 value equals: the spec gives `i2f` only as "the `f32` whose value is exactly
`x`" (spec/40 R105, spec/93 U12). Log 13. -/
opaque Config.i2fInexact : Word32 → F32

/-- The constant `K` of a scale factor that is an infinity or a NaN; no admitted command has one (spec/40 R103,
spec/93 U1). Log 14. -/
opaque Config.scaleNonFinite : F64 → F32

/-- `REG_BASE`: where the platform maps the register space, if it maps it at all (spec/92 D2, open). Log 21. -/
opaque Config.regBase : Option Nat

end Sys2Proof
end

