-- ==== Sys2Proof/Machine/State.lean ====
section
/-! DEFINITION. Machine/State.lean: everything the spec gives the machine, as plain data, and the state after reset. -/

namespace Sys2Proof.Machine

/-- The byte-order mode, the contents of `M` (spec/10 R22, R27). -/
inductive Mode where
  /-- code 0 -/
  | nativeWire
  /-- code 1 -/
  | littleEndianWire
  /-- code 2 -/
  | bigEndianWire
  deriving DecidableEq, Repr

/-- `STATUS` (spec/10 R23); its other 30 bits read as 0 and are stored nowhere. -/
structure Status where
  /-- bit 0 -/
  busy : Bool
  /-- bit 1 -/
  done : Bool
  deriving DecidableEq, Repr

/-- The written-marks of the four argument registers (spec/10 R31). -/
structure Marks where
  inBase : Bool
  outBase : Bool
  nsamps : Bool
  scale : Bool
  deriving DecidableEq, Repr

/-- The values of `ST`, the program counter analogue (spec/10 R25). -/
inductive SeqState where
  | idle | setup | probe | headtest | bulktest | tailtest | finish
  | s0 | s1 | s2 | s3 | s4 | s5
  | v0 | v1 | v2 | v3 | v4 | v5 | v6 | v7 | v8
  deriving DecidableEq, Repr

/-- The return mark `RET` (spec/10 R25). -/
inductive Ret where
  | head
  | tail
  deriving DecidableEq, Repr

/-- The dispatch branch `BR` (spec/10 R27): none yet, 1, 2 or 3. -/
inductive Branch where
  | none
  | one
  | two
  | three
  deriving DecidableEq, Repr

/-- What a region of the platform's address map is: ordinary memory, or locations whose accesses have effects of
their own (spec/20 R51). -/
inductive RegionKind where
  | ordinary
  | device
  deriving DecidableEq, Repr

/-- A stretch of addresses the platform admits: `size` bytes from `base` (spec/20 R50, R51). -/
structure Region where
  base : Nat
  size : Nat
  readable : Bool
  writable : Bool
  kind : RegionKind
  deriving DecidableEq, Repr

/-- What the platform behind the memory port is: a parameter of a run (spec/10 R33), which no step changes. -/
structure Platform where
  /-- The addresses the port admits; an address in no region is not admitted. -/
  regions : List Region
  /-- Whether the port may hold stores back and perform their bytes later (spec/10 R33, spec/20 R62). -/
  buffersStores : Bool
  deriving DecidableEq, Repr

/-- The buffer pair of a command (spec/20 R68): where its input and output lie and how many samples they hold. -/
structure BufferPair where
  inBase : Addr
  outBase : Addr
  nsamps : BitVec 64
  deriving DecidableEq, Repr

/-- The form attribute of a store (spec/20 R59, R67). -/
inductive Form where
  | aligned
  | unaligned
  deriving DecidableEq, Repr

/-- One event of the event history (spec/20 R67): a read of `n` bytes, or a write of `n` bytes with the unsigned
value of those bytes and the form. -/
inductive Event where
  | read (addr n : Nat)
  | write (addr n value : Nat) (form : Form)
  deriving DecidableEq, Repr

/-- The four argument registers (spec/10 R21, R24). -/
inductive Arg where
  | inBase
  | outBase
  | nsamps
  | scale
  deriving DecidableEq, Repr

/-- The registers the host can read (spec/10 R21). -/
inductive HostReg where
  | ctrl
  | status
  | arg (a : Arg)
  deriving DecidableEq, Repr

/-- One move of one agent (spec/60 R223, R231). The schedule of moves is a parameter of a run (spec/10 R33), held in
the state as a list. Log 5. -/
inductive Turn where
  /-- The sequencer performs one micro-operation. -/
  | sequencer
  /-- The host writes `c` to `CTRL`: a command (spec/30 R81). -/
  | writeCtrl (c : Word32)
  /-- The host writes `STATUS` (spec/10 R23). -/
  | writeStatus (v : Word32)
  /-- The host writes an argument register (spec/10 R24). -/
  | writeArg (a : Arg) (v : BitVec 64)
  /-- The host reads a register (spec/10 R21). -/
  | readReg (r : HostReg)
  /-- The host, or any agent that is no converter, writes a byte of memory (spec/70 R253, R256). -/
  | agentWrite (addr : Addr) (v : Byte)
  /-- The host, or any agent that is no converter, reads a byte of memory (spec/70 R255, R256). -/
  | agentRead (addr : Addr)
  /-- Another converter accepts a command on the buffers `p` (spec/20 R68, spec/60 R232). -/
  | otherStart (p : BufferPair)
  /-- The `index`-th of the other converters that run reads a byte of its input buffer (spec/20 R68). -/
  | otherRead (index : Nat) (addr : Addr)
  /-- The `index`-th of the other converters that run writes a byte of its output buffer (spec/20 R68). -/
  | otherWrite (index : Nat) (addr : Addr) (v : Byte)
  /-- The `index`-th of the other converters that run is done. -/
  | otherEnd (index : Nat)
  /-- The memory port performs the `index`-th byte of the stores in flight (spec/20 R62). -/
  | port (index : Nat)
  /-- `rst` (spec/70 R250, R252); `landed` says, byte by byte, which bytes of the stores under way reach memory, and by
  its length which writes had begun. Log 17. -/
  | rst (landed : List Bool)
  deriving DecidableEq, Repr

/-- The state: the block (spec/10 R20), the memory and platform behind its port (spec/20 R50), the schedule of the
agents (spec/10 R33), and what the model records. -/
structure State where
  /-- `STATUS` (R23). -/
  status : Status
  /-- `IN_BASE` (R21). -/
  inBase : Addr
  /-- `OUT_BASE` (R21). -/
  outBase : Addr
  /-- `NSAMPS` (R21). -/
  nsamps : BitVec 64
  /-- `SCALE` (R21). -/
  scale : F64
  /-- The written-marks (R31). -/
  marks : Marks
  /-- `ST` (R25). -/
  st : SeqState
  /-- `RET` (R25). -/
  ret : Ret
  /-- `I` (R26). -/
  i : BitVec 64
  /-- `M` (R27). -/
  m : Mode
  /-- `BR` (R27). -/
  br : Branch
  /-- `K` (R28). -/
  k : F32
  /-- `W` (R29). -/
  w : Word32
  /-- `RR` (R29). -/
  rr : Lane
  /-- `RI` (R29). -/
  ri : Lane
  /-- `XR` (R29). -/
  xr : Word32
  /-- `XI` (R29). -/
  xi : Word32
  /-- `FR` (R29). -/
  fr : F32
  /-- `FI` (R29). -/
  fi : F32
  /-- `VZ` (R30). -/
  vz : VReg
  /-- `VK` (R30). -/
  vk : VReg
  /-- `VIN` (R30). -/
  vin : VReg
  /-- `VLO` (R30). -/
  vlo : VReg
  /-- `VHI` (R30). -/
  vhi : VReg
  /-- `VA` (R30). -/
  va : VReg
  /-- `VB` (R30). -/
  vb : VReg
  /-- `VFA` (R30). -/
  vfa : VReg
  /-- `VFB` (R30). -/
  vfb : VReg
  /-- Memory (spec/20 R50): address and byte, addresses rising, no byte listed that an unlisted address reads as. -/
  mem : List Host.Cell
  /-- The platform behind the port (spec/20 R50, R51). -/
  platform : Platform
  /-- The buffer pairs of the commands that other converters are running (spec/20 R68, spec/60 R232): all that this
  block's runs depend on of them, since converters share no state. The model's own. Log 22. -/
  others : List BufferPair
  /-- Bytes of issued stores that memory does not hold yet, oldest first (spec/20 R62). The model's own. Log 16. -/
  inFlight : List Host.Cell
  /-- The schedule, next move first (spec/10 R33). The model's own. Log 5. -/
  turns : List Turn
  /-- The event history, oldest first (spec/20 R67). The model's own. Log 19. -/
  history : List Event
  /-- What the last read by the host or another agent returned. The model's own. Log 15. -/
  rdata : BitVec 64
  /-- How many free values have been drawn. The model's own. Log 15. -/
  draws : Nat
  deriving DecidableEq, Repr

/-- Why the machine stops with a fault: it never does. The spec does not use the word, since the block has none (spec/00
R12, spec/60 R220), so there is no constructor, and nothing raises one. Where the sequencer has no enabled step it is
stuck: it stays as it is, and the host's moves and `rst` go on (log 7, log 8). -/
inductive Fault where
  deriving DecidableEq, Repr

/-- Why the model gives a situation no meaning (spec/00 R12 "refuse"). -/
inductive Refusal where
  /-- Raised by `exec` for an instruction that has no meaning yet. Safe. -/
  | notModelled (mnemonic : String)
  /-- Raised by `step` for a reserved command word written while idle (spec/30 R84, spec/93 U8). Safe. -/
  | reservedCommand (c : Word32)
  /-- Raised by a `CONVERT` command: a written-mark is clear (spec/42 R142(a)). Safe. -/
  | unwrittenArgument
  /-- Raised by a `CONVERT` command: the scale factor is an infinity or a NaN (spec/42 R142(b)). Safe. -/
  | scaleNotFinite
  /-- Raised by a `CONVERT` command: `K` would be infinite (spec/42 R142(c)). Safe. -/
  | scaleOverflowsF32
  /-- Raised by a `CONVERT` command whose buffer passes 2^64 (spec/42 R142(d)), and by a memory micro-operation whose
  address does (spec/42 R153, spec/93 U4). Safe. -/
  | bufferWraps
  /-- Raised by a `CONVERT` command: the platform does not admit a buffer, or it is not ordinary memory (spec/42
  R142(e)). Safe. -/
  | bufferNotAdmitted
  /-- Raised by a `CONVERT` command: the buffers share a byte (spec/42 R142(f)). Safe. -/
  | buffersOverlap
  /-- Raised by `step` when another agent writes the input buffer or accesses the output buffer of a running command
  (spec/42 R142(g), spec/70 R256), and where two converters that run share a byte, be it of input buffers alone: by the
  command or the other converter's start that comes second, and by an access of the other to such a byte (spec/20 R68,
  spec/93 U5). Safe. -/
  | concurrentAccess
  deriving DecidableEq, Repr

/-- The platform of the reset state: every address is ordinary memory, and stores are performed as they are issued.
DESIGN CHOICE, unsafe: the map is wholly the platform's (spec/20 R51). Log 4. -/
def Platform.wholeSpace : Platform where
  regions := [{ base := 0, size := 2 ^ 64, readable := true, writable := true, kind := .ordinary }]
  buffersStores := false

/-- The machine right after reset (spec/10 R35, spec/70 R250). `STATUS`, `ST` and the marks are the spec's; every other
register is "unspecified" there and holds the value named here. DESIGN CHOICE, unsafe: logs 1, 2, 3, 4, 15, 22. -/
def State.reset : State where
  status := ⟨false, false⟩
  inBase := 0
  outBase := 0
  nsamps := 0
  scale := 0
  marks := ⟨false, false, false, false⟩
  st := .idle
  ret := .tail
  i := 0
  m := .nativeWire
  br := .none
  k := 0
  w := 0
  rr := 0
  ri := 0
  xr := 0
  xi := 0
  fr := 0
  fi := 0
  vz := 0
  vk := 0
  vin := 0
  vlo := 0
  vhi := 0
  va := 0
  vb := 0
  vfa := 0
  vfb := 0
  mem := []
  platform := Platform.wholeSpace
  others := []
  inFlight := []
  turns := []
  history := []
  rdata := 0
  draws := 0

end Sys2Proof.Machine
end

