-- ==== Sys2Proof/Machine/Params.lean ====
section
/-! DEFINITION. Machine/Params.lean: the parameters of spec/00 R7 and the decode table of spec/41 R122, with the values
this hardware takes. -/

namespace Sys2Proof.Machine

/-- `IN_STRIDE`: bytes between input words (spec/00 R7). -/
def inStride : Nat := 4

/-- `OUT_STRIDE`: bytes between output samples (spec/00 R7). -/
def outStride : Nat := 8

/-- `BATCH`: samples of one bulk iteration (spec/00 R7). -/
def batch : Nat := 8

/-- `ALIGN`: the preferred boundary of the probe (spec/00 R7, spec/92 D14). -/
def align : Nat := 16

/-- `HALF`: the half-offset of the probe (spec/00 R7, spec/92 D14). -/
def half : Nat := 8

/-- The exponent of `NORM` = 2^16 (spec/00 R7). -/
def normLog : Nat := 16

/-- `WIDEN_SHIFT` (spec/00 R7, spec/92 D9, spec/90 C1). -/
def widenShift : Nat := 0

/-- `AW`: bits of an address (spec/00 R7). -/
def addressBits : Nat := 64

/-- `BSWAP[m]` (spec/41 R122): whether the bytes inside each half-word are exchanged. -/
def bswapTable : Mode → Bool
  | .nativeWire => false
  | .littleEndianWire => false
  | .bigEndianWire => true

/-- `REAL_HI[m]` (spec/41 R122): whether the real lane is the high half-word. -/
def realHiTable : Mode → Bool
  | .nativeWire => false
  | .littleEndianWire => true
  | .bigEndianWire => false

/-- The code of a mode in `CTRL[2:1]` and in `M` (spec/10 R22). -/
def modeCode : Mode → BitVec 2
  | .nativeWire => 0
  | .littleEndianWire => 1
  | .bigEndianWire => 2

end Sys2Proof.Machine
end

