-- ==== Sys2Proof/Machine/Numerics.lean ====
section
/-! DEFINITION. Machine/Numerics.lean: the arithmetic of spec/40 on bit patterns. Every exact real the block rounds has
the form m × 2^e, so it is held as the natural number m and the integer e, and rounded once. -/

namespace Sys2Proof.Machine

/-- The pattern of +infinity, without a sign (spec/40 R100). -/
def f32InfMagnitude : Nat := 0x7F800000

/-- A binary32 pattern is finite when its exponent field is not 255 (spec/40 R100). -/
def f32Finite (p : F32) : Bool := p.extractLsb' 23 8 != 255#8

/-- A binary64 pattern is finite when its exponent field is not 2047 (spec/40 R100). -/
def f64Finite (p : F64) : Bool := p.extractLsb' 52 11 != 2047#11

/-- The sign bit of a binary32 pattern. -/
def f32Sign (p : F32) : Bool := p.msb

/-- The sign bit of a binary64 pattern. -/
def f64Sign (p : F64) : Bool := p.msb

/-- The significand of a finite binary32 pattern as a whole number: the value is `f32Mant p` × 2^`f32Exp p` in
magnitude (spec/40 R100). -/
def f32Mant (p : F32) : Nat :=
  let frac := (p.extractLsb' 0 23).toNat
  if p.extractLsb' 23 8 = 0#8 then frac else 2 ^ 23 + frac

/-- The exponent that goes with `f32Mant`. -/
def f32Exp (p : F32) : Int :=
  let e := (p.extractLsb' 23 8).toNat
  if e = 0 then -149 else (e : Int) - 150

/-- The significand of a finite binary64 pattern as a whole number (spec/40 R100). -/
def f64Mant (p : F64) : Nat :=
  let frac := (p.extractLsb' 0 52).toNat
  if p.extractLsb' 52 11 = 0#11 then frac else 2 ^ 52 + frac

/-- The exponent that goes with `f64Mant`. -/
def f64Exp (p : F64) : Int :=
  let e := (p.extractLsb' 52 11).toNat
  if e = 0 then -1074 else (e : Int) - 1075

/-- m / 2^d rounded to a whole number, ties to even. -/
def divPow2Even (m d : Nat) : Nat :=
  let q := m / 2 ^ d
  let r := m % 2 ^ d
  if 2 ^ d < 2 * r ∨ (2 * r = 2 ^ d ∧ q % 2 = 1) then q + 1 else q

/-- The exponent of the last significant place of m × 2^e in binary32: 23 places below its leading bit, and never below
2^-149 (gradual underflow, spec/40 R101). -/
def f32Place (m : Nat) (e : Int) : Int := max ((Nat.log2 m : Int) + e - 23) (-149)

/-- m × 2^e in units of 2^place, rounded to a whole number, ties to even. -/
def roundToPlace (m : Nat) (e place : Int) : Nat :=
  if place ≤ e then m * 2 ^ (e - place).toNat else divPow2Even m (place - e).toNat

/-- The magnitude bits of `rne_f32` (m × 2^e) (spec/40 R101). A significand of 2^24 units carries into the exponent
field by the addition; what would reach past the largest finite pattern is infinity. -/
def rneMagnitude (m : Nat) (e : Int) : Nat :=
  if m = 0 then 0
  else
    let place := f32Place m e
    min ((place + 149).toNat * 2 ^ 23 + roundToPlace m e place) f32InfMagnitude

/-- A binary32 pattern from a sign and magnitude bits. -/
def f32Pack (neg : Bool) (magnitude : Nat) : F32 :=
  (if neg then 0x80000000#32 else 0#32) ||| BitVec.ofNat 32 magnitude

/-- `rne_f32` of ±(m × 2^e); a zero takes the sign given (spec/40 R101). -/
def rneF32 (neg : Bool) (m : Nat) (e : Int) : F32 := f32Pack neg (rneMagnitude m e)

/-- `K` = `rne_f32` (scale_factor / 65536), a zero keeping its sign (spec/40 R102). For a scale factor that is not
finite the rule gives none: a free value, log 14. -/
def scaleConstant (scale : F64) : F32 :=
  if f64Finite scale then rneF32 (f64Sign scale) (f64Mant scale) (f64Exp scale - normLog)
  else Config.scaleNonFinite scale

/-- `widen`: sign extension to 32 bits, shifted left by `WIDEN_SHIFT` (spec/40 R104). -/
def widen (h : Lane) : Word32 := (h.signExtend 32) <<< widenShift

/-- Whether some binary32 value equals m: its bits below the leading 24 are 0. -/
def fitsF32 (m : Nat) : Bool := m % 2 ^ (Nat.log2 m - 23) == 0

/-- `i2f` (spec/40 R105): the binary32 whose value is exactly x, +0 for 0. Where there is none, a free value,
log 13. -/
def i2f (x : Word32) : F32 :=
  if fitsF32 x.toInt.natAbs then rneF32 x.msb x.toInt.natAbs 0 else Config.i2fInexact x

/-- `fmul` (spec/40 R106): the exact product of two finite values, rounded once; its sign is the exclusive-or of the
signs. For other operands no meaning is given: a free value, log 12. -/
def fmul (a b : F32) : F32 :=
  if f32Finite a && f32Finite b then
    rneF32 (f32Sign a ^^ f32Sign b) (f32Mant a * f32Mant b) (f32Exp a + f32Exp b)
  else Config.fmulNonFinite a b

end Sys2Proof.Machine
end

