-- ==== Sys2Proof/Machine/Operands.lean ====
section
/-! DEFINITION. Machine/Operands.lean: every way an operand is formed: the decoder of input words (spec/41), the three
views of a vector register (spec/00 R11), and the addresses of samples (spec/42 R153). -/

namespace Sys2Proof.Machine

/-- Exchange of the two bytes of a lane (spec/00 R10). -/
def bswap16 (h : Lane) : Lane := h.extractLsb' 0 8 ++ h.extractLsb' 8 8

/-- Exchange of the bytes inside each half-word (spec/41 R121). -/
def bswap16w (w : Word32) : Word32 := bswap16 (w.extractLsb' 16 16) ++ bswap16 (w.extractLsb' 0 16)

/-- Exchange of the two half-words (spec/41 R121). -/
def hswap (w : Word32) : Word32 := w.extractLsb' 0 16 ++ w.extractLsb' 16 16

/-- `CANON`: the word with the real lane in bits 15:0 and the imaginary lane in bits 31:16 (spec/41 R123). -/
def canon (m : Mode) (w : Word32) : Word32 :=
  let t := if bswapTable m then bswap16w w else w
  if realHiTable m then hswap t else t

/-- The raw real lane of `DECODE` (spec/41 R123). -/
def decodeReal (m : Mode) (w : Word32) : Lane := (canon m w).extractLsb' 0 16

/-- The raw imaginary lane of `DECODE` (spec/41 R123). -/
def decodeImag (m : Mode) (w : Word32) : Lane := (canon m w).extractLsb' 16 16

/-- `CONV`: the real and imaginary part of a converted word (spec/40 R109). No micro-operation calls it: it is what they
come to together. -/
def conv (m : Mode) (w : Word32) (k : F32) : F32 × F32 :=
  (fmul (i2f (widen (decodeReal m w))) k, fmul (i2f (widen (decodeImag m w))) k)

/-- Half-word lane `l` of a vector register, `V.h[l]` (spec/00 R11). -/
def vlane (v : VReg) (l : Nat) : Lane := v.extractLsb' (16 * l) 16

/-- Word slot `j` of a vector register, `V.w[j]` (spec/00 R11). -/
def vslot (v : VReg) (j : Nat) : Word32 := v.extractLsb' (32 * j) 32

/-- Half `q` of a vector register, `V.q[q]` (spec/00 R11). -/
def vhalf (v : VReg) (q : Nat) : BitVec 128 := v.extractLsb' (128 * q) 128

/-- The vector register with the given eight word slots. -/
def vofSlots (f : Nat → Word32) : VReg :=
  f 7 ++ f 6 ++ f 5 ++ f 4 ++ f 3 ++ f 2 ++ f 1 ++ f 0

/-- The vector register with the given two halves. -/
def vofHalves (lo hi : BitVec 128) : VReg := hi ++ lo

/-- One function applied to every word slot. -/
def vmap (f : Word32 → Word32) (v : VReg) : VReg := vofSlots fun j => f (vslot v j)

/-- One function applied to the slots of two registers pairwise. -/
def vmap₂ (f : Word32 → Word32 → Word32) (u v : VReg) : VReg := vofSlots fun j => f (vslot u j) (vslot v j)

/-- The unpack of the low 64 bits of each half (spec/43 R174). With `WIDEN_SHIFT` = 0 no bit of `VZ` reaches the
result. -/
def unpackLo (v : VReg) : VReg := vofSlots fun j => widen (vlane v (8 * (j / 4) + j % 4))

/-- The unpack of the high 64 bits of each half (spec/43 R175). -/
def unpackHi (v : VReg) : VReg := vofSlots fun j => widen (vlane v (8 * (j / 4) + 4 + j % 4))

/-- The effective address of input word `i` (spec/42 R153), an unbounded integer. -/
def inAddr (inBase : Addr) (i : BitVec 64) : Nat := inBase.toNat + inStride * i.toNat

/-- The effective address of output sample `i` (spec/42 R153), an unbounded integer. -/
def outAddr (outBase : Addr) (i : BitVec 64) : Nat := outBase.toNat + outStride * i.toNat

/-- The 64-bit value of a scalar store: the imaginary part above the real one (spec/20 R56). -/
def samplePair (fr fi : F32) : BitVec 64 := fi ++ fr

end Sys2Proof.Machine
end

