-- ==== Sys2Proof/Machine/Flags.lean ====
section
/-! DEFINITION. Machine/Flags.lean: the block has no flags, condition codes or predicates (spec/10 R32). What stands here
are the tests the sequencer makes and consumes inside one micro-operation. -/

namespace Sys2Proof.Machine

/-- The alignment probe (spec/42 R145): `OUT_BASE` modulo `ALIGN`. -/
def probeBranch (outBase : Addr) : Branch :=
  let r := outBase.toNat % align
  if r = 0 then .one else if r = half then .two else .three

/-- `I + 7 < NSAMPS`, without wrap (spec/42 R148). -/
def batchLeft (i nsamps : BitVec 64) : Bool := decide (i.toNat + (batch - 1) < nsamps.toNat)

/-- `I < NSAMPS`, unsigned (spec/42 R147, R150, R153). -/
def sampleLeft (i nsamps : BitVec 64) : Bool := decide (i.toNat < nsamps.toNat)

end Sys2Proof.Machine
end

