-- ==== Sys2Proof/Machine/Ops.lean ====
section
/-! DEFINITION. Machine/Ops.lean: the named operations over memory, the port and the registers. The block takes no
exception and returns from none (spec/60 R220, R225, R226), so there is no entry and no return here; a refused access is
`access`, and reset is `resetWith`. -/

namespace Sys2Proof.Machine

/-! ### Memory -/

/-- What a byte that nothing has written reads as. DESIGN CHOICE, unsafe: the contents are the launch memory's (spec/20
R50). Log 3. -/
def memDefault : Byte := 0

/-- The byte at an address. -/
def memGet : List Host.Cell → Nat → Byte
  | [], _ => memDefault
  | (b, v) :: rest, a => if a = b then v else memGet rest a

/-- Storing one byte: the list stays in order of address and lists no default byte. -/
def memPut : List Host.Cell → Nat → Byte → List Host.Cell
  | [], a, v => if v = memDefault then [] else [(a, v)]
  | (b, w) :: rest, a, v =>
    if a < b then (if v = memDefault then (b, w) :: rest else (a, v) :: (b, w) :: rest)
    else if a = b then (if v = memDefault then rest else (a, v) :: rest)
    else (b, w) :: memPut rest a v

/-- Whether every address listed is above `lo` and in rising order, and no default byte is listed. -/
def memWfFrom : Option Nat → List Host.Cell → Bool
  | _, [] => true
  | none, (b, v) :: rest => (v != memDefault) && memWfFrom (some b) rest
  | some lo, (b, v) :: rest => decide (lo < b) && (v != memDefault) && memWfFrom (some b) rest

/-- The canonical form of memory: strictly rising addresses, no default byte. -/
def memWf (m : List Host.Cell) : Bool := memWfFrom none m

/-- Performing stored bytes, oldest first. -/
def memPerform (m : List Host.Cell) (cells : List Host.Cell) : List Host.Cell :=
  cells.foldl (fun m c => memPut m c.1 c.2) m

/-- The unsigned integer of the `n` bytes from `a`, least significant byte at the lowest address (spec/20 R52). -/
def memReadNat (m : List Host.Cell) (a : Nat) : Nat → Nat
  | 0 => 0
  | n + 1 => (memGet m a).toNat + 256 * memReadNat m (a + 1) n

/-- `MemRead` of 4 bytes (spec/20 R52). -/
def memRead4 (m : List Host.Cell) (a : Nat) : Word32 := BitVec.ofNat 32 (memReadNat m a 4)

/-- `MemRead` of 32 bytes (spec/20 R52, R55). -/
def memRead32 (m : List Host.Cell) (a : Nat) : VReg := BitVec.ofNat 256 (memReadNat m a 32)

/-- Byte `k` of a value: bits `[8k+7:8k]` (spec/20 R53). -/
def byteOf {w : Nat} (v : BitVec w) (k : Nat) : Byte := v.extractLsb' (8 * k) 8

/-- The bytes of an `n`-byte store of `v` at `a` (spec/20 R53). -/
def storeCells {w : Nat} (a n : Nat) (v : BitVec w) : List Host.Cell :=
  (List.range n).map fun k => (a + k, byteOf v k)

/-- Memory as it will be when every store in flight has been performed in issue order. -/
def settled (s : State) : List Host.Cell := memPerform s.mem s.inFlight

/-! ### The memory port -/

/-- The two kinds of access. -/
inductive Access where
  | read
  | write
  deriving DecidableEq, Repr

/-- Whether a region lets the port make this kind of access. -/
def regionGrants (acc : Access) (r : Region) : Bool :=
  match acc with
  | .read => r.readable
  | .write => r.writable

/-- Whether a region holds an address. -/
def regionHolds (r : Region) (a : Nat) : Bool := decide (r.base ≤ a) && decide (a < r.base + r.size)

/-- Whether some region holds an address. -/
def anyHolds (rs : List Region) (a : Nat) : Bool := rs.any fun r => regionHolds r a

/-- Whether every address from `lo` up to but not including `hi` is held by some region: the first is, and so is every
address inside at which a region has just ended. (Laws/Ops.lean `covers_iff` says it is this.) -/
def covers (rs : List Region) (lo hi : Nat) : Bool :=
  decide (hi ≤ lo) ||
    (anyHolds rs lo &&
      rs.all fun r =>
        !(decide (lo < r.base + r.size) && decide (r.base + r.size < hi)) || anyHolds rs (r.base + r.size))

/-- The regions that admit an access. -/
def grantingRegions (p : Platform) (acc : Access) : List Region := p.regions.filter (regionGrants acc)

/-- Whether any byte from `lo` up to but not including `hi` lies in a device region. -/
def touchesDevice (p : Platform) (lo hi : Nat) : Bool :=
  p.regions.any fun r =>
    (r.kind == .device) && decide (max r.base lo < min (r.base + r.size) hi)

/-- Whether the platform admits an access to every byte of the `n` bytes from `a` (spec/20 R50). -/
def admits (p : Platform) (acc : Access) (a n : Nat) : Bool := covers (grantingRegions p acc) a (a + n)

/-- What a micro-operation does that accesses the `n` bytes from `a` and would leave the state `t`: an address sum past
2^64 has no meaning (spec/42 R153, spec/93 U4); an access the platform does not admit, or that is not wholly to ordinary
memory, leaves the sequencer where it stands, with nothing performed (spec/60 R224, spec/93 U3). Log 7, log 11. -/
def access (acc : Access) (a n : Nat) (s t : State) : Host.Outcome State Fault Refusal :=
  if 2 ^ addressBits < a + n then .refused .bufferWraps
  else if admits s.platform acc a n && !touchesDevice s.platform a (a + n) then .next t
  else .next s

/-- Issuing stored bytes: memory takes them at once, or the port holds them back (spec/20 R62). Log 16. -/
def issueCells (cells : List Host.Cell) (s : State) : State :=
  if s.platform.buffersStores then { s with inFlight := s.inFlight ++ cells }
  else { s with mem := memPerform s.mem cells }

/-- `MemWrite` with its event (spec/20 R53, R67). -/
def memWrite {w : Nat} (a n : Nat) (v : BitVec w) (form : Form) (s : State) : State :=
  issueCells (storeCells a n v) { s with history := s.history ++ [.write a n v.toNat form] }

/-- The event of a read (spec/20 R67). -/
def recordRead (a n : Nat) (s : State) : State := { s with history := s.history ++ [.read a n] }

/-- The address of the output sample `I`. -/
def storeAddr (s : State) : Nat := outAddr s.outBase s.i

/-- The two writes of a vector store, the index and the way back to the loop test (spec/43 R179, R180). -/
def vectorStore (form : Form) (s : State) : Host.Outcome State Fault Refusal :=
  let a := storeAddr s
  let t := memWrite (a + 32) 32 s.vfb form (memWrite a 32 s.vfa form s)
  access .write a 64 s { t with i := s.i + BitVec.ofNat 64 batch, st := .bulktest }

/-- The port performs the `index`-th byte in flight (spec/20 R62, spec/93 U18: in any order). -/
def portPerform (index : Nat) (s : State) : State :=
  match s.inFlight[index]? with
  | some c => { s with mem := memPut s.mem c.1 c.2, inFlight := s.inFlight.eraseIdx index }
  | none => s

/-! ### Admission of a command -/

/-- Condition (a) of `ADMITTED` (spec/42 R142). -/
def allWritten (m : Marks) : Bool := m.inBase && m.outBase && m.nsamps && m.scale

/-- The end of the input buffer, an unbounded integer. -/
def inEnd (s : State) : Nat := s.inBase.toNat + inStride * s.nsamps.toNat

/-- The end of the output buffer, an unbounded integer. -/
def outEnd (s : State) : Nat := s.outBase.toNat + outStride * s.nsamps.toNat

/-- Whether an address lies in the input buffer. -/
def inInput (s : State) (a : Nat) : Bool := decide (s.inBase.toNat ≤ a) && decide (a < inEnd s)

/-- Whether an address lies in the output buffer. -/
def inOutput (s : State) (a : Nat) : Bool := decide (s.outBase.toNat ≤ a) && decide (a < outEnd s)

/-- Condition (e): both buffers admitted, and ordinary memory. -/
def buffersAdmitted (s : State) : Bool :=
  admits s.platform .read s.inBase.toNat (inStride * s.nsamps.toNat) &&
    admits s.platform .write s.outBase.toNat (outStride * s.nsamps.toNat) &&
    !touchesDevice s.platform s.inBase.toNat (inEnd s) && !touchesDevice s.platform s.outBase.toNat (outEnd s)

/-- Whether two ranges of addresses, each without its end, share a byte. -/
def rangesMeet (lo hi lo' hi' : Nat) : Bool := decide (max lo lo' < min hi hi')

/-- Condition (f) fails: the two ranges share a byte (spec/20 R66). -/
def overlap (s : State) : Bool := rangesMeet s.inBase.toNat (inEnd s) s.outBase.toNat (outEnd s)

/-- Whether an address lies in the input buffer of a pair. -/
def pairInput (p : BufferPair) (a : Nat) : Bool :=
  decide (p.inBase.toNat ≤ a) && decide (a < p.inBase.toNat + inStride * p.nsamps.toNat)

/-- Whether an address lies in the output buffer of a pair. -/
def pairOutput (p : BufferPair) (a : Nat) : Bool :=
  decide (p.outBase.toNat ≤ a) && decide (a < p.outBase.toNat + outStride * p.nsamps.toNat)

/-- Whether an address lies in either buffer of a pair. -/
def pairHolds (p : BufferPair) (a : Nat) : Bool := pairInput p a || pairOutput p a

/-- Whether two buffer pairs share a byte: input or output with input or output (spec/20 R68). -/
def pairsMeet (p q : BufferPair) : Bool :=
  let pi := p.inBase.toNat + inStride * p.nsamps.toNat
  let po := p.outBase.toNat + outStride * p.nsamps.toNat
  let qi := q.inBase.toNat + inStride * q.nsamps.toNat
  let qo := q.outBase.toNat + outStride * q.nsamps.toNat
  rangesMeet p.inBase.toNat pi q.inBase.toNat qi || rangesMeet p.inBase.toNat pi q.outBase.toNat qo ||
    rangesMeet p.outBase.toNat po q.inBase.toNat qi || rangesMeet p.outBase.toNat po q.outBase.toNat qo

/-- The buffer pair that the argument registers name. -/
def ownPair (s : State) : BufferPair := ⟨s.inBase, s.outBase, s.nsamps⟩

/-- Whether a running command of another converter shares a byte with a pair (spec/20 R68). -/
def meetsOther (p : BufferPair) (s : State) : Bool := s.others.any (pairsMeet p)

/-- `ADMITTED` (spec/42 R142): the reason of the first condition of (a) to (g) that is false, if one is. Condition (g) is
about the whole run: what another converter that runs already breaks of it is seen here (spec/20 R68), the rest is
watched by `agentAccess`, `otherStart` and `otherAccess`. Log 9, log 10. -/
def admission (s : State) : Option Refusal :=
  if allWritten s.marks = false then some .unwrittenArgument
  else if f64Finite s.scale = false then some .scaleNotFinite
  else if f32Finite (scaleConstant s.scale) = false then some .scaleOverflowsF32
  else if 2 ^ addressBits < inEnd s ∨ 2 ^ addressBits < outEnd s then some .bufferWraps
  else if buffersAdmitted s = false then some .bufferNotAdmitted
  else if overlap s then some .buffersOverlap
  else if meetsOther (ownPair s) s then some .concurrentAccess
  else none

/-- The state in which a command has just been accepted (spec/42 R141). -/
def accepted (m : Mode) (s : State) : State :=
  { s with m := m, status := ⟨true, false⟩, st := .setup }

/-- A `CONVERT` command (spec/42 R141): ignored while busy (spec/30 R85), refused when not admitted. -/
def startCommand (m : Mode) (s : State) : Host.Outcome State Fault Refusal :=
  if s.status.busy then .next s
  else
    match admission s with
    | some r => .refused r
    | none => .next (accepted m s)

/-! ### Host registers -/

/-- The word a read of `STATUS` returns (spec/10 R23). -/
def statusWord (st : Status) : Word32 := (if st.busy then 1#32 else 0#32) ||| (if st.done then 2#32 else 0#32)

/-- The output wire `done` (spec/10 R23). -/
def doneWire (s : State) : Bool := s.status.done

/-- The number of a register (spec/10 R21). -/
def regNumber : HostReg → Nat
  | .ctrl => 0
  | .status => 1
  | .arg .inBase => 2
  | .arg .outBase => 3
  | .arg .nsamps => 4
  | .arg .scale => 5

/-- The byte offset of a register (spec/10 R21). -/
def regOffset : HostReg → Nat
  | .ctrl => 0x00
  | .status => 0x04
  | .arg .inBase => 0x08
  | .arg .outBase => 0x10
  | .arg .nsamps => 0x18
  | .arg .scale => 0x20

/-- Where the platform maps a register, if it maps the register space (spec/10 R21, spec/92 D2). -/
def regAddress (r : HostReg) : Option Nat := Config.regBase.map (· + regOffset r)

/-- The contents of an argument register. -/
def argValue (a : Arg) (s : State) : BitVec 64 :=
  match a with
  | .inBase => s.inBase
  | .outBase => s.outBase
  | .nsamps => s.nsamps
  | .scale => s.scale

/-- The written-mark of an argument register (spec/10 R31). -/
def argMark (a : Arg) (m : Marks) : Bool :=
  match a with
  | .inBase => m.inBase
  | .outBase => m.outBase
  | .nsamps => m.nsamps
  | .scale => m.scale

/-- A host write of an argument register (spec/10 R24, R31): ignored while busy, else the whole register and its
mark. -/
def writeArg (a : Arg) (v : BitVec 64) (s : State) : State :=
  if s.status.busy then s
  else
    match a with
    | .inBase => { s with inBase := v, marks := { s.marks with inBase := true } }
    | .outBase => { s with outBase := v, marks := { s.marks with outBase := true } }
    | .nsamps => { s with nsamps := v, marks := { s.marks with nsamps := true } }
    | .scale => { s with scale := v, marks := { s.marks with scale := true } }

/-- A host read (spec/10 R21 to R24). An argument register whose mark is clear returns a free value (spec/93 U7),
log 15. -/
def readReg (r : HostReg) (s : State) : State :=
  match r with
  | .ctrl => { s with rdata := 0 }
  | .status => { s with rdata := (statusWord s.status).setWidth 64 }
  | .arg a =>
    if argMark a s.marks then { s with rdata := argValue a s }
    else { s with rdata := Config.unwrittenRead s.draws, draws := s.draws + 1 }

/-- A write of a reserved command word: ignored while busy (spec/30 R85), else without a meaning (R84). -/
def writeReserved (c : Word32) (s : State) : Host.Outcome State Fault Refusal :=
  if s.status.busy then .next s else .refused (.reservedCommand c)

/-! ### Other agents and reset -/

/-- Whether an agent that is no converter breaks condition (g) of R142 by this access (spec/70 R256). -/
def concurrent (acc : Access) (a : Nat) (s : State) : Bool :=
  s.status.busy && (inOutput s a || (acc == .write && inInput s a))

/-- A memory access of an agent that is no converter and that would leave the state `t` (spec/93 U5). Log 10. -/
def agentAccess (acc : Access) (a : Nat) (s t : State) : Host.Outcome State Fault Refusal :=
  if concurrent acc a s then .refused .concurrentAccess else .next t

/-- Another converter accepts a command on the buffers `p`: a run in which they share a byte with those of a running
command, this block's or another's, has no meaning (spec/20 R68, spec/93 U5). Log 22. -/
def otherStart (p : BufferPair) (s : State) : Host.Outcome State Fault Refusal :=
  if (s.status.busy && pairsMeet (ownPair s) p) || meetsOther p s then .refused .concurrentAccess
  else .next { s with others := s.others ++ [p] }

/-- The buffer of a pair that its converter makes this kind of access to (spec/20 R68: "each call only reads its input
buffer and writes its own output buffer"). -/
def pairGrants (acc : Access) (p : BufferPair) (a : Nat) : Bool :=
  match acc with
  | .read => pairInput p a
  | .write => pairOutput p a

/-- An access of the `index`-th other converter that would leave the state `t`. A converter makes no access outside its
own buffers, so such a move does nothing; a byte shared with this block's running command has no meaning, whichever the
access and the buffer (spec/20 R68). Log 22. -/
def otherAccess (acc : Access) (index a : Nat) (s t : State) : Host.Outcome State Fault Refusal :=
  match s.others[index]? with
  | none => .next s
  | some p =>
    if pairGrants acc p a = false then .next s
    else if s.status.busy && pairHolds (ownPair s) a then .refused .concurrentAccess
    else .next t

/-- The `index`-th other converter is done: its buffers are free. -/
def otherEnd (index : Nat) (s : State) : State := { s with others := s.others.eraseIdx index }

/-- The bytes a write of the event history stores (spec/20 R53, R67). -/
def eventCells : Event → List Host.Cell
  | .read _ _ => []
  | .write a n v _ => storeCells a n (BitVec.ofNat (8 * n) v)

/-- The form in which branch `b` stores its batches (spec/42 R149). -/
def branchForm (b : Branch) : Form := if b = .three then .unaligned else .aligned

/-- The writes the current micro-operation would issue, in order, if it stores and its access is served: the store that a
reset may catch half done (spec/70 R252). -/
def currentWrites (s : State) : List Event :=
  let a := storeAddr s
  let served := fun n =>
    decide (a + n ≤ 2 ^ addressBits) && admits s.platform .write a n && !touchesDevice s.platform a (a + n)
  let form := branchForm s.br
  match s.st with
  | .s5 => if served 8 then [.write a 8 (samplePair s.fr s.fi).toNat .unaligned] else []
  | .v8 =>
    if served 64 && s.br != .none then [.write a 32 s.vfa.toNat form, .write (a + 32) 32 s.vfb.toNat form] else []
  | _ => []

/-- The bytes of the current store. -/
def currentStore (s : State) : List Host.Cell := (currentWrites s).flatMap eventCells

/-- The bytes that land at a reset: of the stores in flight and the current one, those chosen. -/
def landing (landed : List Bool) (s : State) : List Host.Cell :=
  (((s.inFlight ++ currentStore s).zip landed).filter Prod.snd).map Prod.fst

/-- Of writes issued one after the other, those that have begun when `n` of their bytes are under way. -/
def begunWrites : List Event → Nat → List Event
  | [], _ => []
  | e :: rest, n => if n = 0 then [] else e :: begunWrites rest (n - (eventCells e).length)

/-- The writes of the current store that a reset catches issued: those that the choice of the bytes that land reaches
behind the bytes in flight, whether or not a byte of theirs lands. Log 17. -/
def caughtWrites (landed : List Bool) (s : State) : List Event :=
  begunWrites (currentWrites s) (landed.length - s.inFlight.length)

/-- Reset (spec/70 R250, R252): the block's registers as after power-on, memory untouched but for the stores under way,
of which any subset of the bytes lands, each write among them one event of the history (spec/20 R67); the other
converters run on (spec/60 R232). Log 17. -/
def resetWith (landed : List Bool) (s : State) : State :=
  { State.reset with
    mem := memPerform s.mem (landing landed s)
    platform := s.platform
    others := s.others
    turns := s.turns
    history := s.history ++ caughtWrites landed s
    rdata := s.rdata
    draws := s.draws }

end Sys2Proof.Machine
end

