-- ==== Sys2Proof/Machine/Commands.lean ====
section
/-! DEFINITION. Machine/Commands.lean: the meanings of the four commands (spec/42 section 1). -/

namespace Sys2Proof.Machine

/-- `NOP` (spec/42 R143): it changes no state, idle or busy, whatever its other 31 bits. -/
def execNop (_c : Word32) (s : State) : Host.Outcome State Fault Refusal := .next s

/-- `CONVERT.NATIVE` (spec/42 R141). -/
def execConvertNative (s : State) : Host.Outcome State Fault Refusal := startCommand .nativeWire s

/-- `CONVERT.LE` (spec/42 R141). -/
def execConvertLe (s : State) : Host.Outcome State Fault Refusal := startCommand .littleEndianWire s

/-- `CONVERT.BE` (spec/42 R141). -/
def execConvertBe (s : State) : Host.Outcome State Fault Refusal := startCommand .bigEndianWire s

end Sys2Proof.Machine
end

