-- ==== Sys2Proof/Machine/Control.lean ====
section
/-! DEFINITION. Machine/Control.lean: the meanings of the control micro-operations (spec/42 sections 1 to 3). -/

namespace Sys2Proof.Machine

/-- `C.IDLE` (spec/42 R140): nothing changes. -/
def execCIdle (s : State) : Host.Outcome State Fault Refusal := .next s

/-- `C.SETUP` (spec/42 R144). -/
def execCSetup (s : State) : Host.Outcome State Fault Refusal :=
  let k := scaleConstant s.scale
  .next { s with i := 0, k := k, vk := vofSlots fun _ => k, vz := 0, st := .probe }

/-- `C.PROBE` (spec/42 R145). -/
def execCProbe (s : State) : Host.Outcome State Fault Refusal :=
  .next { s with br := probeBranch s.outBase, st := .headtest }

/-- `C.HEADTEST` (spec/42 R147). -/
def execCHeadtest (s : State) : Host.Outcome State Fault Refusal :=
  if s.br = .two ∧ sampleLeft s.i s.nsamps = true then .next { s with ret := .head, st := .s0 }
  else .next { s with st := .bulktest }

/-- `C.BULKTEST` (spec/42 R148). -/
def execCBulktest (s : State) : Host.Outcome State Fault Refusal :=
  if batchLeft s.i s.nsamps then .next { s with st := .v0 } else .next { s with st := .tailtest }

/-- `C.TAILTEST` (spec/42 R150). -/
def execCTailtest (s : State) : Host.Outcome State Fault Refusal :=
  if sampleLeft s.i s.nsamps then .next { s with ret := .tail, st := .s0 } else .next { s with st := .finish }

/-- `C.FINISH` (spec/42 R152). Its wait for the stores in flight ends when they have all been performed, so the state it
leaves holds them in memory (spec/20 R62). Log 16. -/
def execCFinish (s : State) : Host.Outcome State Fault Refusal :=
  .next { s with mem := settled s, inFlight := [], status := ⟨false, true⟩, st := .idle }

end Sys2Proof.Machine
end

