-- ==== Sys2Proof/Machine/Scalar.lean ====
section
/-! DEFINITION. Machine/Scalar.lean: the meanings of the scalar micro-operations (spec/44). -/

namespace Sys2Proof.Machine

/-- `S.LOAD` (spec/44 R201). -/
def execSLoad (s : State) : Host.Outcome State Fault Refusal :=
  let a := inAddr s.inBase s.i
  access .read a 4 s { recordRead a 4 s with w := memRead4 s.mem a, st := .s1 }

/-- `S.DECODE` (spec/44 R202). -/
def execSDecode (s : State) : Host.Outcome State Fault Refusal :=
  .next { s with rr := decodeReal s.m s.w, ri := decodeImag s.m s.w, st := .s2 }

/-- `S.WIDEN` (spec/44 R203). -/
def execSWiden (s : State) : Host.Outcome State Fault Refusal :=
  .next { s with xr := widen s.rr, xi := widen s.ri, st := .s3 }

/-- `S.CVT` (spec/44 R204). -/
def execSCvt (s : State) : Host.Outcome State Fault Refusal :=
  .next { s with fr := i2f s.xr, fi := i2f s.xi, st := .s4 }

/-- `S.MUL` (spec/44 R205). -/
def execSMul (s : State) : Host.Outcome State Fault Refusal :=
  .next { s with fr := fmul s.fr s.k, fi := fmul s.fi s.k, st := .s5 }

/-- `S.STORE` (spec/44 R206, spec/42 R151). -/
def execSStore (s : State) : Host.Outcome State Fault Refusal :=
  let a := storeAddr s
  let back := match s.ret with
    | .head => SeqState.bulktest
    | .tail => SeqState.tailtest
  access .write a 8 s
    { memWrite a 8 (samplePair s.fr s.fi) .unaligned s with i := s.i + 1, st := back }

end Sys2Proof.Machine
end

