-- ==== Sys2Proof/Machine/Vector.lean ====
section
/-! DEFINITION. Machine/Vector.lean: the meanings of the vector micro-operations (spec/43). -/

namespace Sys2Proof.Machine

/-- `V.LOAD` (spec/43 R171). -/
def execVLoad (s : State) : Host.Outcome State Fault Refusal :=
  let a := inAddr s.inBase s.i
  access .read a 32 s { recordRead a 32 s with vin := memRead32 s.mem a, st := .v1 }

/-- `V.BSWAP16` (spec/43 R172). -/
def execVBswap16 (s : State) : Host.Outcome State Fault Refusal :=
  .next { s with vin := if bswapTable s.m then vmap bswap16w s.vin else s.vin, st := .v2 }

/-- `V.HSWAP` (spec/43 R173). -/
def execVHswap (s : State) : Host.Outcome State Fault Refusal :=
  .next { s with vin := if realHiTable s.m then vmap hswap s.vin else s.vin, st := .v3 }

/-- `V.UNPACKLO` (spec/43 R174). -/
def execVUnpacklo (s : State) : Host.Outcome State Fault Refusal :=
  .next { s with vlo := unpackLo s.vin, st := .v4 }

/-- `V.UNPACKHI` (spec/43 R175). -/
def execVUnpackhi (s : State) : Host.Outcome State Fault Refusal :=
  .next { s with vhi := unpackHi s.vin, st := .v5 }

/-- `V.PERM` (spec/43 R176). -/
def execVPerm (s : State) : Host.Outcome State Fault Refusal :=
  .next { s with
    va := vofHalves (vhalf s.vlo 0) (vhalf s.vhi 0)
    vb := vofHalves (vhalf s.vlo 1) (vhalf s.vhi 1)
    st := .v6 }

/-- `V.CVT` (spec/43 R177). -/
def execVCvt (s : State) : Host.Outcome State Fault Refusal :=
  .next { s with vfa := vmap i2f s.va, vfb := vmap i2f s.vb, st := .v7 }

/-- `V.MUL` (spec/43 R178). -/
def execVMul (s : State) : Host.Outcome State Fault Refusal :=
  .next { s with vfa := vmap₂ fmul s.vfa s.vk, vfb := vmap₂ fmul s.vfb s.vk, st := .v8 }

/-- `V.STORE.A` (spec/43 R179): the form is an attribute of the events alone (spec/20 R59). -/
def execVStoreA (s : State) : Host.Outcome State Fault Refusal := vectorStore .aligned s

/-- `V.STORE.U` (spec/43 R180). -/
def execVStoreU (s : State) : Host.Outcome State Fault Refusal := vectorStore .unaligned s

end Sys2Proof.Machine
end

