-- ==== Sys2Proof/Syntax.lean ====
section
/-! DEFINITION. Syntax.lean: the instructions, one constructor per row of spec/opcode_table.json. -/

namespace Sys2Proof

/-- The four commands and the 23 micro-operations (spec/30 R80). Every operand of a micro-operation is implicit
(R86). A `NOP` keeps the word that was written, 31 bits of which nothing looks at (R83). -/
inductive Instr where
  /-- `NOP`: any write to `CTRL` with `START` = 0 (spec/42 R143). -/
  | nop (c : Word32)
  /-- `CONVERT.NATIVE` (spec/42 R141). -/
  | convertNative
  /-- `CONVERT.LE` (spec/42 R141). -/
  | convertLe
  /-- `CONVERT.BE` (spec/42 R141). -/
  | convertBe
  /-- `C.SETUP` (spec/42 R144). -/
  | cSetup
  /-- `C.PROBE` (spec/42 R145). -/
  | cProbe
  /-- `C.HEADTEST` (spec/42 R147). -/
  | cHeadtest
  /-- `C.BULKTEST` (spec/42 R148). -/
  | cBulktest
  /-- `C.TAILTEST` (spec/42 R150). -/
  | cTailtest
  /-- `C.FINISH` (spec/42 R152). -/
  | cFinish
  /-- `C.IDLE` (spec/42 R140). -/
  | cIdle
  /-- `S.LOAD` (spec/44 R201). -/
  | sLoad
  /-- `S.DECODE` (spec/44 R202). -/
  | sDecode
  /-- `S.WIDEN` (spec/44 R203). -/
  | sWiden
  /-- `S.CVT` (spec/44 R204). -/
  | sCvt
  /-- `S.MUL` (spec/44 R205). -/
  | sMul
  /-- `S.STORE` (spec/44 R206). -/
  | sStore
  /-- `V.LOAD` (spec/43 R171). -/
  | vLoad
  /-- `V.BSWAP16` (spec/43 R172). -/
  | vBswap16
  /-- `V.HSWAP` (spec/43 R173). -/
  | vHswap
  /-- `V.UNPACKLO` (spec/43 R174). -/
  | vUnpacklo
  /-- `V.UNPACKHI` (spec/43 R175). -/
  | vUnpackhi
  /-- `V.PERM` (spec/43 R176). -/
  | vPerm
  /-- `V.CVT` (spec/43 R177). -/
  | vCvt
  /-- `V.MUL` (spec/43 R178). -/
  | vMul
  /-- `V.STORE.A` (spec/43 R179). -/
  | vStoreA
  /-- `V.STORE.U` (spec/43 R180). -/
  | vStoreU
  deriving DecidableEq, Repr

end Sys2Proof
end

