-- ==== Sys2Proof/Machine/Dispatch.lean ====
section
/-! DEFINITION. Machine/Dispatch.lean: which meaning each instruction has. -/

namespace Sys2Proof.Machine

def exec (i : Instr) (s : State) : Host.Outcome State Fault Refusal :=
  match i with
  | .nop c => Sys2Proof.Machine.execNop c s
  | .convertNative => Sys2Proof.Machine.execConvertNative s
  | .convertLe => Sys2Proof.Machine.execConvertLe s
  | .convertBe => Sys2Proof.Machine.execConvertBe s
  | .cSetup => Sys2Proof.Machine.execCSetup s
  | .cProbe => Sys2Proof.Machine.execCProbe s
  | .cHeadtest => Sys2Proof.Machine.execCHeadtest s
  | .cBulktest => Sys2Proof.Machine.execCBulktest s
  | .cTailtest => Sys2Proof.Machine.execCTailtest s
  | .cFinish => Sys2Proof.Machine.execCFinish s
  | .cIdle => Sys2Proof.Machine.execCIdle s
  | .sLoad => Sys2Proof.Machine.execSLoad s
  | .sDecode => Sys2Proof.Machine.execSDecode s
  | .sWiden => Sys2Proof.Machine.execSWiden s
  | .sCvt => Sys2Proof.Machine.execSCvt s
  | .sMul => Sys2Proof.Machine.execSMul s
  | .sStore => Sys2Proof.Machine.execSStore s
  | .vLoad => Sys2Proof.Machine.execVLoad s
  | .vBswap16 => Sys2Proof.Machine.execVBswap16 s
  | .vHswap => Sys2Proof.Machine.execVHswap s
  | .vUnpacklo => Sys2Proof.Machine.execVUnpacklo s
  | .vUnpackhi => Sys2Proof.Machine.execVUnpackhi s
  | .vPerm => Sys2Proof.Machine.execVPerm s
  | .vCvt => Sys2Proof.Machine.execVCvt s
  | .vMul => Sys2Proof.Machine.execVMul s
  | .vStoreA => Sys2Proof.Machine.execVStoreA s
  | .vStoreU => Sys2Proof.Machine.execVStoreU s

end Sys2Proof.Machine
end

