-- ==== Sys2Proof/WellFormed.lean ====
section
/-! DEFINITION. WellFormed.lean: the one check an instruction's syntax can fail. -/

namespace Sys2Proof

/-- A `NOP` is a command word with `START` = 0 (spec/30 R83); no other instruction has an operand to check. -/
def Instr.wf : Instr → Bool
  | .nop word => !word[0]
  | _ => true

end Sys2Proof
end

