-- ==== Sys2Proof/Decode.lean ====
section
/-! DEFINITION. Decode.lean: the command map and the micro-operation codes (spec/30 R81 to R87), and the encoder
written from the same tables. -/

namespace Sys2Proof

/-- The bits of one instruction, by format (spec/30 R81, R86). The two formats are never mixed: a command is a host
write to `CTRL`, a micro-operation is issued by the sequencer. -/
inductive InstrWord where
  /-- Format `CMD`: the 32-bit value of one host write to `CTRL`. -/
  | cmd (c : Word32)
  /-- Format `UOP`: a 5-bit code. -/
  | uop (code : BitVec 5)
  deriving DecidableEq, Repr

/-- Why bits are no instruction. -/
inductive Reject where
  /-- `START` = 1 with `MODE` = 3 (spec/30 R84). -/
  | reservedMode
  /-- `START` = 1 with a bit of `RSV` set (spec/30 R84). -/
  | reservedBits
  /-- A micro-operation code that names none (spec/30 R86). -/
  | unusedCode
  /-- A byte whose upper three bits are not zero, which is no 5-bit code. -/
  | wideCode
  /-- A number of bytes that neither format has. -/
  | badLength
  deriving DecidableEq, Repr

/-- The command map (spec/30 R83): `NOP` first, then the three exact values, all else reserved. -/
def decodeCmd (word : Word32) : Except Reject Instr :=
  if word[0] = false then .ok (.nop word)
  else if word = 0x00000001#32 then .ok .convertNative
  else if word = 0x00000003#32 then .ok .convertLe
  else if word = 0x00000005#32 then .ok .convertBe
  else if word.extractLsb' 3 29 ≠ 0#29 then .error .reservedBits
  else .error .reservedMode

/-- The micro-operation codes (spec/30 R86). -/
def decodeUop (code : BitVec 5) : Except Reject Instr :=
  match code.toNat with
  | 0x01 => .ok .cSetup
  | 0x02 => .ok .cProbe
  | 0x03 => .ok .cHeadtest
  | 0x04 => .ok .cBulktest
  | 0x05 => .ok .cTailtest
  | 0x06 => .ok .cFinish
  | 0x07 => .ok .cIdle
  | 0x08 => .ok .sLoad
  | 0x09 => .ok .sDecode
  | 0x0A => .ok .sWiden
  | 0x0B => .ok .sCvt
  | 0x0C => .ok .sMul
  | 0x0D => .ok .sStore
  | 0x10 => .ok .vLoad
  | 0x11 => .ok .vBswap16
  | 0x12 => .ok .vHswap
  | 0x13 => .ok .vUnpacklo
  | 0x14 => .ok .vUnpackhi
  | 0x15 => .ok .vPerm
  | 0x16 => .ok .vCvt
  | 0x17 => .ok .vMul
  | 0x18 => .ok .vStoreA
  | 0x19 => .ok .vStoreU
  | _ => .error .unusedCode

/-- Decoding, by format. -/
def decode : InstrWord → Except Reject Instr
  | .cmd c => decodeCmd c
  | .uop code => decodeUop code

/-- The format of some bytes in ascending order of address: four bytes are a command, little-endian as every
multi-byte value of this hardware (spec/00 R7 `HOST_ORDER`); one byte is a micro-operation code. Log 18. -/
def wordOfBytes : List Byte → Except Reject InstrWord
  | [b0, b1, b2, b3] => .ok (.cmd (b3 ++ b2 ++ b1 ++ b0))
  | [b] => if b.toNat < 32 then .ok (.uop (b.setWidth 5)) else .error .wideCode
  | _ => .error .badLength

/-- Decoding of bytes: total, and every refusal has a name. -/
def decodeBytes (bs : List Byte) : Except Reject Instr :=
  match wordOfBytes bs with
  | .ok x => decode x
  | .error e => .error e

/-- The encoding of an instruction, from the same tables (spec/30 R83, R86). -/
def encode : Instr → InstrWord
  | .nop c => .cmd c
  | .convertNative => .cmd 0x00000001#32
  | .convertLe => .cmd 0x00000003#32
  | .convertBe => .cmd 0x00000005#32
  | .cSetup => .uop 0x01#5
  | .cProbe => .uop 0x02#5
  | .cHeadtest => .uop 0x03#5
  | .cBulktest => .uop 0x04#5
  | .cTailtest => .uop 0x05#5
  | .cFinish => .uop 0x06#5
  | .cIdle => .uop 0x07#5
  | .sLoad => .uop 0x08#5
  | .sDecode => .uop 0x09#5
  | .sWiden => .uop 0x0A#5
  | .sCvt => .uop 0x0B#5
  | .sMul => .uop 0x0C#5
  | .sStore => .uop 0x0D#5
  | .vLoad => .uop 0x10#5
  | .vBswap16 => .uop 0x11#5
  | .vHswap => .uop 0x12#5
  | .vUnpacklo => .uop 0x13#5
  | .vUnpackhi => .uop 0x14#5
  | .vPerm => .uop 0x15#5
  | .vCvt => .uop 0x16#5
  | .vMul => .uop 0x17#5
  | .vStoreA => .uop 0x18#5
  | .vStoreU => .uop 0x19#5

/-- The bytes of an encoding in ascending order of address. -/
def bytesOfWord : InstrWord → List Byte
  | .cmd c => [c.extractLsb' 0 8, c.extractLsb' 8 8, c.extractLsb' 16 8, c.extractLsb' 24 8]
  | .uop code => [code.setWidth 8]

/-- The encoding of an instruction as bytes. -/
def encodeBytes (i : Instr) : List Byte := bytesOfWord (encode i)

/-- The bytes of a word numbered as the opcode table numbers it: `nbits` bits of a micro-operation row fit one byte,
any wider row is a command's four bytes; bits above `nbits` are 0. -/
def tableBytes (nbits w : Nat) : List Byte :=
  let v := w % 2 ^ nbits
  if nbits ≤ 8 then [BitVec.ofNat 8 v]
  else [BitVec.ofNat 8 v, BitVec.ofNat 8 (v / 2 ^ 8), BitVec.ofNat 8 (v / 2 ^ 16), BitVec.ofNat 8 (v / 2 ^ 24)]

/-- The instruction the decoder reads from a row's bits. -/
def decodeTableWord (nbits w : Nat) : Option Instr :=
  match decodeBytes (tableBytes nbits w) with
  | .ok i => some i
  | .error _ => none

end Sys2Proof
end

