-- ==== Sys2Proof/Machine/Turns.lean ====
section
/-! DEFINITION. Machine/Turns.lean: who moves next, which instruction that runs, and what the other moves do. -/

namespace Sys2Proof.Machine

/-- The micro-operation the sequencer performs next (spec/10 R25, spec/42 R149); none when `ST` = `V8` and `BR` holds no
branch. -/
def issued (s : State) : Option Instr :=
  match s.st with
  | .idle => some .cIdle
  | .setup => some .cSetup
  | .probe => some .cProbe
  | .headtest => some .cHeadtest
  | .bulktest => some .cBulktest
  | .tailtest => some .cTailtest
  | .finish => some .cFinish
  | .s0 => some .sLoad
  | .s1 => some .sDecode
  | .s2 => some .sWiden
  | .s3 => some .sCvt
  | .s4 => some .sMul
  | .s5 => some .sStore
  | .v0 => some .vLoad
  | .v1 => some .vBswap16
  | .v2 => some .vHswap
  | .v3 => some .vUnpacklo
  | .v4 => some .vUnpackhi
  | .v5 => some .vPerm
  | .v6 => some .vCvt
  | .v7 => some .vMul
  | .v8 =>
    match s.br with
    | .one => some .vStoreA
    | .two => some .vStoreA
    | .three => some .vStoreU
    | .none => none

/-- What a turn comes to: an instruction to run on a state, or an outcome that needs no instruction. -/
inductive Fetched where
  | run (i : Instr) (s : State)
  | other (o : Host.Outcome State Fault Refusal)

/-- The sequencer's move: the micro-operation it issues, or, where no step is enabled, nothing, for the sequencer is stuck
and stays in its state (spec/00 R12). Log 8. -/
def sequencerTurn (s : State) : Fetched :=
  match issued s with
  | some i => .run i s
  | none => .other (.next s)

/-- A host write to `CTRL`: the command it encodes, or a reserved word (spec/30 R83 to R85). -/
def ctrlWrite (c : Word32) (s : State) : Fetched :=
  match decodeCmd c with
  | .ok i => .run i s
  | .error _ => .other (writeReserved c s)

/-- One turn of one agent, on the state in which the schedule has moved on. -/
def turn (tn : Turn) (s : State) : Fetched :=
  match tn with
  | .sequencer => sequencerTurn s
  | .writeCtrl c => ctrlWrite c s
  | .writeStatus _ => .other (.next s)
  | .writeArg a v => .other (.next (writeArg a v s))
  | .readReg r => .other (.next (readReg r s))
  | .agentWrite addr v =>
    .other (agentAccess .write addr.toNat s { s with mem := memPut s.mem addr.toNat v })
  | .agentRead addr =>
    .other (agentAccess .read addr.toNat s { s with rdata := (memGet s.mem addr.toNat).setWidth 64 })
  | .otherStart p => .other (otherStart p s)
  | .otherRead index addr => .other (otherAccess .read index addr.toNat s s)
  | .otherWrite index addr v =>
    .other (otherAccess .write index addr.toNat s { s with mem := memPut s.mem addr.toNat v })
  | .otherEnd index => .other (.next (otherEnd index s))
  | .port index => .other (.next (portPerform index s))
  | .rst landed => .other (.next (resetWith landed s))

/-- The next move: the head of the schedule; when the schedule is empty the sequencer has every move. Log 5. -/
def fetch (s : State) : Fetched :=
  match s.turns with
  | [] => sequencerTurn s
  | tn :: rest => turn tn { s with turns := rest }

/-- The sequencer state in which a micro-operation is issued (spec/10 R25); a command is issued in none. -/
def issueState : Instr → SeqState
  | .cSetup => .setup
  | .cProbe => .probe
  | .cHeadtest => .headtest
  | .cBulktest => .bulktest
  | .cTailtest => .tailtest
  | .cFinish => .finish
  | .sLoad => .s0
  | .sDecode => .s1
  | .sWiden => .s2
  | .sCvt => .s3
  | .sMul => .s4
  | .sStore => .s5
  | .vLoad => .v0
  | .vBswap16 => .v1
  | .vHswap => .v2
  | .vUnpacklo => .v3
  | .vUnpackhi => .v4
  | .vPerm => .v5
  | .vCvt => .v6
  | .vMul => .v7
  | .vStoreA => .v8
  | .vStoreU => .v8
  | .cIdle => .idle
  | .nop _ => .idle
  | .convertNative => .idle
  | .convertLe => .idle
  | .convertBe => .idle

/-- The dispatch branch under which `V8` issues a store form (spec/42 R149); for other instructions the branch stays. -/
def issueBranch (i : Instr) (br : Branch) : Branch :=
  match i with
  | .vStoreA => .one
  | .vStoreU => .three
  | _ => br

/-- The state in which the next move is the instruction with these bits. A command is the host's next write to `CTRL`,
after the host has written the argument registers with the values they hold (spec/70 R253(3)); a micro-operation is the
one `ST` (and `BR` in `V8`) names, at the sequencer's turn. Log 6. -/
def placeWord (s : State) (nbits w : Nat) : State :=
  if nbits ≤ 8 then
    match decodeTableWord nbits w with
    | some i => { s with turns := .sequencer :: s.turns, st := issueState i, br := issueBranch i s.br }
    | none => s
  else
    { s with turns := .writeCtrl (BitVec.ofNat 32 (w % 2 ^ nbits)) :: s.turns, marks := ⟨true, true, true, true⟩ }

/-! ### The host-side pseudo-instructions (spec/30 R90) -/

/-- The command word of a mode (spec/30 R81). -/
def commandWord (m : Mode) : Word32 := (0#29 ++ modeCode m) ++ 1#1

/-- The writes of `CALL.<m> in, out, n, s` up to its `CONVERT` (spec/30 R90). -/
def callTurns (m : Mode) (inBase outBase : Addr) (n : BitVec 64) (scale : F64) : List Turn :=
  [.writeArg .inBase inBase, .writeArg .outBase outBase, .writeArg .nsamps n, .writeArg .scale scale,
    .writeCtrl (commandWord m)]

/-- `WAIT` as a schedule (spec/30 R90): `polls` reads of `STATUS`, the sequencer moving once before each. -/
def waitTurns : Nat → List Turn
  | 0 => []
  | polls + 1 => .sequencer :: .readReg .status :: waitTurns polls

end Sys2Proof.Machine
end

