-- ==== Sys2Proof/Safety.lean ====
section
/-! DEFINITION. Safety.lean: the terms claims are made in: the real numbers that patterns stand for, what it is to be
admitted, and the two invariants of a run, one of control and one of data. -/

namespace Sys2Proof.Machine

/-! ### Numbers -/

/-- The real number of a finite binary32 pattern (spec/40 R100). -/
def f32Value (p : F32) : ℚ := (if f32Sign p then -1 else 1) * (f32Mant p : ℚ) * 2 ^ f32Exp p

/-- The real number of a finite binary64 pattern (spec/40 R100). -/
def f64Value (p : F64) : ℚ := (if f64Sign p then -1 else 1) * (f64Mant p : ℚ) * 2 ^ f64Exp p

/-- The magnitude from which `rne_f32` gives an infinity: (2 - 2^-24) × 2^127 (spec/40 R101). -/
def f32Limit : ℚ := (2 - 1 / 2 ^ 24) * 2 ^ 127

/-- `p` is `rne_f32(q)` (spec/40 R101), stated without saying how it is computed: the nearest of all finite values, the
one with an even fraction when two are equally near, an infinity from `f32Limit` on, and for 0 the zero whose sign the
calling rule states. -/
def IsRne (q : ℚ) (zeroNeg : Bool) (p : F32) : Prop :=
  if q = 0 then p = f32Pack zeroNeg 0
  else if f32Limit ≤ |q| then p = f32Pack (decide (q < 0)) f32InfMagnitude
  else
    f32Finite p = true ∧ f32Sign p = decide (q < 0) ∧
      ∀ r : F32, f32Finite r = true →
        |f32Value p - q| ≤ |f32Value r - q| ∧
          (|f32Value r - q| = |f32Value p - q| → f32Value r ≠ f32Value p → p[0] = false)

/-- A pattern that is no number (spec/40 R100). -/
def f32IsNaN (p : F32) : Bool := !f32Finite p && (p.extractLsb' 0 23 != 0#23)

/-! ### Admission -/

/-- The platform admits an access to the byte at `a`, and it is ordinary memory (spec/20 R50, R51). -/
def byteServed (p : Platform) (acc : Access) (a : Nat) : Prop :=
  (∃ r ∈ p.regions, regionGrants acc r = true ∧ regionHolds r a = true) ∧
    ∀ r ∈ p.regions, regionHolds r a = true → r.kind = .ordinary

/-- Conditions (a) to (f) of `ADMITTED`, byte by byte (spec/42 R142), and what (g) asks of the other converters that run:
no byte shared, be it of input buffers alone (spec/20 R68). -/
structure Admitted (s : State) : Prop where
  written : s.marks = ⟨true, true, true, true⟩
  scaleFinite : f64Finite s.scale = true
  constantFinite : f32Finite (scaleConstant s.scale) = true
  inputEnds : s.inBase.toNat + 4 * s.nsamps.toNat ≤ 2 ^ 64
  outputEnds : s.outBase.toNat + 8 * s.nsamps.toNat ≤ 2 ^ 64
  inputServed : ∀ a, inInput s a = true → byteServed s.platform .read a
  outputServed : ∀ a, inOutput s a = true → byteServed s.platform .write a
  disjoint : ∀ a, ¬(inInput s a = true ∧ inOutput s a = true)
  alone : ∀ p ∈ s.others, ∀ a, pairHolds p a = true → inInput s a = false ∧ inOutput s a = false

/-- An access that the port serves: within the address space, admitted, and to ordinary memory. -/
def served (p : Platform) (acc : Access) (a n : Nat) : Prop :=
  a + n ≤ 2 ^ 64 ∧ ∀ k, k < n → byteServed p acc (a + k)

/-! ### The invariant of control -/

/-- `C.SETUP` has been performed for the running command. -/
def afterSetup (st : SeqState) : Bool := st != .idle && st != .setup

/-- `C.PROBE` has been performed for the running command. -/
def afterProbe (st : SeqState) : Bool := afterSetup st && st != .probe

/-- The six states of a scalar sample (spec/42 R151). -/
def inSample : SeqState → Bool
  | .s0 | .s1 | .s2 | .s3 | .s4 | .s5 => true
  | _ => false

/-- The nine states of a bulk iteration (spec/42 R149). -/
def inBatch : SeqState → Bool
  | .v0 | .v1 | .v2 | .v3 | .v4 | .v5 | .v6 | .v7 | .v8 => true
  | _ => false

/-- What holds of control, registers and port in every state a run reaches. -/
structure Coherent (s : State) : Prop where
  /-- memory is in canonical form -/
  memory : memWf s.mem = true
  /-- `BUSY` and `DONE` are never both 1 (spec/10 R23) -/
  exclusive : ¬(s.status.busy = true ∧ s.status.done = true)
  /-- the sequencer is out of `IDLE` exactly while `BUSY` is 1 (spec/42 R140, R141, R152) -/
  running : s.status.busy = true ↔ s.st ≠ .idle
  /-- a running command is an admitted one (spec/42 R142) -/
  admitted : s.status.busy = true → Admitted s
  /-- the constants of the command, and `I` within bounds (spec/42 R144, spec/10 R26, R28) -/
  constants : afterSetup s.st = true →
    s.k = scaleConstant s.scale ∧ (∀ j, j < 8 → vslot s.vk j = s.k) ∧ s.vz = 0 ∧ s.i.toNat ≤ s.nsamps.toNat
  /-- the branch is that of `OUT_BASE` (spec/42 R145) -/
  probed : afterProbe s.st = true → s.br = probeBranch s.outBase
  /-- `I` is 0 up to the head test (spec/42 R147) -/
  headIndex : s.st = .probe ∨ s.st = .headtest → s.i = 0
  /-- a scalar sample exists, and a head sample is sample 0 of branch 2 (spec/42 R147, R150) -/
  sample : inSample s.st = true → s.i.toNat < s.nsamps.toNat ∧ (s.ret = .head → s.i = 0 ∧ s.br = .two)
  /-- a bulk iteration has a whole batch (spec/42 R148, spec/43 R181) -/
  wholeBatch : inBatch s.st = true → s.i.toNat + 7 < s.nsamps.toNat
  /-- where the bulk loop stands (spec/42 R154, R155) -/
  bulkIndex : s.st = .bulktest ∨ inBatch s.st = true →
    (s.br = .one → s.i.toNat % 8 = 0) ∧ (s.br = .two → s.i.toNat % 8 = 1 ∨ s.nsamps.toNat = 0)
  /-- a tail is shorter than a batch (spec/42 R150) -/
  shortTail : s.st = .tailtest ∨ (inSample s.st = true ∧ s.ret = .tail) → s.nsamps.toNat < s.i.toNat + 8
  /-- every sample is done at the end (spec/42 R154) -/
  finished : s.st = .finish → s.i = s.nsamps
  /-- only a port that buffers holds stores back (spec/20 R62) -/
  port : s.platform.buffersStores = false → s.inFlight = []
  /-- nothing is in flight outside a command (spec/20 R62) -/
  drained : afterSetup s.st = false → s.inFlight = []
  /-- bytes in flight are output of samples below `I` (spec/10 R36) -/
  inFlightOutput : ∀ c ∈ s.inFlight,
    s.outBase.toNat ≤ c.1 ∧ c.1 < s.outBase.toNat + 8 * s.i.toNat
  /-- no byte is written twice (spec/20 R57) -/
  writtenOnce : (s.inFlight.map Prod.fst).Nodup
  /-- the other converters that run share no byte with one another (spec/20 R68) -/
  apart : s.others.Pairwise fun p q => ∀ a, ¬(pairHolds p a = true ∧ pairHolds q a = true)

/-! ### The invariant of data -/

/-- The input word of sample `j` (spec/00 R14). -/
def inputWord (s : State) (j : Nat) : Word32 := memRead4 s.mem (s.inBase.toNat + 4 * j)

/-- Sample `j` of the output holds what its input word converts to, once the stores in flight are performed
(spec/42 R156). -/
def Converted (s : State) (j : Nat) : Prop :=
  memRead4 (settled s) (s.outBase.toNat + 8 * j) = (conv s.m (inputWord s j) s.k).1 ∧
    memRead4 (settled s) (s.outBase.toNat + 8 * j + 4) = (conv s.m (inputWord s j) s.k).2

/-- What the scalar registers hold between the micro-operations of a sample (spec/44 R201 to R205). -/
def ScalarHolds (s : State) : Prop :=
  let x := inputWord s s.i.toNat
  match s.st with
  | .s1 => s.w = x
  | .s2 => s.rr = decodeReal s.m x ∧ s.ri = decodeImag s.m x
  | .s3 => s.xr = widen (decodeReal s.m x) ∧ s.xi = widen (decodeImag s.m x)
  | .s4 => s.fr = i2f (widen (decodeReal s.m x)) ∧ s.fi = i2f (widen (decodeImag s.m x))
  | .s5 => s.fr = (conv s.m x s.k).1 ∧ s.fi = (conv s.m x s.k).2
  | _ => True

/-- Two registers hold, in sample order, a real and an imaginary slot for each of the eight samples of a batch
(spec/43 R176). -/
def BatchPairs (a b : VReg) (re im : Nat → Word32) : Prop :=
  ∀ t, t < 4 → vslot a (2 * t) = re t ∧ vslot a (2 * t + 1) = im t ∧
    vslot b (2 * t) = re (4 + t) ∧ vslot b (2 * t + 1) = im (4 + t)

/-- What the vector registers hold between the micro-operations of an iteration (spec/43 R171 to R178). -/
def VectorHolds (s : State) : Prop :=
  let x := fun j => inputWord s (s.i.toNat + j)
  let re := fun j => decodeReal s.m (x j)
  let im := fun j => decodeImag s.m (x j)
  let canonical := ∀ j, j < 8 → vslot s.vin j = canon s.m (x j)
  match s.st with
  | .v1 => ∀ j, j < 8 → vslot s.vin j = x j
  | .v2 => ∀ j, j < 8 → vslot s.vin j = if bswapTable s.m then bswap16w (x j) else x j
  | .v3 => canonical
  | .v4 => canonical ∧ s.vlo = unpackLo s.vin
  | .v5 => s.vlo = unpackLo s.vin ∧ s.vhi = unpackHi s.vin ∧ canonical
  | .v6 => BatchPairs s.va s.vb (fun j => widen (re j)) (fun j => widen (im j))
  | .v7 => BatchPairs s.vfa s.vfb (fun j => i2f (widen (re j))) (fun j => i2f (widen (im j)))
  | .v8 => BatchPairs s.vfa s.vfb (fun j => (conv s.m (x j) s.k).1) (fun j => (conv s.m (x j) s.k).2)
  | _ => True

/-- What a running command has done so far: every sample below `I` is converted and stored (spec/10 R26), and the
datapath holds the work in hand. -/
structure Progress (s : State) : Prop where
  below : afterSetup s.st = true → ∀ j, j < s.i.toNat → Converted s j
  scalar : ScalarHolds s
  vector : VectorHolds s

/-! ### The counts of a command (spec/42 R154, R157) -/

/-- `h`: head samples. -/
def headCount (outBase : Addr) (n : Nat) : Nat :=
  if probeBranch outBase = .two ∧ 1 ≤ n then 1 else 0

/-- `b`: bulk iterations. -/
def bulkCount (outBase : Addr) (n : Nat) : Nat := (n - headCount outBase n) / 8

/-- `t`: tail samples. -/
def tailCount (outBase : Addr) (n : Nat) : Nat := n - headCount outBase n - 8 * bulkCount outBase n

/-- The micro-operation steps of an admitted command. -/
def commandSteps (outBase : Addr) (n : Nat) : Nat :=
  4 + 6 * (headCount outBase n + tailCount outBase n) + 9 * bulkCount outBase n + (bulkCount outBase n + 1) +
    (tailCount outBase n + 1)

/-! ### The accesses of a command (spec/42 R154, spec/20 R63, R67) -/

/-- An access without the value it moves. -/
inductive Shape where
  | read (a n : Nat)
  | write (a n : Nat) (form : Form)
  deriving DecidableEq, Repr

/-- The shape of an event. -/
def eventShape : Event → Shape
  | .read a n => .read a n
  | .write a n _ form => .write a n form

/-- The accesses of scalar sample `j`. -/
def sampleShapes (s : State) (j : Nat) : List Shape :=
  [.read (s.inBase.toNat + 4 * j) 4, .write (s.outBase.toNat + 8 * j) 8 .unaligned]

/-- The accesses of the bulk iteration that begins at sample `j`. -/
def batchShapes (s : State) (j : Nat) : List Shape :=
  let form := if probeBranch s.outBase = .three then Form.unaligned else .aligned
  [.read (s.inBase.toNat + 4 * j) 32, .write (s.outBase.toNat + 8 * j) 32 form,
    .write (s.outBase.toNat + 8 * j + 32) 32 form]

/-- The accesses of a whole command: head, bulk ascending, tail ascending. -/
def commandShapes (s : State) : List Shape :=
  let n := s.nsamps.toNat
  let h := headCount s.outBase n
  let b := bulkCount s.outBase n
  (List.range h).flatMap (sampleShapes s) ++ (List.range b).flatMap (fun k => batchShapes s (h + 8 * k)) ++
    (List.range (tailCount s.outBase n)).flatMap fun k => sampleShapes s (h + 8 * b + k)

/-! ### Runs -/

/-- `n` steps, stopping at a fault or a refusal. -/
def runSteps : Nat → State → Host.Outcome State Fault Refusal
  | 0, s => .next s
  | n + 1, s =>
    match step s with
    | .next t => runSteps n t
    | .fault r => .fault r
    | .refused r => .refused r

/-- The next move is the sequencer's. -/
def sequencerMoves (s : State) : Prop := s.turns = [] ∨ ∃ rest, s.turns = .sequencer :: rest

/-- The four bytes of a word in the opposite order, `bswap32` (spec/41 R121). -/
def bswap32 (w : Word32) : Word32 := byteOf w 0 ++ byteOf w 1 ++ byteOf w 2 ++ byteOf w 3

/-- What R156 of spec/42 gives the output byte at `a`. -/
def outputByte (s : State) (a : Nat) : Byte :=
  let j := (a - s.outBase.toNat) / 8
  let c := conv s.m (inputWord s j) s.k
  byteOf (samplePair c.1 c.2) ((a - s.outBase.toNat) % 8)

end Sys2Proof.Machine
end

