-- ==== Sys2Proof/Certificates/Slice0/Obligations.lean ====
section
/-! DEFINITION. Certificates/Slice0/Obligations.lean: the statements made of this model, each with the rule of spec/ it
formalises. -/

open Sys2Proof Sys2Proof.Machine

/-! ### Encoding -/

/-- spec/30 R83, R84, R86: words written out from the tables decode to what they stand for, or are refused by name. (That
a command is four bytes, least significant first, and a code one byte, and that a byte above 0x1F is refused, is the
model's choice, notes/assumptions 18.) -/
def Obligations.SpecWordsDecode : Prop :=
  decodeBytes [0x01#8, 0x00#8, 0x00#8, 0x00#8] = .ok .convertNative ∧
  decodeBytes [0x03#8, 0x00#8, 0x00#8, 0x00#8] = .ok .convertLe ∧
  decodeBytes [0x05#8, 0x00#8, 0x00#8, 0x00#8] = .ok .convertBe ∧
  decodeBytes [0xFE#8, 0xFF#8, 0xFF#8, 0xFF#8] = .ok (.nop 0xFFFFFFFE#32) ∧
  decodeBytes [0x01#8] = .ok .cSetup ∧ decodeBytes [0x0D#8] = .ok .sStore ∧ decodeBytes [0x18#8] = .ok .vStoreA ∧
  decodeBytes [0x07#8, 0x00#8, 0x00#8, 0x00#8] = .error .reservedMode ∧
  decodeBytes [0x09#8, 0x00#8, 0x00#8, 0x00#8] = .error .reservedBits ∧
  decodeBytes [0x01#8, 0x00#8, 0x00#8, 0x80#8] = .error .reservedBits ∧
  decodeBytes [0x00#8] = .error .unusedCode ∧ decodeBytes [0x0E#8] = .error .unusedCode ∧
  decodeBytes [0x1A#8] = .error .unusedCode ∧ decodeBytes [0x21#8] = .error .wideCode

/-- spec/30 R83: only bit 0 is looked at first, then the three exact values; everything else is reserved. -/
def Obligations.CommandMapIsTheTable : Prop :=
  ∀ word : Word32,
    (word[0] = false → decodeCmd word = .ok (.nop word)) ∧
    (word = 0x00000001#32 → decodeCmd word = .ok .convertNative) ∧
    (word = 0x00000003#32 → decodeCmd word = .ok .convertLe) ∧
    (word = 0x00000005#32 → decodeCmd word = .ok .convertBe) ∧
    (word[0] = true → word ≠ 0x00000001#32 → word ≠ 0x00000003#32 → word ≠ 0x00000005#32 →
      ∃ e, decodeCmd word = .error e)

/-- spec/30 R83, R86: decoding the bytes of a well-formed instruction gives it back, for every instruction. (The bytes are
the model's choice, notes/assumptions 18, and that a `NOP` keeps its word is notes/assumptions 26.) -/
def Obligations.EncodeThenDecodeGivesBack : Prop :=
  ∀ i : Instr, i.wf = true → decodeBytes (encodeBytes i) = .ok i

/-- spec/30 R83, R86: bytes that decode are the encoding of what they decode to, which is well formed, so no two
sequences of bytes decode to one `Instr`; the many words of `NOP`, whose meaning is one, decode to as many. (The bytes are
the model's choice, notes/assumptions 18, and that a `NOP` keeps its word is notes/assumptions 26.) -/
def Obligations.DecodeThenEncodeGivesBack : Prop :=
  ∀ (bs : List Byte) (i : Instr), decodeBytes bs = .ok i → encodeBytes i = bs ∧ i.wf = true

/-! ### The step -/

/-- spec/10 R25, spec/42 R149: the micro-operation each sequencer state names. -/
def Obligations.SequencerIssuesByState : Prop :=
  ∀ s : State,
    (s.st = .idle → issued s = some .cIdle) ∧ (s.st = .setup → issued s = some .cSetup) ∧
    (s.st = .probe → issued s = some .cProbe) ∧ (s.st = .headtest → issued s = some .cHeadtest) ∧
    (s.st = .bulktest → issued s = some .cBulktest) ∧ (s.st = .tailtest → issued s = some .cTailtest) ∧
    (s.st = .finish → issued s = some .cFinish) ∧
    (s.st = .s0 → issued s = some .sLoad) ∧ (s.st = .s1 → issued s = some .sDecode) ∧
    (s.st = .s2 → issued s = some .sWiden) ∧ (s.st = .s3 → issued s = some .sCvt) ∧
    (s.st = .s4 → issued s = some .sMul) ∧ (s.st = .s5 → issued s = some .sStore) ∧
    (s.st = .v0 → issued s = some .vLoad) ∧ (s.st = .v1 → issued s = some .vBswap16) ∧
    (s.st = .v2 → issued s = some .vHswap) ∧ (s.st = .v3 → issued s = some .vUnpacklo) ∧
    (s.st = .v4 → issued s = some .vUnpackhi) ∧ (s.st = .v5 → issued s = some .vPerm) ∧
    (s.st = .v6 → issued s = some .vCvt) ∧ (s.st = .v7 → issued s = some .vMul) ∧
    (s.st = .v8 → s.br = .one ∨ s.br = .two → issued s = some .vStoreA) ∧
    (s.st = .v8 → s.br = .three → issued s = some .vStoreU) ∧
    (s.st = .v8 → s.br = .none → issued s = none)

/-- spec/60 R231, spec/00 R12: at the sequencer's move, one step is the issued micro-operation, on the state in which the
schedule has moved on; where none is issued the sequencer is stuck, and the step changes nothing but the schedule. (The
schedule is the model's, notes/assumptions 5; that a stuck sequencer leaves the state as it is is deduced,
notes/assumptions 8.) -/
def Obligations.StepRunsIssuedMicroOperation : Prop :=
  ∀ s : State, sequencerMoves s →
    (∀ i, issued s = some i → step s = exec i { s with turns := s.turns.tail }) ∧
    (issued s = none → step s = .next { s with turns := s.turns.tail })

/-- spec/30 R81, R83: at a host write of a command word, one step is that command, on the state in which the schedule has
moved on. (The schedule is the model's, notes/assumptions 5.) -/
def Obligations.StepRunsWrittenCommand : Prop :=
  ∀ (s : State) (c : Word32) (rest : List Turn) (i : Instr), s.turns = .writeCtrl c :: rest → decodeCmd c = .ok i →
    step s = exec i { s with turns := rest }

/-! ### Commands -/

/-- spec/42 R143: a `NOP` changes no state, idle or busy, as an instruction and as a write of any word with bit 0
clear. -/
def Obligations.NopChangesNothing : Prop :=
  (∀ (word : Word32) (s : State), exec (.nop word) s = .next s) ∧
  ∀ (s : State) (word : Word32) (rest : List Turn), word[0] = false → s.turns = .writeCtrl word :: rest →
    step s = .next { s with turns := rest }

/-- spec/42 R141: a `CONVERT` is ignored while busy, refused when not admitted, and else accepted: exactly `M`, `STATUS`
and `ST` are written. (That it is refused at once for a byte shared with another converter that runs, the field `alone`
of `Admitted`, is the model's choice, notes/assumptions 10; how other converters appear is notes/assumptions 22.) -/
def Obligations.CommandIsAcceptedWhenAdmitted : Prop :=
  ∀ s : State,
    (s.status.busy = true →
      exec .convertNative s = .next s ∧ exec .convertLe s = .next s ∧ exec .convertBe s = .next s) ∧
    (s.status.busy = false → ¬Admitted s →
      (∃ r, exec .convertNative s = .refused r) ∧ (∃ r, exec .convertLe s = .refused r) ∧
        ∃ r, exec .convertBe s = .refused r) ∧
    (s.status.busy = false → Admitted s →
      exec .convertNative s = .next { s with m := .nativeWire, status := ⟨true, false⟩, st := .setup } ∧
      exec .convertLe s = .next { s with m := .littleEndianWire, status := ⟨true, false⟩, st := .setup } ∧
      exec .convertBe s = .next { s with m := .bigEndianWire, status := ⟨true, false⟩, st := .setup })

/-- spec/42 R142 (a) to (g), spec/20 R68: the reason a command is refused with names the first condition that is false,
(g) as far as it is known then: whether another converter that runs shares a byte. (That it is the first one is the
model's choice, notes/assumptions 9; how other converters appear is notes/assumptions 22.) -/
def Obligations.RefusalNamesFirstBrokenCondition : Prop :=
  ∀ (s : State) (i : Instr) (r : Refusal), i = .convertNative ∨ i = .convertLe ∨ i = .convertBe →
    exec i s = .refused r →
    let a := s.marks = ⟨true, true, true, true⟩
    let b := f64Finite s.scale = true
    let c := f32Finite (scaleConstant s.scale) = true
    let d := s.inBase.toNat + 4 * s.nsamps.toNat ≤ 2 ^ 64 ∧ s.outBase.toNat + 8 * s.nsamps.toNat ≤ 2 ^ 64
    let e := (∀ x, inInput s x = true → byteServed s.platform .read x) ∧
      ∀ x, inOutput s x = true → byteServed s.platform .write x
    let f := ∀ x, ¬(inInput s x = true ∧ inOutput s x = true)
    let g := ∀ p ∈ s.others, ∀ x, ¬((inInput s x = true ∨ inOutput s x = true) ∧ pairHolds p x = true)
    (r = .unwrittenArgument ∧ ¬a) ∨ (r = .scaleNotFinite ∧ a ∧ ¬b) ∨ (r = .scaleOverflowsF32 ∧ a ∧ b ∧ ¬c) ∨
      (r = .bufferWraps ∧ a ∧ b ∧ c ∧ ¬d) ∨ (r = .bufferNotAdmitted ∧ a ∧ b ∧ c ∧ d ∧ ¬e) ∨
      (r = .buffersOverlap ∧ a ∧ b ∧ c ∧ d ∧ e ∧ ¬f) ∨ (r = .concurrentAccess ∧ a ∧ b ∧ c ∧ d ∧ e ∧ f ∧ ¬g)

/-- spec/30 R85: a write to `CTRL` while busy is ignored whatever its value, reserved words included. -/
def Obligations.BusyIgnoresEveryCtrlWrite : Prop :=
  ∀ (s : State) (c : Word32) (rest : List Turn), s.status.busy = true → s.turns = .writeCtrl c :: rest →
    step s = .next { s with turns := rest }

/-- spec/30 R84: while idle, a command with `START` = 1 and `MODE` = 3 or a reserved bit set is refused. -/
def Obligations.ReservedCommandIsRefused : Prop :=
  ∀ (s : State) (word : Word32) (rest : List Turn), s.status.busy = false → s.turns = .writeCtrl word :: rest →
    word[0] = true → word.extractLsb' 1 2 = 3#2 ∨ word.extractLsb' 3 29 ≠ 0#29 →
    step s = .refused (.reservedCommand word)

/-! ### Control micro-operations -/

/-- spec/42 R140: `C.IDLE` changes nothing. -/
def Obligations.IdleChangesNothing : Prop :=
  ∀ s : State, exec .cIdle s = .next s

/-- spec/42 R144, spec/40 R102: `C.SETUP` writes `I`, `K`, `VK`, `VZ` and nothing else but `ST`; `K` is the exact quotient
by 65536 rounded once, a zero keeping its sign. -/
def Obligations.SetupWritesRoundedQuotient : Prop :=
  ∀ s : State, ∃ t, exec .cSetup s = .next t ∧
    (f64Finite s.scale = true → IsRne (f64Value s.scale / 65536) (f64Sign s.scale) t.k) ∧
    (∀ j, j < 8 → vslot t.vk j = t.k) ∧
    t = { s with i := 0, k := t.k, vk := t.vk, vz := 0, st := .probe }

/-- spec/42 R145: `C.PROBE` chooses the branch from the low four bits of `OUT_BASE`. -/
def Obligations.ProbeReadsLowFourBits : Prop :=
  ∀ s : State, ∃ br, exec .cProbe s = .next { s with br := br, st := .headtest } ∧
    (s.outBase.extractLsb' 0 4 = 0#4 → br = .one) ∧
    (s.outBase.extractLsb' 0 4 = 8#4 → br = .two) ∧
    (s.outBase.extractLsb' 0 4 ≠ 0#4 → s.outBase.extractLsb' 0 4 ≠ 8#4 → br = .three)

/-- spec/42 R147: `C.HEADTEST` starts a head sample in branch 2 if there is one. -/
def Obligations.HeadTestStartsHeadSample : Prop :=
  ∀ s : State,
    (s.br = .two ∧ s.i < s.nsamps → exec .cHeadtest s = .next { s with ret := .head, st := .s0 }) ∧
    (¬(s.br = .two ∧ s.i < s.nsamps) → exec .cHeadtest s = .next { s with st := .bulktest })

/-- spec/42 R148: `C.BULKTEST` starts an iteration exactly when eight samples are left, the sum taken without wrap. -/
def Obligations.BulkTestNeedsWholeBatch : Prop :=
  ∀ s : State,
    (s.i.toNat + 7 < s.nsamps.toNat → exec .cBulktest s = .next { s with st := .v0 }) ∧
    (¬s.i.toNat + 7 < s.nsamps.toNat → exec .cBulktest s = .next { s with st := .tailtest })

/-- spec/42 R150: `C.TAILTEST` starts a tail sample while one is left. -/
def Obligations.TailTestStartsTailSample : Prop :=
  ∀ s : State,
    (s.i < s.nsamps → exec .cTailtest s = .next { s with ret := .tail, st := .s0 }) ∧
    (¬s.i < s.nsamps → exec .cTailtest s = .next { s with st := .finish })

/-- spec/42 R152, spec/20 R62: after `C.FINISH` every byte in flight is in memory, `STATUS` reads 2 and the sequencer is
idle; every byte that was not in flight is as it was, and every other register. (That the wait is over within this one
step is the model's choice, notes/assumptions 16.) -/
def Obligations.FinishPerformsStoresThenDone : Prop :=
  ∀ s : State, ∃ t, exec .cFinish s = .next t ∧ statusWord t.status = 2#32 ∧ t.st = .idle ∧ t.inFlight = [] ∧
    (memWf s.mem = true → (s.inFlight.map Prod.fst).Nodup → ∀ c ∈ s.inFlight, memGet t.mem c.1 = c.2) ∧
    (∀ a, a ∉ s.inFlight.map Prod.fst → memGet t.mem a = memGet s.mem a) ∧
    t = { s with mem := t.mem, inFlight := [], status := t.status, st := .idle }

/-! ### Scalar micro-operations -/

/-- spec/44 R201, spec/20 R52: `S.LOAD` reads the four bytes at `IN_BASE + 4×I`, least significant first. -/
def Obligations.ScalarLoadReadsFourBytes : Prop :=
  ∀ s : State, let a := s.inBase.toNat + 4 * s.i.toNat
    served s.platform .read a 4 →
    ∃ t, exec .sLoad s = .next t ∧ (∀ k, k < 4 → byteOf t.w k = memGet s.mem (a + k)) ∧
      t = { s with w := t.w, st := .s1, history := s.history ++ [.read a 4] }

/-- spec/44 R202, spec/41 R124: `S.DECODE` in terms of the four bytes of the word, mode by mode. -/
def Obligations.ScalarDecodeByBytes : Prop :=
  ∀ s : State, ∃ t, exec .sDecode s = .next t ∧ t = { s with rr := t.rr, ri := t.ri, st := .s2 } ∧
    (s.m = .nativeWire →
      t.rr = byteOf s.w 1 ++ byteOf s.w 0 ∧ t.ri = byteOf s.w 3 ++ byteOf s.w 2) ∧
    (s.m = .littleEndianWire →
      t.rr = byteOf s.w 3 ++ byteOf s.w 2 ∧ t.ri = byteOf s.w 1 ++ byteOf s.w 0) ∧
    (s.m = .bigEndianWire →
      t.rr = byteOf s.w 0 ++ byteOf s.w 1 ∧ t.ri = byteOf s.w 2 ++ byteOf s.w 3)

/-- spec/44 R203, spec/40 R104: `S.WIDEN` keeps the signed number of each lane. -/
def Obligations.ScalarWidenKeepsNumber : Prop :=
  ∀ s : State, ∃ t, exec .sWiden s = .next t ∧ t.xr.toInt = s.rr.toInt ∧ t.xi.toInt = s.ri.toInt ∧
    t = { s with xr := t.xr, xi := t.xi, st := .s3 }

/-- spec/44 R204, spec/40 R105: `S.CVT` is exact wherever some binary32 value equals the integer, and 0 becomes +0. -/
def Obligations.ScalarConvertIsExact : Prop :=
  ∀ s : State, ∃ t, exec .sCvt s = .next t ∧
    (∀ r, f32Finite r = true → f32Value r = s.xr.toInt → f32Finite t.fr = true ∧ f32Value t.fr = s.xr.toInt) ∧
    (∀ r, f32Finite r = true → f32Value r = s.xi.toInt → f32Finite t.fi = true ∧ f32Value t.fi = s.xi.toInt) ∧
    (s.xr = 0 → t.fr = 0) ∧ (s.xi = 0 → t.fi = 0) ∧
    t = { s with fr := t.fr, fi := t.fi, st := .s4 }

/-- spec/44 R205, spec/40 R106: `S.MUL` rounds each exact product once; a zero product has the exclusive-or of the
signs. -/
def Obligations.ScalarMulRoundsOnce : Prop :=
  ∀ s : State, ∃ t, exec .sMul s = .next t ∧
    (f32Finite s.fr = true → f32Finite s.k = true →
      IsRne (f32Value s.fr * f32Value s.k) (f32Sign s.fr ^^ f32Sign s.k) t.fr) ∧
    (f32Finite s.fi = true → f32Finite s.k = true →
      IsRne (f32Value s.fi * f32Value s.k) (f32Sign s.fi ^^ f32Sign s.k) t.fi) ∧
    t = { s with fr := t.fr, fi := t.fi, st := .s5 }

/-- spec/44 R206, spec/20 R56, R67: `S.STORE` stores the real part at `OUT_BASE + 8×I` and the imaginary part four bytes
above, adds 1 to `I` and returns where `RET` says; every byte outside those eight is as before. The premises on memory
and port are clauses of `Coherent`. -/
def Obligations.ScalarStoreWritesEightBytes : Prop :=
  ∀ s : State, let a := s.outBase.toNat + 8 * s.i.toNat
    served s.platform .write a 8 → memWf s.mem = true →
    (s.platform.buffersStores = false → s.inFlight = []) →
    ∃ t, exec .sStore s = .next t ∧
      (∀ k, k < 4 → memGet (settled t) (a + k) = byteOf s.fr k ∧ memGet (settled t) (a + 4 + k) = byteOf s.fi k) ∧
      (∀ x, x < a ∨ a + 8 ≤ x →
        memGet (settled t) x = memGet (settled s) x ∧ memGet t.mem x = memGet s.mem x) ∧
      (s.platform.buffersStores = false → t.inFlight = []) ∧
      t = { s with
        mem := t.mem
        inFlight := t.inFlight
        i := s.i + 1
        st := if s.ret = .head then .bulktest else .tailtest
        history := s.history ++ [.write a 8 (s.fi ++ s.fr).toNat .unaligned] }

/-! ### Vector micro-operations -/

/-- spec/43 R171, spec/20 R55: slot `j` after `V.LOAD` is the little-endian word of sample `I + j`. -/
def Obligations.VectorLoadReadsEightWords : Prop :=
  ∀ s : State, let a := s.inBase.toNat + 4 * s.i.toNat
    served s.platform .read a 32 →
    ∃ t, exec .vLoad s = .next t ∧
      (∀ j, j < 8 → ∀ k, k < 4 →
        byteOf (vslot t.vin j) k = memGet s.mem (s.inBase.toNat + 4 * (s.i.toNat + j) + k)) ∧
      t = { s with vin := t.vin, st := .v1, history := s.history ++ [.read a 32] }

/-- spec/43 R172: `V.BSWAP16` exchanges the bytes of all 16 lanes in `BigEndianWire` and changes nothing in the other
modes. -/
def Obligations.VectorByteSwapOnlyBigEndian : Prop :=
  ∀ s : State, ∃ t, exec .vBswap16 s = .next t ∧ t = { s with vin := t.vin, st := .v2 } ∧
    (s.m = .bigEndianWire → ∀ l, l < 16 →
      vlane t.vin l = (vlane s.vin l).extractLsb' 0 8 ++ (vlane s.vin l).extractLsb' 8 8) ∧
    (s.m ≠ .bigEndianWire → t.vin = s.vin)

/-- spec/43 R173: `V.HSWAP` exchanges lanes `2j` and `2j + 1` in `LittleEndianWire` and changes nothing in the other
modes; after it and the byte swap before it, lane `2j` is the real lane of word `j` and lane `2j + 1` the imaginary. -/
def Obligations.VectorHalfSwapOnlyLittleEndian : Prop :=
  ∀ s : State, ∃ t, exec .vHswap s = .next t ∧ t = { s with vin := t.vin, st := .v3 } ∧
    (s.m = .littleEndianWire → ∀ j, j < 8 →
      vlane t.vin (2 * j) = vlane s.vin (2 * j + 1) ∧ vlane t.vin (2 * j + 1) = vlane s.vin (2 * j)) ∧
    (s.m ≠ .littleEndianWire → t.vin = s.vin) ∧
    ∃ u v, exec .vBswap16 s = .next u ∧ exec .vHswap u = .next v ∧ ∀ j, j < 8 →
      vlane v.vin (2 * j) = decodeReal s.m (vslot s.vin j) ∧ vlane v.vin (2 * j + 1) = decodeImag s.m (vslot s.vin j)

/-- spec/43 R174, R175: the unpacks widen, as signed numbers, the low and the high four lanes of each half of `VIN`. -/
def Obligations.UnpacksWidenLanesOfEachHalf : Prop :=
  ∀ s : State,
    (∃ t, exec .vUnpacklo s = .next t ∧ t = { s with vlo := t.vlo, st := .v4 } ∧
      ∀ q, q < 2 → ∀ p, p < 4 → (vslot t.vlo (4 * q + p)).toInt = (vlane s.vin (8 * q + p)).toInt) ∧
    (∃ t, exec .vUnpackhi s = .next t ∧ t = { s with vhi := t.vhi, st := .v5 } ∧
      ∀ q, q < 2 → ∀ p, p < 4 → (vslot t.vhi (4 * q + p)).toInt = (vlane s.vin (8 * q + 4 + p)).toInt)

/-- spec/43 R176: `V.PERM` puts the low halves of `VLO` and `VHI` in `VA` and the high halves in `VB`; so after both
unpacks and the permute, slot `k` of `VA` is lane `k` of `VIN` as a number, and slot `k` of `VB` is lane `8 + k`: samples
in ascending order. -/
def Obligations.PermuteRecombinesHalves : Prop :=
  ∀ s : State,
    (∃ t, exec .vPerm s = .next t ∧ t = { s with va := t.va, vb := t.vb, st := .v6 } ∧
      ∀ j, j < 4 →
        vslot t.va j = vslot s.vlo j ∧ vslot t.va (4 + j) = vslot s.vhi j ∧
        vslot t.vb j = vslot s.vlo (4 + j) ∧ vslot t.vb (4 + j) = vslot s.vhi (4 + j)) ∧
    ∃ t u v, exec .vUnpacklo s = .next t ∧ exec .vUnpackhi t = .next u ∧ exec .vPerm u = .next v ∧
      ∀ k, k < 8 →
        (vslot v.va k).toInt = (vlane s.vin k).toInt ∧ (vslot v.vb k).toInt = (vlane s.vin (8 + k)).toInt

/-- spec/43 R177, spec/40 R105: `V.CVT` is exact in every slot whose integer some binary32 value equals, whatever the
other slots hold, and a slot that holds 0 becomes +0. -/
def Obligations.VectorConvertIsExact : Prop :=
  ∀ s : State, ∃ t, exec .vCvt s = .next t ∧ t = { s with vfa := t.vfa, vfb := t.vfb, st := .v7 } ∧
    ∀ k, k < 8 →
      (∀ r, f32Finite r = true → f32Value r = (vslot s.va k).toInt →
        f32Finite (vslot t.vfa k) = true ∧ f32Value (vslot t.vfa k) = (vslot s.va k).toInt) ∧
      (∀ r, f32Finite r = true → f32Value r = (vslot s.vb k).toInt →
        f32Finite (vslot t.vfb k) = true ∧ f32Value (vslot t.vfb k) = (vslot s.vb k).toInt) ∧
      (vslot s.va k = 0 → vslot t.vfa k = 0) ∧ (vslot s.vb k = 0 → vslot t.vfb k = 0)

/-- spec/43 R178, spec/40 R106: `V.MUL` rounds each of the 16 exact products once, by itself. -/
def Obligations.VectorMulRoundsEachSlot : Prop :=
  ∀ s : State, ∃ t, exec .vMul s = .next t ∧ t = { s with vfa := t.vfa, vfb := t.vfb, st := .v8 } ∧
    ∀ k, k < 8 → f32Finite (vslot s.vk k) = true →
      (f32Finite (vslot s.vfa k) = true →
        IsRne (f32Value (vslot s.vfa k) * f32Value (vslot s.vk k))
          (f32Sign (vslot s.vfa k) ^^ f32Sign (vslot s.vk k)) (vslot t.vfa k)) ∧
      (f32Finite (vslot s.vfb k) = true →
        IsRne (f32Value (vslot s.vfb k) * f32Value (vslot s.vk k))
          (f32Sign (vslot s.vfb k) ^^ f32Sign (vslot s.vk k)) (vslot t.vfb k))

/-- spec/43 R179, R180, spec/20 R56: both vector stores put slot `k` of `VFA` at `OUT_BASE + 8×I + 4k` and slot `k` of
`VFB` 32 bytes above, add 8 to `I` and go back to the loop test; every byte outside those 64 is as before. They differ
in the form of their events, and `BR` says which of them `V8` issues. The premises on memory and port are clauses of
`Coherent`. -/
def Obligations.VectorStoresWriteSixtyFourBytes : Prop :=
  ∀ (s : State) (i : Instr) (form : Form), (i = .vStoreA ∧ form = .aligned) ∨ (i = .vStoreU ∧ form = .unaligned) →
    let a := s.outBase.toNat + 8 * s.i.toNat
    (s.st = .v8 → (issued s = some .vStoreA ↔ s.br = .one ∨ s.br = .two) ∧ (issued s = some .vStoreU ↔ s.br = .three)) ∧
    (served s.platform .write a 64 → memWf s.mem = true →
      (s.platform.buffersStores = false → s.inFlight = []) →
      ∃ t, exec i s = .next t ∧
        (∀ j, j < 8 → ∀ k, k < 4 →
          memGet (settled t) (a + 4 * j + k) = byteOf (vslot s.vfa j) k ∧
          memGet (settled t) (a + 32 + 4 * j + k) = byteOf (vslot s.vfb j) k) ∧
        (∀ x, x < a ∨ a + 64 ≤ x →
          memGet (settled t) x = memGet (settled s) x ∧ memGet t.mem x = memGet s.mem x) ∧
        (s.platform.buffersStores = false → t.inFlight = []) ∧
        t = { s with
          mem := t.mem
          inFlight := t.inFlight
          i := s.i + 8
          st := .bulktest
          history := s.history ++ [.write a 32 s.vfa.toNat form, .write (a + 32) 32 s.vfb.toNat form] })

/-! ### Accesses that are not served -/

/-- spec/60 section 3, spec/93 U3: a memory micro-operation with a byte that the platform does not admit, or that is a
device's, performs nothing: the state is as it was. (That the sequencer then stays where it stands is deduced,
notes/assumptions 7.) -/
def Obligations.RefusedAccessLeavesStateAlone : Prop :=
  ∀ s : State,
    let x := s.inBase.toNat + 4 * s.i.toNat
    let y := s.outBase.toNat + 8 * s.i.toNat
    let no := fun acc a n =>
      a + n ≤ 2 ^ 64 ∧ ∃ k, k < n ∧
        ((∀ r ∈ s.platform.regions, regionHolds r (a + k) = true → regionGrants acc r = false) ∨
          ∃ r ∈ s.platform.regions, regionHolds r (a + k) = true ∧ r.kind = .device)
    (no .read x 4 → exec .sLoad s = .next s) ∧ (no .read x 32 → exec .vLoad s = .next s) ∧
    (no .write y 8 → exec .sStore s = .next s) ∧
    (no .write y 64 → exec .vStoreA s = .next s ∧ exec .vStoreU s = .next s)

/-- spec/42 R153, spec/93 U4: a memory micro-operation whose bytes would pass 2^64 is given no meaning. (That it stops the
run is the model's choice, notes/assumptions 11.) -/
def Obligations.AccessPastTopIsRefused : Prop :=
  ∀ s : State,
    let x := s.inBase.toNat + 4 * s.i.toNat
    let y := s.outBase.toNat + 8 * s.i.toNat
    (2 ^ 64 < x + 4 → exec .sLoad s = .refused .bufferWraps) ∧
    (2 ^ 64 < x + 32 → exec .vLoad s = .refused .bufferWraps) ∧
    (2 ^ 64 < y + 8 → exec .sStore s = .refused .bufferWraps) ∧
    (2 ^ 64 < y + 64 → exec .vStoreA s = .refused .bufferWraps ∧ exec .vStoreU s = .refused .bufferWraps)

/-! ### Memory -/

/-- spec/20 R52, R53: a stored value is what a load of the same bytes returns, at either width, and at either width no
other byte is changed and the canonical form is kept. -/
def Obligations.StoreThenLoadReturnsValue : Prop :=
  ∀ (m : List Host.Cell) (a : Nat), memWf m = true →
    (∀ v : VReg, memRead32 (memPerform m (storeCells a 32 v)) a = v) ∧
    (∀ re im : F32, memRead4 (memPerform m (storeCells a 8 (samplePair re im))) a = re ∧
      memRead4 (memPerform m (storeCells a 8 (samplePair re im))) (a + 4) = im) ∧
    (∀ (v : VReg) (x : Nat), x < a ∨ a + 32 ≤ x → memGet (memPerform m (storeCells a 32 v)) x = memGet m x) ∧
    (∀ (re im : F32) (x : Nat), x < a ∨ a + 8 ≤ x →
      memGet (memPerform m (storeCells a 8 (samplePair re im))) x = memGet m x) ∧
    (∀ v : VReg, memWf (memPerform m (storeCells a 32 v)) = true) ∧
    ∀ re im : F32, memWf (memPerform m (storeCells a 8 (samplePair re im))) = true

/-- spec/20 R62, spec/93 U18: in whatever order the port performs the bytes in flight, memory settles to the same bytes;
it takes the byte it performs out of flight into memory and changes nothing else. (The port's buffer is the model's, notes/assumptions 16.) -/
def Obligations.ArrivalOrderDoesNotMatter : Prop :=
  ∀ (s : State) (index : Nat) (rest : List Turn), Coherent s → s.turns = .port index :: rest →
    ∃ t, step s = .next t ∧ (∀ a, memGet (settled t) a = memGet (settled s) a) ∧
      t = { s with turns := rest, mem := t.mem, inFlight := t.inFlight } ∧
      t.inFlight = s.inFlight.eraseIdx index ∧
      (∀ c, s.inFlight[index]? = some c → memGet t.mem c.1 = c.2) ∧
      ∀ a, (∀ c, s.inFlight[index]? = some c → a ≠ c.1) → memGet t.mem a = memGet s.mem a

/-! ### The host, other agents and reset -/

/-- spec/10 R24, R31, spec/70 R257: a host write of an argument register replaces it whole and sets its mark while idle,
touches nothing else, and is lost while busy. -/
def Obligations.ArgumentWriteReplacesRegister : Prop :=
  ∀ (s : State) (a : Arg) (v : BitVec 64) (rest : List Turn), s.turns = .writeArg a v :: rest →
    (s.status.busy = true → step s = .next { s with turns := rest }) ∧
    (s.status.busy = false → ∃ t, step s = .next t ∧ argValue a t = v ∧ argMark a t.marks = true ∧
      (∀ b, b ≠ a → argValue b t = argValue b s ∧ argMark b t.marks = argMark b s.marks) ∧
      t = { s with
        turns := rest
        inBase := t.inBase
        outBase := t.outBase
        nsamps := t.nsamps
        scale := t.scale
        marks := t.marks })

/-- spec/10 R22 to R24, spec/70 R251: what a host read returns: 0 from `CTRL`, `BUSY` and `DONE` in bits 0 and 1 of
`STATUS`, the contents of a written argument register; and no read changes a register of the block, one of an unwritten
register included. (That such a read draws a free value is notes/assumptions 15.) -/
def Obligations.HostReadsReturnRegisters : Prop :=
  ∀ (s : State) (r : HostReg) (rest : List Turn), s.turns = .readReg r :: rest →
    ∃ t, step s = .next t ∧ t = { s with turns := rest, rdata := t.rdata, draws := t.draws } ∧
      (r = .ctrl → t.rdata = 0) ∧
      (r = .status → t.rdata[0] = s.status.busy ∧ t.rdata[1] = s.status.done ∧
        ∀ n, 2 ≤ n → t.rdata.getLsbD n = false) ∧
      ∀ a, r = .arg a → argMark a s.marks = true → t.rdata = argValue a s

/-- spec/10 R23: a write of `STATUS` is ignored. -/
def Obligations.StatusWriteIsIgnored : Prop :=
  ∀ (s : State) (v : Word32) (rest : List Turn), s.turns = .writeStatus v :: rest →
    step s = .next { s with turns := rest }

/-- spec/70 R256, spec/42 R142(g), spec/20 R68, spec/93 U5: while a command runs, another agent's write to the input
buffer or access to the output buffer is refused, and so is any sharing with another converter: its start on a buffer
pair that has a byte in common, and its access to a byte of its own buffers that lies in either of this block's, a read
of the input included. A start that shares a byte with a third converter that runs is refused too. Every other start adds
its pair, and every other access that an agent makes, or a converter to its own buffers, acts on memory or returns the
byte. (That the run stops at the access itself is the model's choice, notes/assumptions 10;
that an access of another agent that is not refused succeeds, whatever the platform's map, is notes/assumptions 24; how
other converters appear is notes/assumptions 22.) -/
def Obligations.ConcurrentAccessIsRefused : Prop :=
  ∀ (s : State) (x : Addr) (rest : List Turn),
    let inside := fun (base : Nat) (size : Nat) (a : Nat) => base ≤ a ∧ a < base + size
    let input := inside s.inBase.toNat (4 * s.nsamps.toNat)
    let output := inside s.outBase.toNat (8 * s.nsamps.toNat)
    let reads := fun (p : BufferPair) => inside p.inBase.toNat (4 * p.nsamps.toNat)
    let writes := fun (p : BufferPair) => inside p.outBase.toNat (8 * p.nsamps.toNat)
    let writing := fun v t => t = { s with turns := rest, mem := t.mem } ∧
      (memWf s.mem = true → memGet t.mem x.toNat = v) ∧ ∀ a, a ≠ x.toNat → memGet t.mem a = memGet s.mem a
    (∀ v, s.turns = .agentWrite x v :: rest →
      (s.status.busy = true ∧ (input x.toNat ∨ output x.toNat) → step s = .refused .concurrentAccess) ∧
      (¬(s.status.busy = true ∧ (input x.toNat ∨ output x.toNat)) → ∃ t, step s = .next t ∧ writing v t)) ∧
    (s.turns = .agentRead x :: rest →
      (s.status.busy = true ∧ output x.toNat → step s = .refused .concurrentAccess) ∧
      (¬(s.status.busy = true ∧ output x.toNat) →
        step s = .next { s with turns := rest, rdata := (memGet s.mem x.toNat).setWidth 64 })) ∧
    (∀ p, s.turns = .otherStart p :: rest →
      let shares := (s.status.busy = true ∧ ∃ a, (input a ∨ output a) ∧ (reads p a ∨ writes p a)) ∨
        ∃ q ∈ s.others, ∃ a, (reads q a ∨ writes q a) ∧ (reads p a ∨ writes p a)
      (shares → step s = .refused .concurrentAccess) ∧
      (¬shares → step s = .next { s with turns := rest, others := s.others ++ [p] })) ∧
    ∀ k p, s.others[k]? = some p →
      (s.turns = .otherRead k x :: rest → reads p x.toNat →
        (s.status.busy = true ∧ (input x.toNat ∨ output x.toNat) → step s = .refused .concurrentAccess) ∧
        (¬(s.status.busy = true ∧ (input x.toNat ∨ output x.toNat)) → step s = .next { s with turns := rest })) ∧
      ∀ v, s.turns = .otherWrite k x v :: rest → writes p x.toNat →
        (s.status.busy = true ∧ (input x.toNat ∨ output x.toNat) → step s = .refused .concurrentAccess) ∧
        (¬(s.status.busy = true ∧ (input x.toNat ∨ output x.toNat)) → ∃ t, step s = .next t ∧ writing v t)

/-- spec/10 R35, spec/70 R250: `State.reset` has the values the spec states. (The values of the registers the spec leaves
unspecified are the model's choice, notes/assumptions 1 and 2, and are not stated.) -/
def Obligations.ResetStateIsTheSpecs : Prop :=
  State.reset.st = .idle ∧ statusWord State.reset.status = 0#32 ∧
    State.reset.marks = ⟨false, false, false, false⟩ ∧ issued State.reset = some .cIdle ∧
    (readReg .ctrl State.reset).rdata = 0 ∧ (readReg .status State.reset).rdata = 0

/-- spec/70 R250, R251: from any state, `rst` leaves the sequencer idle, `STATUS` 0 and every mark clear, and touches no
byte of memory unless stores are in flight; and no command is accepted until the arguments are written again. (That `rst`
is one move, after which nothing is in flight, is the model's choice, notes/assumptions 17.) -/
def Obligations.RstReturnsToIdle : Prop :=
  ∀ (s : State) (landed : List Bool) (rest : List Turn), s.turns = .rst landed :: rest →
    ∃ t, step s = .next t ∧ t.st = .idle ∧ statusWord t.status = 0#32 ∧ t.marks = ⟨false, false, false, false⟩ ∧
      t.inFlight = [] ∧ t.platform = s.platform ∧ t.others = s.others ∧ t.turns = rest ∧
      (s.inFlight = [] → s.st ≠ .s5 → s.st ≠ .v8 → t.mem = s.mem) ∧
      exec .convertNative t = .refused .unwrittenArgument ∧ exec .convertLe t = .refused .unwrittenArgument ∧
      exec .convertBe t = .refused .unwrittenArgument

/-- spec/70 R252, spec/93 U10, spec/20 R67: after a reset during a command, every byte of memory is as it was, or is a
byte of the output buffer that holds the value the whole command would have given it; and every byte that changed was in
flight, its write recorded before, or belongs to a write that the reset records. (Which bytes land is an input,
notes/assumptions 17, and so is how far it reaches behind the bytes in flight: a write of the store in `S5` or `V8` is
recorded if it reaches a byte of that write.) -/
def Obligations.ResetLeavesOldOrConvertedBytes : Prop :=
  ∀ (s : State) (landed : List Bool) (rest : List Turn), Coherent s → Progress s → s.turns = .rst landed :: rest →
    let a := s.outBase.toNat + 8 * s.i.toNat
    let reached := landed.length - s.inFlight.length
    let form := if s.br = .three then Form.unaligned else .aligned
    let recorded : List Event :=
      match s.st with
      | .s5 => if reached = 0 then [] else [.write a 8 (s.fi ++ s.fr).toNat .unaligned]
      | .v8 =>
        (if reached = 0 then [] else [.write a 32 s.vfa.toNat form]) ++
          if reached ≤ 32 then [] else [.write (a + 32) 32 s.vfb.toNat form]
      | _ => []
    ∃ t, step s = .next t ∧ t.history = s.history ++ recorded ∧
      ∀ b, (memGet t.mem b = memGet s.mem b ∨ (inOutput s b = true ∧ memGet t.mem b = outputByte s b)) ∧
        (memGet t.mem b ≠ memGet s.mem b → b ∈ s.inFlight.map Prod.fst ∨
          ∃ c n v f, .write c n v f ∈ recorded ∧ c ≤ b ∧ b < c + n)

/-! ### Invariants and rules of the whole machine -/

/-- The two invariants hold right after reset. (Of the values the model chose there it rests on an empty list of bytes in
flight, of listed memory and of other converters, notes/assumptions 3, 16 and 22.) -/
def Obligations.ResetIsCoherent : Prop :=
  Coherent State.reset ∧ Progress State.reset

/-- spec/10 R23, R26, spec/42 R142, R145, R154: every step of every agent keeps the invariant of control. -/
def Obligations.StepKeepsCoherent : Prop :=
  ∀ s t : State, Coherent s → step s = .next t → Coherent t

/-- spec/10 R26: every step of every agent keeps the invariant of data: every sample below `I` has been converted and
stored, and the datapath holds the work in hand. -/
def Obligations.StepKeepsProgress : Prop :=
  ∀ s t : State, Coherent s → Progress s → step s = .next t → Progress t

/-- spec/60 R220, spec/00 R12: the block raises no exception: no step from a coherent state faults, and one is refused only
at a reserved or not admitted command written while idle, or at a move of another agent or converter that breaks
R142(g); so none of the sequencer's, the port's or `rst`'s is. (That such moves end in a refusal is notes/assumptions 9,
10 and 22.) -/
def Obligations.CoherentStepNeverFaults : Prop :=
  ∀ s : State, Coherent s → (∀ f, step s ≠ .fault f) ∧ ∀ r, step s = .refused r →
    (s.status.busy = false ∧ ∃ word rest, s.turns = .writeCtrl word :: rest ∧ word[0] = true ∧
      (r = .reservedCommand word ∨ ¬Admitted s)) ∨
    (r = .concurrentAccess ∧ ∃ tn rest, s.turns = tn :: rest ∧
      ((∃ a v, tn = .agentWrite a v) ∨ (∃ a, tn = .agentRead a) ∨ (∃ p, tn = .otherStart p) ∨
        (∃ k a, tn = .otherRead k a) ∨ ∃ k a v, tn = .otherWrite k a v))

/-- spec/20 R50, spec/42 R153: no micro-operation of a running command is refused or held up: the sequencer always moves
on to another state. (That `C.FINISH` does not wait is the model's choice, notes/assumptions 16.) -/
def Obligations.RunningCommandAlwaysMovesOn : Prop :=
  ∀ s : State, Coherent s → s.status.busy = true → sequencerMoves s →
    ∃ t, step s = .next t ∧ t.st ≠ s.st

/-- spec/42 R155: every address a `V.STORE.A` is issued at is a multiple of 16. -/
def Obligations.AlignedStoresAreAligned : Prop :=
  ∀ s : State, Coherent s → issued s = some .vStoreA →
    (s.outBase.toNat + 8 * s.i.toNat) % 16 = 0 ∧ (s.outBase.toNat + 8 * s.i.toNat + 32) % 16 = 0

/-- spec/10 R36: whatever micro-operation the sequencer performs, memory changes inside the output buffer only. -/
def Obligations.BlockWritesOutputBufferOnly : Prop :=
  ∀ s t : State, Coherent s → sequencerMoves s → step s = .next t →
    ∀ a, inOutput s a = false → memGet t.mem a = memGet s.mem a ∧ memGet (settled t) a = memGet (settled s) a

/-- spec/10 R24, spec/70 R257, R261: while a command runs, nothing but reset changes an argument register, a mark, or the
mode, and nothing changes the platform. -/
def Obligations.ArgumentsFixedWhileBusy : Prop :=
  ∀ s t : State, s.status.busy = true → step s = .next t → (∀ l rest, s.turns ≠ .rst l :: rest) →
    t.inBase = s.inBase ∧ t.outBase = s.outBase ∧ t.nsamps = s.nsamps ∧ t.scale = s.scale ∧ t.marks = s.marks ∧
      t.m = s.m ∧ t.platform = s.platform

/-- spec/70 R258: `DONE` stays 1 until a command is accepted or reset. -/
def Obligations.DoneIsSticky : Prop :=
  ∀ s t : State, s.status.done = true → step s = .next t → (∀ l rest, s.turns ≠ .rst l :: rest) →
    t.status.done = true ∨
      (t.status = ⟨true, false⟩ ∧ t.st = .setup ∧ ∃ word rest, s.turns = .writeCtrl word :: rest ∧ word[0] = true)

/-! ### What samples, iterations and commands come to -/

/-- spec/40 R107, R109: each part of a converted word is the exact product of its signed lane and `K`, rounded once, with
the sign of `K` on a zero lane. -/
def Obligations.ConversionIsOneRounding : Prop :=
  ∀ (m : Mode) (w : Word32) (k : F32), f32Finite k = true →
    IsRne ((decodeReal m w).toInt * f32Value k) ((decodeReal m w).msb ^^ f32Sign k) (conv m w k).1 ∧
    IsRne ((decodeImag m w).toInt * f32Value k) ((decodeImag m w).msb ^^ f32Sign k) (conv m w k).2

/-- spec/40 R110(e): with `K` finite a converted part is never a NaN. -/
def Obligations.ConversionIsNeverNaN : Prop :=
  ∀ (m : Mode) (w : Word32) (k : F32), f32Finite k = true →
    f32IsNaN (conv m w k).1 = false ∧ f32IsNaN (conv m w k).2 = false

/-- spec/41 R125(c), (d): decoding the byte reversal of a word as big-endian wire is decoding the word as little-endian
wire, and the two wire modes agree exactly on the byte palindromes. -/
def Obligations.WireModesAreComplementary : Prop :=
  ∀ w : Word32,
    decodeReal .bigEndianWire (bswap32 w) = decodeReal .littleEndianWire w ∧
    decodeImag .bigEndianWire (bswap32 w) = decodeImag .littleEndianWire w ∧
    (canon .littleEndianWire w = canon .bigEndianWire w ↔ w = bswap32 w)

/-- spec/44 R208: six steps of the sequencer from `S0` leave sample `I` converted, `I` one higher, and every other byte as
it was. The premises on memory and port are clauses of `Coherent`. -/
def Obligations.ScalarSampleConvertsOneWord : Prop :=
  ∀ s : State,
    let x := s.inBase.toNat + 4 * s.i.toNat
    let y := s.outBase.toNat + 8 * s.i.toNat
    s.st = .s0 → s.turns = [] → served s.platform .read x 4 → served s.platform .write y 8 → memWf s.mem = true →
    (s.platform.buffersStores = false → s.inFlight = []) →
    ∃ t, runSteps 6 s = .next t ∧
      memRead4 (settled t) y = (conv s.m (memRead4 s.mem x) s.k).1 ∧
      memRead4 (settled t) (y + 4) = (conv s.m (memRead4 s.mem x) s.k).2 ∧
      (∀ a, a < y ∨ y + 8 ≤ a → memGet (settled t) a = memGet (settled s) a ∧ memGet t.mem a = memGet s.mem a) ∧
      t.i = s.i + 1 ∧ t.st = if s.ret = .head then .bulktest else .tailtest

/-- spec/43 R183: nine steps of the sequencer from `V0` leave the eight samples from `I` converted, each to what the
scalar converter would make of it, `I` eight higher, and every other byte as it was. The premises on memory, port, `VK`
and `BR` are clauses of `Coherent`. -/
def Obligations.BulkIterationConvertsEightWords : Prop :=
  ∀ s : State,
    let x := s.inBase.toNat + 4 * s.i.toNat
    let y := s.outBase.toNat + 8 * s.i.toNat
    s.st = .v0 → s.turns = [] → s.br ≠ .none → (∀ j, j < 8 → vslot s.vk j = s.k) →
    served s.platform .read x 32 → served s.platform .write y 64 → memWf s.mem = true →
    (s.platform.buffersStores = false → s.inFlight = []) →
    ∃ t, runSteps 9 s = .next t ∧
      (∀ j, j < 8 →
        memRead4 (settled t) (y + 8 * j) = (conv s.m (memRead4 s.mem (x + 4 * j)) s.k).1 ∧
        memRead4 (settled t) (y + 8 * j + 4) = (conv s.m (memRead4 s.mem (x + 4 * j)) s.k).2) ∧
      (∀ a, a < y ∨ y + 64 ≤ a → memGet (settled t) a = memGet (settled s) a ∧ memGet t.mem a = memGet s.mem a) ∧
      t.i = s.i + 8 ∧ t.st = .bulktest

/-- spec/42 R156, R157: an admitted command, left to run with an empty schedule, is busy until exactly the steps the rule
counts and then ends with `STATUS` = 2, every output sample converted from the launch memory, every other byte of memory and every argument register as at
launch. -/
def Obligations.CommandEndsAsSpecified : Prop :=
  ∀ (s : State) (m : Mode), Coherent s → s.st = .idle → s.turns = [] → Admitted s →
    (∀ n, n < commandSteps s.outBase s.nsamps.toNat →
      ∃ u, runSteps n (accepted m s) = .next u ∧ u.status.busy = true) ∧
    ∃ t, runSteps (commandSteps s.outBase s.nsamps.toNat) (accepted m s) = .next t ∧
      statusWord t.status = 2#32 ∧ t.st = .idle ∧ t.inFlight = [] ∧
      (∀ j, j < s.nsamps.toNat →
        let c := conv m (memRead4 s.mem (s.inBase.toNat + 4 * j)) (scaleConstant s.scale)
        memRead4 t.mem (s.outBase.toNat + 8 * j) = c.1 ∧ memRead4 t.mem (s.outBase.toNat + 8 * j + 4) = c.2) ∧
      (∀ a, inOutput s a = false → memGet t.mem a = memGet s.mem a) ∧
      t.inBase = s.inBase ∧ t.outBase = s.outBase ∧ t.nsamps = s.nsamps ∧ t.scale = s.scale

/-- spec/42 R154, spec/20 R63, R67: an admitted command, left to run, makes exactly the accesses the rule counts, in its
order: the head sample, the bulk iterations ascending, the tail samples ascending, each input word read once and each
output byte written once. -/
def Obligations.CommandAccessesInOrder : Prop :=
  ∀ (s : State) (m : Mode), Coherent s → s.st = .idle → s.turns = [] → Admitted s →
    ∃ t, runSteps (commandSteps s.outBase s.nsamps.toNat) (accepted m s) = .next t ∧
      t.history.map eventShape = s.history.map eventShape ++ commandShapes s
end

