-- ==== Sys2Proof/Laws/Flags.lean ====
section
/-! SUPPORT. Laws/Flags.lean: the tests of the sequencer and of admission, in plain arithmetic. -/

namespace Sys2Proof.Machine

@[simp] theorem sampleLeft_iff {i n : BitVec 64} : sampleLeft i n = true ↔ i.toNat < n.toNat := by
  simp [sampleLeft]

@[simp] theorem batchLeft_iff {i n : BitVec 64} : batchLeft i n = true ↔ i.toNat + 7 < n.toNat :=
  decide_eq_true_iff

theorem probeBranch_eq (b : Addr) :
    probeBranch b = if b.toNat % 16 = 0 then .one else if b.toNat % 16 = 8 then .two else .three := rfl

/-- A probe always finds a branch. -/
theorem probeBranch_ne_none (b : Addr) : probeBranch b ≠ .none := by
  rw [probeBranch_eq]
  split_ifs <;> simp

theorem probeBranch_eq_one_iff {b : Addr} : probeBranch b = .one ↔ b.toNat % 16 = 0 := by
  rw [probeBranch_eq]
  split_ifs <;> simp_all

theorem probeBranch_eq_two_iff {b : Addr} : probeBranch b = .two ↔ b.toNat % 16 = 8 := by
  rw [probeBranch_eq]
  split_ifs <;> simp_all

theorem inEnd_eq (s : State) : inEnd s = s.inBase.toNat + 4 * s.nsamps.toNat := rfl

theorem outEnd_eq (s : State) : outEnd s = s.outBase.toNat + 8 * s.nsamps.toNat := rfl

theorem storeAddr_eq (s : State) : storeAddr s = s.outBase.toNat + 8 * s.i.toNat := rfl

@[simp] theorem inInput_iff {s : State} {a : Nat} :
    inInput s a = true ↔ s.inBase.toNat ≤ a ∧ a < s.inBase.toNat + 4 * s.nsamps.toNat := by
  rw [inInput, Bool.and_eq_true, decide_eq_true_iff, decide_eq_true_iff, inEnd_eq]

@[simp] theorem inOutput_iff {s : State} {a : Nat} :
    inOutput s a = true ↔ s.outBase.toNat ≤ a ∧ a < s.outBase.toNat + 8 * s.nsamps.toNat := by
  rw [inOutput, Bool.and_eq_true, decide_eq_true_iff, decide_eq_true_iff, outEnd_eq]

/-- Two ranges do not meet exactly when no address is in both. -/
theorem rangesMeet_eq_false_iff {lo hi lo' hi' : Nat} :
    rangesMeet lo hi lo' hi' = false ↔ ∀ a, ¬((lo ≤ a ∧ a < hi) ∧ lo' ≤ a ∧ a < hi') := by
  rw [rangesMeet, decide_eq_false_iff_not]
  constructor
  · intro h a ha
    omega
  · intro h hlt
    exact h (max lo lo') (by omega)

/-- The buffers do not overlap exactly when no address is in both. -/
theorem overlap_eq_false_iff {s : State} :
    overlap s = false ↔ ∀ a, ¬(inInput s a = true ∧ inOutput s a = true) := by
  simp only [overlap, rangesMeet_eq_false_iff, inInput_iff, inOutput_iff, inEnd_eq, outEnd_eq]

@[simp] theorem pairInput_iff {p : BufferPair} {a : Nat} :
    pairInput p a = true ↔ p.inBase.toNat ≤ a ∧ a < p.inBase.toNat + 4 * p.nsamps.toNat := by
  rw [pairInput, Bool.and_eq_true, decide_eq_true_iff, decide_eq_true_iff, inStride]

@[simp] theorem pairOutput_iff {p : BufferPair} {a : Nat} :
    pairOutput p a = true ↔ p.outBase.toNat ≤ a ∧ a < p.outBase.toNat + 8 * p.nsamps.toNat := by
  rw [pairOutput, Bool.and_eq_true, decide_eq_true_iff, decide_eq_true_iff, outStride]

theorem pairHolds_iff {p : BufferPair} {a : Nat} :
    pairHolds p a = true ↔ pairInput p a = true ∨ pairOutput p a = true := Bool.or_eq_true_iff

/-- The pair of the argument registers holds the addresses of the two buffers. -/
theorem pairHolds_ownPair {s : State} {a : Nat} :
    pairHolds (ownPair s) a = true ↔ inInput s a = true ∨ inOutput s a = true := Bool.or_eq_true_iff

/-- Two pairs do not meet exactly when no address is in both. -/
theorem pairsMeet_eq_false_iff {p q : BufferPair} :
    pairsMeet p q = false ↔ ∀ a, ¬(pairHolds p a = true ∧ pairHolds q a = true) := by
  simp only [pairsMeet, Bool.or_eq_false_iff, rangesMeet_eq_false_iff, pairHolds_iff, pairInput_iff, pairOutput_iff,
    inStride, outStride]
  constructor
  · rintro ⟨⟨⟨h1, h2⟩, h3⟩, h4⟩ a ⟨hp | hp, hq | hq⟩
    · exact h1 a ⟨hp, hq⟩
    · exact h2 a ⟨hp, hq⟩
    · exact h3 a ⟨hp, hq⟩
    · exact h4 a ⟨hp, hq⟩
  · intro h
    exact ⟨⟨⟨fun a ⟨hp, hq⟩ => h a ⟨.inl hp, .inl hq⟩, fun a ⟨hp, hq⟩ => h a ⟨.inl hp, .inr hq⟩⟩,
      fun a ⟨hp, hq⟩ => h a ⟨.inr hp, .inl hq⟩⟩, fun a ⟨hp, hq⟩ => h a ⟨.inr hp, .inr hq⟩⟩

/-- A pair meets none of the other converters that run exactly when it shares no address with any. -/
theorem meetsOther_eq_false_iff {p : BufferPair} {s : State} :
    meetsOther p s = false ↔ ∀ q ∈ s.others, ∀ a, ¬(pairHolds p a = true ∧ pairHolds q a = true) := by
  simp only [meetsOther, List.any_eq_false, Bool.not_eq_true, pairsMeet_eq_false_iff]

/-- No other converter that runs shares a byte with this block's buffers (spec/20 R68). -/
theorem meetsOther_ownPair {s : State} :
    meetsOther (ownPair s) s = false ↔
      ∀ p ∈ s.others, ∀ a, pairHolds p a = true → inInput s a = false ∧ inOutput s a = false := by
  rw [meetsOther_eq_false_iff]
  simp only [pairHolds_ownPair, ← Bool.not_eq_true]
  refine forall₃_congr fun p _ a => ?_
  tauto

@[simp] theorem allWritten_iff {m : Marks} : allWritten m = true ↔ m = ⟨true, true, true, true⟩ := by
  cases m
  simp [allWritten, and_assoc]

end Sys2Proof.Machine
end

