-- ==== Sys2Proof/Laws/Memory.lean ====
section
/-! SUPPORT. Laws/Memory.lean: the laws of byte memory: canonical form, read after write, everything else unchanged. -/

namespace Sys2Proof.Machine

@[simp] theorem memGet_nil (a : Nat) : memGet [] a = memDefault := rfl

theorem memGet_cons (b : Nat) (v : Byte) (m : List Host.Cell) (a : Nat) :
    memGet ((b, v) :: m) a = if a = b then v else memGet m a := rfl

theorem memWfFrom_some_cons (lo b : Nat) (v : Byte) (m : List Host.Cell) :
    memWfFrom (some lo) ((b, v) :: m) = true ↔ lo < b ∧ v ≠ memDefault ∧ memWfFrom (some b) m = true := by
  simp [memWfFrom, and_assoc]

theorem memWfFrom_none_cons (b : Nat) (v : Byte) (m : List Host.Cell) :
    memWfFrom none ((b, v) :: m) = true ↔ v ≠ memDefault ∧ memWfFrom (some b) m = true := by
  simp [memWfFrom]

theorem memWfFrom_weaken {lo lo' : Nat} {m : List Host.Cell} (h : memWfFrom (some lo) m = true) (hl : lo' ≤ lo) :
    memWfFrom (some lo') m = true := by
  cases m with
  | nil => rfl
  | cons c m =>
    rw [memWfFrom_some_cons] at h ⊢
    exact ⟨by omega, h.2⟩

theorem memWfFrom_none {lo : Nat} {m : List Host.Cell} (h : memWfFrom (some lo) m = true) : memWf m = true := by
  cases m with
  | nil => rfl
  | cons c m =>
    rw [memWfFrom_some_cons] at h
    rw [memWf, memWfFrom_none_cons]
    exact h.2

/-- A canonical memory lists nothing at or below its bound. -/
theorem memGet_below {lo : Nat} {m : List Host.Cell} (h : memWfFrom (some lo) m = true) {a : Nat} (ha : a ≤ lo) :
    memGet m a = memDefault := by
  induction m generalizing lo with
  | nil => rfl
  | cons c m ih =>
    rw [memWfFrom_some_cons] at h
    rw [memGet_cons, if_neg (by omega)]
    exact ih h.2.2 (by omega)

theorem memPut_cons (b : Nat) (w : Byte) (m : List Host.Cell) (a : Nat) (v : Byte) :
    memPut ((b, w) :: m) a v =
      if a < b then (if v = memDefault then (b, w) :: m else (a, v) :: (b, w) :: m)
      else if a = b then (if v = memDefault then m else (a, v) :: m)
      else (b, w) :: memPut m a v := rfl

theorem memPut_wfFrom {lo : Nat} {m : List Host.Cell} (h : memWfFrom (some lo) m = true) {a : Nat} (ha : lo < a)
    (v : Byte) : memWfFrom (some lo) (memPut m a v) = true := by
  induction m generalizing lo with
  | nil =>
    by_cases hv : v = memDefault <;> simp [memPut, hv, memWfFrom, ha]
  | cons c m ih =>
    obtain ⟨b, w⟩ := c
    have hc := h
    rw [memWfFrom_some_cons] at h
    rw [memPut_cons]
    split_ifs with h1 h2 h3 h4
    · exact hc
    · rw [memWfFrom_some_cons, memWfFrom_some_cons]; exact ⟨ha, h2, h1, h.2⟩
    · exact memWfFrom_weaken h.2.2 (by omega)
    · rw [memWfFrom_some_cons]; exact ⟨ha, h4, h3 ▸ h.2.2⟩
    · rw [memWfFrom_some_cons]; exact ⟨h.1, h.2.1, ih h.2.2 (by omega)⟩

/-- Storing a byte keeps the canonical form. -/
theorem memPut_wf {m : List Host.Cell} (h : memWf m = true) (a : Nat) (v : Byte) : memWf (memPut m a v) = true := by
  cases m with
  | nil => by_cases hv : v = memDefault <;> simp [memPut, hv, memWf, memWfFrom]
  | cons c m =>
    obtain ⟨b, w⟩ := c
    have hc := h
    rw [memWf, memWfFrom_none_cons] at h
    rw [memPut_cons]
    split_ifs with h1 h2 h3 h4
    · exact hc
    · rw [memWf, memWfFrom_none_cons, memWfFrom_some_cons]; exact ⟨h2, h1, h⟩
    · exact memWfFrom_none h.2
    · rw [memWf, memWfFrom_none_cons]; exact ⟨h4, h3 ▸ h.2⟩
    · rw [memWf, memWfFrom_none_cons]; exact ⟨h.1, memPut_wfFrom h.2 (by omega) v⟩

/-- Storing a byte leaves every other byte alone, in any list. -/
theorem memGet_memPut_ne (m : List Host.Cell) {a c : Nat} (v : Byte) (h : c ≠ a) :
    memGet (memPut m a v) c = memGet m c := by
  induction m with
  | nil => by_cases hv : v = memDefault <;> simp [memPut, hv, memGet, h]
  | cons x m ih =>
    obtain ⟨b, w⟩ := x
    rw [memPut_cons]
    split_ifs with h1 h2 h3 h4
    · rfl
    · rw [memGet_cons, if_neg h]
    · rw [memGet_cons, if_neg (h3 ▸ h)]
    · rw [memGet_cons, memGet_cons, if_neg h, if_neg (h3 ▸ h)]
    · rw [memGet_cons, memGet_cons, ih]

theorem memGet_memPut_from {lo : Nat} {m : List Host.Cell} (h : memWfFrom (some lo) m = true) (a : Nat) (v : Byte) :
    memGet (memPut m a v) a = v := by
  induction m generalizing lo with
  | nil => by_cases hv : v = memDefault <;> simp [memPut, hv, memGet]
  | cons x m ih =>
    obtain ⟨b, w⟩ := x
    rw [memWfFrom_some_cons] at h
    rw [memPut_cons]
    split_ifs with h1 h2 h3 h4
    · rw [memGet_cons, if_neg (by omega), memGet_below h.2.2 (by omega), h2]
    · rw [memGet_cons, if_pos rfl]
    · rw [memGet_below h.2.2 (by omega), h4]
    · rw [memGet_cons, if_pos rfl]
    · rw [memGet_cons, if_neg h3]; exact ih h.2.2

/-- A byte stored in a canonical memory is read back. -/
theorem memGet_memPut_same {m : List Host.Cell} (h : memWf m = true) (a : Nat) (v : Byte) :
    memGet (memPut m a v) a = v := by
  cases m with
  | nil => by_cases hv : v = memDefault <;> simp [memPut, hv, memGet]
  | cons x m =>
    obtain ⟨b, w⟩ := x
    rw [memWf, memWfFrom_none_cons] at h
    rw [memPut_cons]
    split_ifs with h1 h2 h3 h4
    · rw [memGet_cons, if_neg (by omega), memGet_below h.2 (by omega), h2]
    · rw [memGet_cons, if_pos rfl]
    · rw [memGet_below h.2 (by omega), h4]
    · rw [memGet_cons, if_pos rfl]
    · rw [memGet_cons, if_neg h3]; exact memGet_memPut_from h.2 a v

/-! ### Many bytes -/

@[simp] theorem memPerform_nil (m : List Host.Cell) : memPerform m [] = m := rfl

@[simp] theorem memPerform_cons (m : List Host.Cell) (c : Host.Cell) (cs : List Host.Cell) :
    memPerform m (c :: cs) = memPerform (memPut m c.1 c.2) cs := rfl

theorem memPerform_append (m cs ds : List Host.Cell) :
    memPerform m (cs ++ ds) = memPerform (memPerform m cs) ds := by
  simp [memPerform, List.foldl_append]

/-- Performing stored bytes keeps the canonical form. -/
theorem memPerform_wf {m : List Host.Cell} (h : memWf m = true) (cs : List Host.Cell) :
    memWf (memPerform m cs) = true := by
  induction cs generalizing m with
  | nil => exact h
  | cons c cs ih => exact ih (memPut_wf h _ _)

/-- A byte none of the cells is for is unchanged. -/
theorem memGet_memPerform_of_notMem (m cs : List Host.Cell) {a : Nat} (h : a ∉ cs.map Prod.fst) :
    memGet (memPerform m cs) a = memGet m a := by
  induction cs generalizing m with
  | nil => rfl
  | cons c cs ih =>
    simp only [List.map_cons, List.mem_cons, not_or] at h
    rw [memPerform_cons, ih _ h.2, memGet_memPut_ne _ _ h.1]

/-- A byte one of the cells is for, and only that one, is that cell's. -/
theorem memGet_memPerform_of_mem {m : List Host.Cell} (hm : memWf m = true) {cs : List Host.Cell}
    (hn : (cs.map Prod.fst).Nodup) {c : Host.Cell} (hc : c ∈ cs) : memGet (memPerform m cs) c.1 = c.2 := by
  induction cs generalizing m with
  | nil => simp at hc
  | cons d cs ih =>
    simp only [List.map_cons, List.nodup_cons] at hn
    rw [memPerform_cons]
    rcases List.mem_cons.1 hc with rfl | hc
    · rw [memGet_memPerform_of_notMem _ _ hn.1, memGet_memPut_same hm]
    · exact ih (memPut_wf hm _ _) hn.2 hc

/-- Every byte performing cells leaves is an old one or one of theirs. -/
theorem memGet_memPerform_cases {m : List Host.Cell} (hm : memWf m = true) (cs : List Host.Cell) (a : Nat) :
    memGet (memPerform m cs) a = memGet m a ∨ (a, memGet (memPerform m cs) a) ∈ cs := by
  induction cs generalizing m with
  | nil => exact .inl rfl
  | cons c cs ih =>
    rw [memPerform_cons]
    rcases ih (memPut_wf hm c.1 c.2) with h | h
    · by_cases hc : a = c.1
      · subst hc
        rw [memGet_memPut_same hm] at h
        exact .inr (List.mem_cons.2 (.inl (by rw [h])))
      · rw [memGet_memPut_ne _ _ hc] at h
        exact .inl h
    · exact .inr (List.mem_cons_of_mem _ h)

/-! ### Stores and loads -/

theorem storeCells_fst {w : Nat} (a n : Nat) (v : BitVec w) :
    (storeCells a n v).map Prod.fst = (List.range n).map (a + ·) := by
  simp [storeCells, Function.comp_def]

theorem mem_storeCells {w : Nat} {a n : Nat} {v : BitVec w} {c : Host.Cell} :
    c ∈ storeCells a n v ↔ ∃ k, k < n ∧ c = (a + k, byteOf v k) := by
  simp [storeCells, eq_comm]

theorem mem_storeCells_fst {w : Nat} {a n b : Nat} {v : BitVec w} :
    b ∈ (storeCells a n v).map Prod.fst ↔ a ≤ b ∧ b < a + n := by
  rw [storeCells_fst, List.mem_map]
  constructor
  · rintro ⟨k, hk, rfl⟩
    have := List.mem_range.1 hk
    omega
  · rintro ⟨h1, h2⟩
    exact ⟨b - a, List.mem_range.2 (by omega), by omega⟩

theorem storeCells_nodup {w : Nat} (a n : Nat) (v : BitVec w) : ((storeCells a n v).map Prod.fst).Nodup := by
  rw [storeCells_fst]
  exact List.Nodup.map (fun x y h => by simpa using h) List.nodup_range

/-- A stored value is read back byte by byte. -/
theorem memGet_store {w : Nat} {m : List Host.Cell} (hm : memWf m = true) {a n k : Nat} (v : BitVec w) (hk : k < n) :
    memGet (memPerform m (storeCells a n v)) (a + k) = byteOf v k :=
  memGet_memPerform_of_mem hm (storeCells_nodup a n v) (c := (a + k, byteOf v k)) (mem_storeCells.2 ⟨k, hk, rfl⟩)

/-- A store leaves every byte outside its own alone. -/
theorem memGet_store_outside {w : Nat} (m : List Host.Cell) {a n b : Nat} (v : BitVec w) (hb : b < a ∨ a + n ≤ b) :
    memGet (memPerform m (storeCells a n v)) b = memGet m b :=
  memGet_memPerform_of_notMem _ _ (by rw [mem_storeCells_fst]; omega)

theorem memReadNat_succ (m : List Host.Cell) (a n : Nat) :
    memReadNat m a (n + 1) = (memGet m a).toNat + 256 * memReadNat m (a + 1) n := rfl

theorem memReadNat_lt (m : List Host.Cell) (a n : Nat) : memReadNat m a n < 256 ^ n := by
  induction n generalizing a with
  | zero => simp [memReadNat]
  | succ n ih =>
    have := ih (a + 1)
    have := (memGet m a).isLt
    rw [memReadNat_succ, pow_succ]
    omega

/-- Byte `k` of what is read is the byte at `a + k` (spec/20 R52). -/
theorem memReadNat_byte (m : List Host.Cell) (a : Nat) {n k : Nat} (hk : k < n) :
    memReadNat m a n / 256 ^ k % 256 = (memGet m (a + k)).toNat := by
  induction n generalizing a k with
  | zero => omega
  | succ n ih =>
    rw [memReadNat_succ]
    have hb := (memGet m a).isLt
    cases k with
    | zero => simp; omega
    | succ k =>
      rw [pow_succ', ← Nat.div_div_eq_div_mul]
      have : ((memGet m a).toNat + 256 * memReadNat m (a + 1) n) / 256 = memReadNat m (a + 1) n := by omega
      rw [this, ih (a + 1) (by omega), Nat.add_assoc, Nat.add_comm 1 k]

/-- Two memories that agree on `n` bytes read the same. -/
theorem memReadNat_congr {m m' : List Host.Cell} {a n : Nat} (h : ∀ k, k < n → memGet m (a + k) = memGet m' (a + k)) :
    memReadNat m a n = memReadNat m' a n := by
  induction n generalizing a with
  | zero => rfl
  | succ n ih =>
    rw [memReadNat_succ, memReadNat_succ, ih]
    · have := h 0 (by omega)
      simp only [Nat.add_zero] at this
      rw [this]
    · intro k hk
      have := h (k + 1) (by omega)
      rwa [show a + 1 + k = a + (k + 1) by omega]

theorem memRead4_congr {m m' : List Host.Cell} {a : Nat} (h : ∀ k, k < 4 → memGet m (a + k) = memGet m' (a + k)) :
    memRead4 m a = memRead4 m' a := by
  rw [memRead4, memRead4, memReadNat_congr h]

theorem byteOf_ofNat {w n k : Nat} (x : Nat) (hw : w = 8 * n) (hk : k < n) :
    (byteOf (BitVec.ofNat w x) k).toNat = x / 256 ^ k % 256 := by
  subst hw
  have h8 : (256 : Nat) ^ k = 2 ^ (8 * k) := by rw [pow_mul]; norm_num
  have hn : 2 ^ (8 * n) = 2 ^ (8 * k) * 2 ^ (8 * (n - k)) := by rw [← pow_add]; congr 1; omega
  have hd : 2 ^ 8 ∣ 2 ^ (8 * (n - k)) := pow_dvd_pow 2 (by omega)
  rw [byteOf, BitVec.extractLsb'_toNat, BitVec.toNat_ofNat, Nat.shiftRight_eq_div_pow, h8, hn,
    Nat.mod_mul_right_div_self, Nat.mod_mod_of_dvd _ hd]
  norm_num

/-- Byte `k` of a word read from memory (spec/20 R52). -/
theorem byteOf_memRead4 (m : List Host.Cell) (a : Nat) {k : Nat} (hk : k < 4) :
    byteOf (memRead4 m a) k = memGet m (a + k) := by
  apply BitVec.eq_of_toNat_eq
  rw [memRead4, byteOf_ofNat (n := 4) _ rfl hk, memReadNat_byte m a hk]

/-- Byte `k` of a vector read from memory (spec/20 R52, R55). -/
theorem byteOf_memRead32 (m : List Host.Cell) (a : Nat) {k : Nat} (hk : k < 32) :
    byteOf (memRead32 m a) k = memGet m (a + k) := by
  apply BitVec.eq_of_toNat_eq
  rw [memRead32, byteOf_ofNat (n := 32) _ rfl hk, memReadNat_byte m a hk]

/-- A value is what its bytes are. -/
theorem eq_of_byteOf {n : Nat} {u v : BitVec (8 * n)} (h : ∀ k, k < n → byteOf u k = byteOf v k) : u = v := by
  apply BitVec.eq_of_getLsbD_eq
  intro i hi
  have hk := h (i / 8) (by omega)
  have := congrArg (fun b : Byte => b.getLsbD (i % 8)) hk
  simp only [byteOf, BitVec.getLsbD_extractLsb', Nat.mod_lt _ (by decide : 0 < 8), decide_true, Bool.true_and] at this
  rwa [Nat.div_add_mod] at this

end Sys2Proof.Machine
end

