-- ==== Sys2Proof/Laws/Numerics.lean ====
section
/-! SUPPORT. Laws/Numerics.lean: what rounding, the product, the conversion and the scale constant come to as real
numbers. -/

namespace Sys2Proof.Machine

theorem f32Pack_toNat (neg : Bool) {c : Nat} (h : c < 2 ^ 31) :
    (f32Pack neg c).toNat = (if neg then 2 ^ 31 else 0) + c := by
  cases neg
  · simp [f32Pack]; omega
  · have hd : 0x80000000#32 &&& BitVec.ofNat 32 c = 0#32 := by
      apply BitVec.eq_of_getLsbD_eq
      intro i hi
      rw [BitVec.getLsbD_and]
      by_cases h31 : i = 31
      · subst h31
        have : (BitVec.ofNat 32 c).getLsbD 31 = false := by
          rw [BitVec.getLsbD_ofNat]
          simp [Nat.testBit_lt_two_pow h]
        simpa using this
      · have : (0x80000000#32).getLsbD i = false := by
          have : i < 31 := by omega
          interval_cases i <;> rfl
        rw [this, Bool.false_and, BitVec.getLsbD_zero]
    rw [f32Pack, if_pos rfl, ← BitVec.add_eq_or_of_and_eq_zero _ _ hd]
    simp [BitVec.toNat_add, BitVec.toNat_ofNat]
    omega

/-- The fields of a packed pattern. -/
theorem f32Sign_pack (neg : Bool) {c : Nat} (h : c < 2 ^ 31) : f32Sign (f32Pack neg c) = neg := by
  rw [f32Sign, BitVec.msb_eq_decide, f32Pack_toNat neg h]
  cases neg
  · simp; omega
  · simp

theorem f32Field_pack (neg : Bool) {c : Nat} (h : c < 2 ^ 31) :
    ((f32Pack neg c).extractLsb' 23 8).toNat = c / 2 ^ 23 := by
  rw [BitVec.extractLsb'_toNat, f32Pack_toNat neg h, Nat.shiftRight_eq_div_pow]
  cases neg
  · simp; omega
  · simp; omega

theorem f32Frac_pack (neg : Bool) {c : Nat} (h : c < 2 ^ 31) :
    ((f32Pack neg c).extractLsb' 0 23).toNat = c % 2 ^ 23 := by
  rw [BitVec.extractLsb'_toNat, f32Pack_toNat neg h, Nat.shiftRight_eq_div_pow]
  cases neg
  · simp
  · simp; omega

theorem f32Finite_iff {p : F32} : f32Finite p = true ↔ (p.extractLsb' 23 8).toNat ≠ 255 := by
  simp [f32Finite, ← BitVec.toNat_inj]

theorem f32Finite_pack (neg : Bool) {c : Nat} (h : c < f32InfMagnitude) : f32Finite (f32Pack neg c) = true := by
  simp only [f32InfMagnitude] at h
  rw [f32Finite_iff, f32Field_pack neg (by omega)]
  omega

theorem f32Even_pack (neg : Bool) {c : Nat} (h : c < 2 ^ 31) : (f32Pack neg c)[0] = decide (c % 2 = 1) := by
  have : (f32Pack neg c)[0] = (f32Pack neg c).toNat.testBit 0 := rfl
  rw [this, Nat.testBit_zero, f32Pack_toNat neg h]
  cases neg
  · simp
  · simp; omega

theorem f32Mant_pack (neg : Bool) {c : Nat} (h : c < 2 ^ 31) :
    f32Mant (f32Pack neg c) = if c / 2 ^ 23 = 0 then c % 2 ^ 23 else 2 ^ 23 + c % 2 ^ 23 := by
  have hz : ((f32Pack neg c).extractLsb' 23 8 = 0#8) ↔ c / 2 ^ 23 = 0 := by
    rw [← BitVec.toNat_inj, f32Field_pack neg h]; rfl
  simp only [f32Mant, f32Frac_pack neg h, hz]

theorem f32Exp_pack (neg : Bool) {c : Nat} (h : c < 2 ^ 31) :
    f32Exp (f32Pack neg c) = if c / 2 ^ 23 = 0 then -149 else ((c / 2 ^ 23 : Nat) : Int) - 150 := by
  simp only [f32Exp, f32Field_pack neg h]

/-- `r` units of the `k`-th place above 2^-149: the value a pattern stands for (spec/40 R100). -/
theorem f32Value_pack (neg : Bool) {k r : Nat} (hr : r ≤ 2 ^ 24) (hk : k = 0 ∨ 2 ^ 23 ≤ r)
    (h : k * 2 ^ 23 + r < 2 ^ 31) :
    f32Value (f32Pack neg (k * 2 ^ 23 + r)) = (if neg then -1 else 1) * (r : ℚ) * 2 ^ ((k : Int) - 149) := by
  rw [f32Value, f32Sign_pack neg h]
  have two : (2 : ℚ) ≠ 0 := by norm_num
  rcases Nat.lt_or_ge r (2 ^ 23) with h1 | h1
  · have hk0 : k = 0 := by omega
    subst hk0
    have hm : f32Mant (f32Pack neg (0 * 2 ^ 23 + r)) = r := by
      rw [f32Mant_pack neg h, if_pos (by omega)]; omega
    have he : f32Exp (f32Pack neg (0 * 2 ^ 23 + r)) = ((0 : Nat) : Int) - 149 := by
      rw [f32Exp_pack neg h, if_pos (by omega)]; rfl
    rw [hm, he]
  · rcases Nat.lt_or_ge r (2 ^ 24) with h3 | h3
    · have hm : f32Mant (f32Pack neg (k * 2 ^ 23 + r)) = r := by
        rw [f32Mant_pack neg h, if_neg (by omega)]; omega
      have he : f32Exp (f32Pack neg (k * 2 ^ 23 + r)) = (k : Int) - 149 := by
        rw [f32Exp_pack neg h, if_neg (by omega)]; omega
      rw [hm, he]
    · have hr' : r = 2 ^ 24 := by omega
      subst hr'
      have hm : f32Mant (f32Pack neg (k * 2 ^ 23 + 2 ^ 24)) = 2 ^ 23 := by
        rw [f32Mant_pack neg h, if_neg (by omega)]; omega
      have he : f32Exp (f32Pack neg (k * 2 ^ 23 + 2 ^ 24)) = (k : Int) - 149 + 1 := by
        rw [f32Exp_pack neg h, if_neg (by omega)]; omega
      rw [hm, he, zpow_add₀ two]
      push_cast
      ring

/-- Every finite pattern is a sign, a place and a number of units of that place. -/
theorem f32_cases (p : F32) (h : f32Finite p = true) :
    ∃ k r : Nat, f32Mant p = r ∧ f32Exp p = (k : Int) - 149 ∧ r < 2 ^ 24 ∧ k ≤ 253 ∧ (k = 0 ∨ 2 ^ 23 ≤ r) := by
  have hb := (p.extractLsb' 0 23).isLt
  have hf := (p.extractLsb' 23 8).isLt
  have hne := f32Finite_iff.1 h
  have hz : (p.extractLsb' 23 8 = 0#8) ↔ (p.extractLsb' 23 8).toNat = 0 := by
    rw [← BitVec.toNat_inj]; rfl
  simp only [f32Mant, f32Exp, hz]
  generalize (p.extractLsb' 23 8).toNat = e at *
  generalize (p.extractLsb' 0 23).toNat = f at *
  by_cases h0 : e = 0
  · exact ⟨0, f, by rw [if_pos h0], by rw [if_pos h0]; rfl, by omega, by omega, .inl rfl⟩
  · exact ⟨e - 1, 2 ^ 23 + f, by rw [if_neg h0], by rw [if_neg h0]; omega, by omega, by omega, .inr (by omega)⟩

/-! ### Rounding -/

/-- Rounding to a whole number: within half a unit, and even when it is exactly half (spec/40 R101). -/
theorem divPow2Even_near (m d : Nat) :
    |(divPow2Even m d : ℚ) - m / 2 ^ d| ≤ 1 / 2 ∧
      (|(divPow2Even m d : ℚ) - m / 2 ^ d| = 1 / 2 → divPow2Even m d % 2 = 0) := by
  have hp : (0 : ℚ) < 2 ^ d := by positivity
  have hdiv : (m : ℚ) / 2 ^ d = (m / 2 ^ d : Nat) + ((m % 2 ^ d : Nat) : ℚ) / 2 ^ d := by
    rw [eq_comm, ← sub_eq_zero]
    field_simp
    have : (m : ℚ) = ((2 ^ d * (m / 2 ^ d) + m % 2 ^ d : Nat) : ℚ) := by rw [Nat.div_add_mod]
    push_cast at this
    linarith
  have hlt : m % 2 ^ d < 2 ^ d := Nat.mod_lt _ (by positivity)
  rw [hdiv]
  simp only [divPow2Even]
  generalize m / 2 ^ d = q at *
  generalize hr : m % 2 ^ d = r at *
  have hx : (0 : ℚ) ≤ (r : ℚ) / 2 ^ d := by positivity
  have hc : ((2 ^ d : Nat) : ℚ) = 2 ^ d := by push_cast; rfl
  split
  · next hup =>
    have h2 : (2 : ℚ) ^ d ≤ 2 * r := by
      rw [← hc]; exact_mod_cast (by omega : 2 ^ d ≤ 2 * r)
    have h3 : (1 : ℚ) / 2 ≤ r / 2 ^ d := by rw [div_le_div_iff₀ (by norm_num) hp]; linarith
    have h4 : (r : ℚ) / 2 ^ d < 1 := by
      rw [div_lt_one hp, ← hc]; exact_mod_cast hlt
    have e : ((q + 1 : Nat) : ℚ) - (q + (r : ℚ) / 2 ^ d) = 1 - (r : ℚ) / 2 ^ d := by push_cast; ring
    rw [e, abs_of_nonneg (by linarith)]
    refine ⟨by linarith, fun h => ?_⟩
    have : (r : ℚ) / 2 ^ d = 1 / 2 := by linarith
    rw [div_eq_div_iff hp.ne' (by norm_num)] at this
    have h5 : 2 * r = 2 ^ d := by
      have : (r : ℚ) * 2 = 1 * ((2 ^ d : Nat) : ℚ) := by rw [hc]; exact this
      exact_mod_cast (by linarith : (2 : ℚ) * r = ((2 ^ d : Nat) : ℚ))
    omega
  · next hdn =>
    have h2 : 2 * (r : ℚ) ≤ 2 ^ d := by
      rw [← hc]; exact_mod_cast (by omega : 2 * r ≤ 2 ^ d)
    have h3 : (r : ℚ) / 2 ^ d ≤ 1 / 2 := by rw [div_le_div_iff₀ hp (by norm_num)]; linarith
    have e : (q : ℚ) - (q + (r : ℚ) / 2 ^ d) = -((r : ℚ) / 2 ^ d) := by ring
    rw [e, abs_neg, abs_of_nonneg hx]
    refine ⟨h3, fun h => ?_⟩
    rw [div_eq_div_iff hp.ne' (by norm_num)] at h
    have h5 : 2 * r = 2 ^ d := by
      have : (r : ℚ) * 2 = 1 * ((2 ^ d : Nat) : ℚ) := by rw [hc]; exact h
      exact_mod_cast (by linarith : (2 : ℚ) * r = ((2 ^ d : Nat) : ℚ))
    omega

/-- `roundToPlace` in the same terms. -/
theorem roundToPlace_near (m : Nat) (e place : Int) :
    |(roundToPlace m e place : ℚ) - m * 2 ^ (e - place)| ≤ 1 / 2 ∧
      (|(roundToPlace m e place : ℚ) - m * 2 ^ (e - place)| = 1 / 2 → roundToPlace m e place % 2 = 0) := by
  unfold roundToPlace
  split
  · next h =>
    have : (2 : ℚ) ^ (e - place) = 2 ^ (e - place).toNat := by
      rw [← zpow_natCast, Int.toNat_of_nonneg (by omega)]
    rw [this]
    push_cast
    norm_num
  · next h =>
    have : (m : ℚ) * 2 ^ (e - place) = m / 2 ^ (place - e).toNat := by
      rw [← zpow_natCast, Int.toNat_of_nonneg (by omega), div_eq_mul_inv, ← zpow_neg]
      congr 2
      ring
    rw [this]
    exact divPow2Even_near m _

/-- A whole number of at most 24 significant bits is not rounded at all. -/
theorem roundToPlace_exact {m : Nat} (h : fitsF32 m = true) :
    (roundToPlace m 0 (f32Place m 0) : ℚ) = m * 2 ^ (0 - f32Place m 0) := by
  unfold roundToPlace
  split
  · next hp =>
    have : (2 : ℚ) ^ (0 - f32Place m 0) = 2 ^ (0 - f32Place m 0).toNat := by
      rw [← zpow_natCast, Int.toNat_of_nonneg (by omega)]
    rw [this]
    push_cast
    rfl
  · next hp =>
    have hpl : f32Place m 0 = (Nat.log2 m : Int) + 0 - 23 := by
      rcases max_choice ((Nat.log2 m : Int) + 0 - 23) (-149) with h' | h'
      · exact h'
      · exact absurd (h'.trans_le (by norm_num)) hp
    have hd : (f32Place m 0 - 0).toNat = Nat.log2 m - 23 := by omega
    have hmod : m % 2 ^ (Nat.log2 m - 23) = 0 := by simpa [fitsF32] using h
    have hpos : 0 < 2 ^ (Nat.log2 m - 23) := by positivity
    rw [hd, divPow2Even, hmod, if_neg (by omega),
      show (0 : Int) - f32Place m 0 = -((Nat.log2 m - 23 : ℕ) : Int) by omega, zpow_neg, zpow_natCast,
      ← div_eq_mul_inv, Nat.cast_div (Nat.dvd_of_mod_eq_zero hmod) (by positivity)]
    push_cast
    rfl

/-- What the magnitude bits of a nonzero `rne_f32` are made of: a place, and the units of that place nearest to it. -/
theorem rneMagnitude_parts {m : Nat} (hm : m ≠ 0) (e : Int) :
    ∃ (k r : Nat) (x : ℚ), (m : ℚ) * 2 ^ e = x * 2 ^ ((k : Int) - 149) ∧ 0 < x ∧ x < 2 ^ 24 ∧
      (k = 0 ∨ 2 ^ 23 ≤ x) ∧ |(r : ℚ) - x| ≤ 1 / 2 ∧ (|(r : ℚ) - x| = 1 / 2 → r % 2 = 0) ∧
      (e = 0 → fitsF32 m = true → (r : ℚ) = x) ∧ rneMagnitude m e = min (k * 2 ^ 23 + r) f32InfMagnitude := by
  have two : (2 : ℚ) ≠ 0 := by norm_num
  have hp : ((f32Place m e + 149).toNat : Int) - 149 = f32Place m e := by
    have : (-149 : Int) ≤ f32Place m e := le_max_right _ _
    omega
  have hlo : (2 : ℚ) ^ (Nat.log2 m : Int) ≤ m := by
    rw [zpow_natCast]; exact_mod_cast Nat.log2_self_le hm
  have hhi : (m : ℚ) < 2 ^ ((Nat.log2 m : Int) + 1) := by
    have : m < 2 ^ (Nat.log2 m + 1) := Nat.lt_log2_self
    have h2 : (2 : ℚ) ^ ((Nat.log2 m : Int) + 1) = ((2 ^ (Nat.log2 m + 1) : Nat) : ℚ) := by
      push_cast; rw [← zpow_natCast]; push_cast; rfl
    rw [h2]; exact_mod_cast this
  have hpos : (0 : ℚ) < 2 ^ (e - f32Place m e) := by positivity
  refine ⟨(f32Place m e + 149).toNat, roundToPlace m e (f32Place m e), m * 2 ^ (e - f32Place m e), ?_, ?_, ?_, ?_,
    (roundToPlace_near m e _).1, (roundToPlace_near m e _).2, ?_, ?_⟩
  · rw [hp, mul_assoc, ← zpow_add₀ two]
    congr 2
    ring
  · have : (0 : ℚ) < m := by exact_mod_cast Nat.pos_of_ne_zero hm
    positivity
  · calc (m : ℚ) * 2 ^ (e - f32Place m e) < 2 ^ ((Nat.log2 m : Int) + 1) * 2 ^ (e - f32Place m e) :=
          mul_lt_mul_of_pos_right hhi hpos
      _ = 2 ^ ((Nat.log2 m : Int) + 1 + (e - f32Place m e)) := (zpow_add₀ two _ _).symm
      _ ≤ 2 ^ (24 : Int) := by
          apply zpow_le_zpow_right₀ (by norm_num)
          have : (Nat.log2 m : Int) + e - 23 ≤ f32Place m e := le_max_left _ _
          omega
      _ = 2 ^ 24 := by norm_num
  · by_cases hk : f32Place m e = -149
    · left; rw [hk]; rfl
    · right
      have hpl : f32Place m e = (Nat.log2 m : Int) + e - 23 := by
        rcases max_choice ((Nat.log2 m : Int) + e - 23) (-149) with h | h
        · exact h
        · exact absurd h hk
      calc (2 : ℚ) ^ 23 = 2 ^ ((Nat.log2 m : Int) + (e - f32Place m e)) := by
            rw [hpl, show (Nat.log2 m : Int) + (e - ((Nat.log2 m : Int) + e - 23)) = (23 : Int) by ring]
            norm_num
        _ = 2 ^ (Nat.log2 m : Int) * 2 ^ (e - f32Place m e) := zpow_add₀ two _ _
        _ ≤ _ := mul_le_mul_of_nonneg_right hlo hpos.le
  · rintro rfl hf
    exact roundToPlace_exact hf
  · rw [rneMagnitude, if_neg hm]

/-- A whole number at most half a unit away is at least as near as any other. -/
theorem near_least {r : Nat} {x : ℚ} (h : |(r : ℚ) - x| ≤ 1 / 2) (j : ℤ) :
    |(r : ℚ) - x| ≤ |(j : ℚ) - x| ∧ (|(j : ℚ) - x| = |(r : ℚ) - x| → (j : ℚ) ≠ r → |(r : ℚ) - x| = 1 / 2) := by
  by_cases hj : (j : ℚ) = r
  · rw [hj]; exact ⟨le_refl _, fun _ hne => absurd rfl hne⟩
  · have h1 : (1 : ℚ) ≤ |(j : ℚ) - r| := by
      have hz : j - (r : ℤ) ≠ 0 := by
        intro h0
        obtain rfl : j = (r : ℤ) := by omega
        exact hj (Int.cast_natCast r)
      have := Int.one_le_abs hz
      exact_mod_cast this
    have h2 : |(j : ℚ) - r| ≤ |(j : ℚ) - x| + |(r : ℚ) - x| := by
      have := abs_sub_le (j : ℚ) x r
      rwa [abs_sub_comm x (r : ℚ)] at this
    exact ⟨by linarith, fun he _ => by linarith⟩

/-- The sign of a pattern as a factor. -/
theorem sign_cases (b : Bool) : (if b then (-1 : ℚ) else 1) = 1 ∨ (if b then (-1 : ℚ) else 1) = -1 := by
  cases b <;> simp

/-- Nothing among the finite values is nearer than the rounded units (spec/40 R101). -/
theorem units_nearest {k r : Nat} {x : ℚ} (hk : k = 0 ∨ 2 ^ 23 ≤ x) (h : |(r : ℚ) - x| ≤ 1 / 2)
    (p : F32) (hp : f32Finite p = true) (sg : ℚ) (hs : sg = 1 ∨ sg = -1) :
    |(r : ℚ) - x| * 2 ^ ((k : Int) - 149) ≤ |sg * f32Value p - x * 2 ^ ((k : Int) - 149)| ∧
      (|sg * f32Value p - x * 2 ^ ((k : Int) - 149)| = |(r : ℚ) - x| * 2 ^ ((k : Int) - 149) →
        sg * f32Value p ≠ r * 2 ^ ((k : Int) - 149) → |(r : ℚ) - x| = 1 / 2) := by
  have two : (2 : ℚ) ≠ 0 := by norm_num
  obtain ⟨k', r', hm, he, hr', -, -⟩ := f32_cases p hp
  have hu : (0 : ℚ) < 2 ^ ((k : Int) - 149) := by positivity
  obtain ⟨sg', hs', hv⟩ : ∃ t : ℚ, (t = 1 ∨ t = -1) ∧ sg * f32Value p = t * r' * 2 ^ ((k' : Int) - 149) := by
    rw [f32Value, hm, he]
    rcases hs with rfl | rfl <;> rcases sign_cases (f32Sign p) with h' | h' <;> rw [h']
    · exact ⟨1, .inl rfl, by ring⟩
    · exact ⟨-1, .inr rfl, by ring⟩
    · exact ⟨-1, .inr rfl, by ring⟩
    · exact ⟨1, .inl rfl, by ring⟩
  have hsplit : (2 : ℚ) ^ ((k' : Int) - 149) = 2 ^ ((k' : Int) - k) * 2 ^ ((k : Int) - 149) := by
    rw [← zpow_add₀ two]; congr 1; ring
  rw [hv, hsplit, ← mul_assoc, ← sub_mul, abs_mul, abs_of_pos hu, mul_le_mul_iff_left₀ hu,
    mul_left_inj' hu.ne', Ne, mul_left_inj' hu.ne']
  rcases Nat.lt_or_ge k' k with hlt | hge
  · have hx23 : (2 : ℚ) ^ 23 ≤ x := hk.resolve_left (by omega)
    have hy : sg' * r' * 2 ^ ((k' : Int) - k) < 2 ^ 23 := by
      have h1 : (2 : ℚ) ^ ((k' : Int) - k) ≤ 2 ^ (-1 : Int) := zpow_le_zpow_right₀ (by norm_num) (by omega)
      have h2 : (r' : ℚ) < 2 ^ 24 := by exact_mod_cast hr'
      have h0 : (0 : ℚ) < 2 ^ ((k' : Int) - k) := by positivity
      have h3 : (r' : ℚ) * 2 ^ ((k' : Int) - k) < 2 ^ 24 * 2 ^ (-1 : Int) :=
        lt_of_lt_of_le (mul_lt_mul_of_pos_right h2 h0) (mul_le_mul_of_nonneg_left h1 (by positivity))
      have h4 : (0 : ℚ) ≤ (r' : ℚ) * 2 ^ ((k' : Int) - k) := by positivity
      norm_num at h3 ⊢
      rcases hs' with rfl | rfl <;> linarith
    have hn : |(r : ℚ) - x| ≤ |(2 : ℚ) ^ 23 - x| := by
      have := (near_least h (2 ^ 23)).1
      rwa [Int.cast_pow, Int.cast_ofNat] at this
    rw [abs_of_nonpos (by linarith : (2 : ℚ) ^ 23 - x ≤ 0)] at hn
    rw [abs_of_nonpos (by linarith : sg' * r' * 2 ^ ((k' : Int) - k) - x ≤ 0)]
    exact ⟨by linarith, fun h' => absurd h' (by linarith)⟩
  · obtain ⟨j, hj⟩ : ∃ j : ℤ, sg' * r' * 2 ^ ((k' : Int) - k) = (j : ℚ) := by
      have : (2 : ℚ) ^ ((k' : Int) - k) = ((2 ^ (k' - k) : ℕ) : ℚ) := by
        push_cast
        rw [← zpow_natCast]
        congr 1
        omega
      rw [this]
      rcases hs' with rfl | rfl
      · exact ⟨r' * (2 ^ (k' - k) : ℕ), by push_cast; ring⟩
      · exact ⟨-(r' * (2 ^ (k' - k) : ℕ)), by push_cast; ring⟩
    rw [hj]
    exact near_least h j

/-- `rne_f32` is the rounding the spec describes (spec/40 R101). -/
theorem rneF32_isRne (neg : Bool) (m : Nat) (e : Int) :
    IsRne ((if neg then -1 else 1) * m * 2 ^ e) neg (rneF32 neg m e) := by
  by_cases hm : m = 0
  · subst hm
    rw [IsRne, if_pos (by simp)]
    simp [rneF32, rneMagnitude]
  obtain ⟨k, r, x, hq, hx, hx24, hk, hn, hev, -, hmag⟩ := rneMagnitude_parts hm e
  have hu : (0 : ℚ) < 2 ^ ((k : Int) - 149) := by positivity
  have hqpos : 0 < x * (2 : ℚ) ^ ((k : Int) - 149) := by positivity
  have hr24 : r ≤ 2 ^ 24 := by
    have := (abs_le.1 hn).2
    have : (r : ℚ) < ((2 ^ 24 + 1 : ℕ) : ℚ) := by push_cast; linarith
    have := Nat.cast_lt.1 this
    omega
  have hr23 : k = 0 ∨ 2 ^ 23 ≤ r := by
    rcases hk with h | h
    · exact .inl h
    · right
      have := (abs_le.1 hn).1
      have : ((2 ^ 23 : ℕ) : ℚ) < ((r + 1 : ℕ) : ℚ) := by push_cast; linarith
      have := Nat.cast_lt.1 this
      omega
  rw [mul_assoc, hq, rneF32, hmag]
  generalize hsg : (if neg then (-1 : ℚ) else 1) = sg
  have hsg' : sg = 1 ∨ sg = -1 := by rw [← hsg]; exact sign_cases neg
  have hneg : decide (sg * (x * 2 ^ ((k : Int) - 149)) < 0) = neg := by
    cases neg
    · simp only [Bool.false_eq_true, if_false] at hsg
      rw [← hsg]; simp only [decide_eq_false_iff_not]; linarith
    · simp only [if_true] at hsg
      rw [← hsg]; simp only [decide_eq_true_eq]; linarith
  have habs : |sg * (x * 2 ^ ((k : Int) - 149))| = x * 2 ^ ((k : Int) - 149) := by
    rw [abs_mul, abs_of_pos hqpos]
    rcases hsg' with rfl | rfl <;> norm_num
  have hne : sg * (x * 2 ^ ((k : Int) - 149)) ≠ 0 := by
    intro h0; rw [h0, abs_zero] at habs; exact hqpos.ne habs
  have hmono : ∀ {a b : Nat}, a ≤ b → (2 : ℚ) ^ ((a : Int) - 149) ≤ 2 ^ ((b : Int) - 149) := fun h =>
    zpow_le_zpow_right₀ (by norm_num) (by omega)
  rw [IsRne, if_neg hne, habs, hneg]
  split
  · next hlim =>
    have hbig : f32InfMagnitude ≤ k * 2 ^ 23 + r := by
      simp only [f32InfMagnitude]
      rcases Nat.lt_or_ge k 254 with h1 | h1
      · rcases Nat.lt_or_ge k 253 with h2 | h2
        · exfalso
          have hu' : (2 : ℚ) ^ ((k : Int) - 149) ≤ 2 ^ (103 : Int) := by
            simpa using hmono (a := k) (b := 252) (by omega)
          have : x * 2 ^ ((k : Int) - 149) ≤ 2 ^ 24 * 2 ^ (103 : Int) :=
            mul_le_mul hx24.le hu' hu.le (by positivity)
          have := hlim.trans this
          norm_num [f32Limit] at this
        · have hk' : k = 253 := by omega
          subst hk'
          have hu' : (2 : ℚ) ^ (((253 : ℕ) : Int) - 149) = 2 ^ 104 := by norm_num
          rw [hu'] at hlim
          have hxl : (2 : ℚ) ^ 24 - 1 / 2 ≤ x := by
            have : f32Limit = ((2 : ℚ) ^ 24 - 1 / 2) * 2 ^ 104 := by norm_num [f32Limit]
            rw [this] at hlim
            exact le_of_mul_le_mul_right hlim (by positivity)
          have hrlo : (2 : ℚ) ^ 24 - 1 ≤ r := by linarith [(abs_le.1 hn).1]
          have hrlo' : 2 ^ 24 - 1 ≤ r := by
            have : ((2 ^ 24 - 1 : ℕ) : ℚ) ≤ r := by norm_num at hrlo ⊢; linarith
            exact_mod_cast this
          rcases Nat.lt_or_ge r (2 ^ 24) with h3 | h3
          · exfalso
            have hr : r = 2 ^ 24 - 1 := by omega
            have hhalf : |(r : ℚ) - x| = 1 / 2 := by
              apply le_antisymm hn
              rw [hr] at hrlo ⊢
              rw [abs_sub_comm]
              refine le_trans ?_ (le_abs_self _)
              norm_num at hxl ⊢
              linarith
            have := hev hhalf
            omega
          · omega
      · have := hr23.resolve_left (by omega)
        omega
    rw [min_eq_right hbig]
  · next hlim =>
    push Not at hlim
    have hsmall : k * 2 ^ 23 + r < f32InfMagnitude := by
      simp only [f32InfMagnitude]
      rcases Nat.lt_or_ge k 254 with h1 | h1
      · rcases Nat.lt_or_ge k 253 with h2 | h2
        · omega
        · have hk' : k = 253 := by omega
          subst hk'
          have hu' : (2 : ℚ) ^ (((253 : ℕ) : Int) - 149) = 2 ^ 104 := by norm_num
          rw [hu'] at hlim
          have hxl : x < (2 : ℚ) ^ 24 - 1 / 2 := by
            have : f32Limit = ((2 : ℚ) ^ 24 - 1 / 2) * 2 ^ 104 := by norm_num [f32Limit]
            rw [this] at hlim
            exact lt_of_mul_lt_mul_right hlim (by positivity)
          have : (r : ℚ) < ((2 ^ 24 : ℕ) : ℚ) := by push_cast; linarith [(abs_le.1 hn).2]
          have := Nat.cast_lt.1 this
          omega
      · exfalso
        have hx23 := hk.resolve_left (by omega)
        have hu' : (2 : ℚ) ^ (105 : Int) ≤ 2 ^ ((k : Int) - 149) := by
          simpa using hmono (a := 254) (b := k) (by omega)
        have : (2 : ℚ) ^ 23 * 2 ^ (105 : Int) ≤ x * 2 ^ ((k : Int) - 149) :=
          mul_le_mul hx23 hu' (by positivity) hx.le
        have := this.trans_lt hlim
        norm_num [f32Limit] at this
    have h31 : k * 2 ^ 23 + r < 2 ^ 31 := by simp only [f32InfMagnitude] at hsmall; omega
    rw [min_eq_left hsmall.le]
    refine ⟨f32Finite_pack neg hsmall, f32Sign_pack neg h31, fun p hp => ?_⟩
    rw [f32Value_pack neg hr24 hr23 h31, hsg, f32Even_pack neg h31]
    have hflip : ∀ y : ℚ, |y - sg * (x * 2 ^ ((k : Int) - 149))| = |sg * y - x * 2 ^ ((k : Int) - 149)| := by
      intro y
      rcases hsg' with rfl | rfl
      · simp
      · rw [← abs_neg]; congr 1; ring
    have hself : |sg * (sg * r * 2 ^ ((k : Int) - 149)) - x * 2 ^ ((k : Int) - 149)| =
        |(r : ℚ) - x| * 2 ^ ((k : Int) - 149) := by
      have : sg * sg = 1 := by rcases hsg' with rfl | rfl <;> norm_num
      rw [show sg * (sg * r * 2 ^ ((k : Int) - 149)) - x * 2 ^ ((k : Int) - 149) =
        (sg * sg * r - x) * 2 ^ ((k : Int) - 149) by ring, this, one_mul, abs_mul, abs_of_pos hu]
    rw [hflip, hflip, hself]
    obtain ⟨h1, h2⟩ := units_nearest hk hn p hp sg hsg'
    refine ⟨h1, fun he hne' => ?_⟩
    have := hev (h2 he fun h0 => hne' (by
      have hss : sg * sg = 1 := by rcases hsg' with rfl | rfl <;> norm_num
      calc f32Value p = sg * sg * f32Value p := by rw [hss, one_mul]
        _ = sg * (sg * f32Value p) := by ring
        _ = _ := by rw [h0]; ring))
    simp only [decide_eq_false_iff_not]
    omega

/-- `fmul` rounds the exact product of two finite values once (spec/40 R106). -/
theorem fmul_isRne {a b : F32} (ha : f32Finite a = true) (hb : f32Finite b = true) :
    IsRne (f32Value a * f32Value b) (f32Sign a ^^ f32Sign b) (fmul a b) := by
  have h := rneF32_isRne (f32Sign a ^^ f32Sign b) (f32Mant a * f32Mant b) (f32Exp a + f32Exp b)
  have e : f32Value a * f32Value b =
      (if f32Sign a ^^ f32Sign b then -1 else 1) * ((f32Mant a * f32Mant b : ℕ) : ℚ) * 2 ^ (f32Exp a + f32Exp b) := by
    rw [f32Value, f32Value, zpow_add₀ (by norm_num)]
    push_cast
    cases f32Sign a <;> cases f32Sign b <;> simp <;> ring
  rwa [e, fmul, ha, hb, Bool.and_self, if_pos rfl]

/-- `K` is the exact quotient by 65536, rounded once (spec/40 R102). -/
theorem scaleConstant_isRne {x : F64} (h : f64Finite x = true) :
    IsRne (f64Value x / 65536) (f64Sign x) (scaleConstant x) := by
  have h' := rneF32_isRne (f64Sign x) (f64Mant x) (f64Exp x - normLog)
  have e : f64Value x / 65536 = (if f64Sign x then -1 else 1) * (f64Mant x : ℚ) * 2 ^ (f64Exp x - normLog) := by
    rw [f64Value, zpow_sub₀ (by norm_num), show (2 : ℚ) ^ ((normLog : ℕ) : ℤ) = 65536 by norm_num [normLog]]
    ring
  rwa [e, scaleConstant, if_pos h]

/-- No result of rounding is a NaN (spec/40 R110(e)). -/
theorem f32IsNaN_rneF32 (neg : Bool) (m : Nat) (e : Int) : f32IsNaN (rneF32 neg m e) = false := by
  have hle : rneMagnitude m e ≤ f32InfMagnitude := by
    unfold rneMagnitude
    split
    · exact Nat.zero_le _
    · exact min_le_right _ _
  rcases hle.lt_or_eq with h | h
  · simp [f32IsNaN, rneF32, f32Finite_pack neg h]
  · rw [rneF32, h]
    cases neg <;> decide

/-- A whole number of at most 24 significant bits is its own rounding (spec/40 R105). -/
theorem rneF32_exact (neg : Bool) {m : Nat} (hf : fitsF32 m = true) (hm : m < 2 ^ 128) :
    f32Finite (rneF32 neg m 0) = true ∧ f32Value (rneF32 neg m 0) = (if neg then -1 else 1) * (m : ℚ) := by
  by_cases h0 : m = 0
  · subst h0
    cases neg
    · exact ⟨by decide, by simp [f32Value, show f32Mant (rneF32 false 0 0) = 0 by decide]⟩
    · exact ⟨by decide, by simp [f32Value, show f32Mant (rneF32 true 0 0) = 0 by decide]⟩
  obtain ⟨k, r, x, hq, hx, hx24, hk, -, -, hex, hmag⟩ := rneMagnitude_parts h0 0
  have hrx := hex rfl hf
  rw [← hrx] at hq hx hx24 hk
  rw [zpow_zero, mul_one] at hq
  have hr24 : r < 2 ^ 24 := by exact_mod_cast hx24
  have hr23 : k = 0 ∨ 2 ^ 23 ≤ r := hk.imp_right fun h => by exact_mod_cast h
  have hsmall : k * 2 ^ 23 + r < f32InfMagnitude := by
    simp only [f32InfMagnitude]
    rcases Nat.lt_or_ge k 254 with h1 | h1
    · omega
    · exfalso
      have hk23 := hk.resolve_left (by omega)
      have hu : (2 : ℚ) ^ (105 : Int) ≤ 2 ^ ((k : Int) - 149) := zpow_le_zpow_right₀ (by norm_num) (by omega)
      have : (2 : ℚ) ^ 23 * 2 ^ (105 : Int) ≤ r * 2 ^ ((k : Int) - 149) :=
        mul_le_mul hk23 hu (by positivity) hx.le
      rw [← hq] at this
      have hm' : (m : ℚ) < 2 ^ 128 := by exact_mod_cast hm
      norm_num at this hm'
      linarith
  have h31 : k * 2 ^ 23 + r < 2 ^ 31 := by simp only [f32InfMagnitude] at hsmall; omega
  rw [rneF32, hmag, min_eq_left hsmall.le]
  exact ⟨f32Finite_pack neg hsmall, by rw [f32Value_pack neg hr24.le hr23 h31, mul_assoc, ← hq]⟩

/-- Every magnitude up to 2^24 has at most 24 significant bits. -/
theorem fitsF32_of_le {m : Nat} (h : m ≤ 2 ^ 24) : fitsF32 m = true := by
  rcases h.lt_or_eq with h' | rfl
  · by_cases h0 : m = 0
    · subst h0; decide
    · have : Nat.log2 m < 24 := (Nat.log2_lt h0).2 h'
      rw [fitsF32, show Nat.log2 m - 23 = 0 by omega, pow_zero, Nat.mod_one]
      rfl
  · decide

/-- A whole number that some finite pattern stands for fits (spec/40 R105). -/
theorem fitsF32_of_value {p : F32} {n : ℤ} (hp : f32Finite p = true) (hv : f32Value p = n) :
    fitsF32 n.natAbs = true := by
  obtain ⟨k, r, hm, he, hr, -, -⟩ := f32_cases p hp
  have two : (2 : ℚ) ≠ 0 := by norm_num
  have habs : (n.natAbs : ℚ) = r * 2 ^ ((k : Int) - 149) := by
    have hs : |(if f32Sign p then (-1 : ℚ) else 1)| = 1 := by
      rcases sign_cases (f32Sign p) with h | h <;> rw [h] <;> norm_num
    rw [Nat.cast_natAbs, Int.cast_abs, ← hv, f32Value, hm, he, abs_mul, abs_mul, hs, one_mul, Nat.abs_cast,
      abs_of_pos (zpow_pos (by norm_num) _)]
  rcases le_or_gt 149 k with hk | hk
  · have hn : n.natAbs = r * 2 ^ (k - 149) := by
      have : ((k : Int) - 149) = ((k - 149 : ℕ) : ℤ) := by omega
      rw [this, zpow_natCast] at habs
      exact_mod_cast habs
    by_cases h0 : n.natAbs = 0
    · rw [h0]; decide
    have hlt : Nat.log2 n.natAbs < 24 + (k - 149) :=
      (Nat.log2_lt h0).2 (by
        rw [hn, pow_add]
        exact Nat.mul_lt_mul_of_pos_right hr (by positivity))
    rw [fitsF32, beq_iff_eq]
    apply Nat.mod_eq_zero_of_dvd
    rw [show n.natAbs = r * 2 ^ (k - 149) from hn] at hlt ⊢
    exact (pow_dvd_pow 2 (by omega)).mul_left r
  · apply fitsF32_of_le
    have h1 : (2 : ℚ) ^ ((k : Int) - 149) ≤ 1 := zpow_le_one_of_nonpos₀ (by norm_num) (by omega)
    have h2 : (n.natAbs : ℚ) ≤ r := by
      rw [habs]
      exact mul_le_of_le_one_right (by positivity) h1
    have h3 : n.natAbs ≤ r := by exact_mod_cast h2
    omega

/-- `i2f` is exact wherever a binary32 value equals the number (spec/40 R105). -/
theorem i2f_exact {x : Word32} (hf : fitsF32 x.toInt.natAbs = true) :
    f32Finite (i2f x) = true ∧ f32Value (i2f x) = x.toInt := by
  rw [i2f, if_pos hf]
  have hx := BitVec.toInt_lt (x := x)
  have hx' := BitVec.le_toInt (x := x)
  obtain ⟨h1, h2⟩ := rneF32_exact x.msb hf (by omega)
  refine ⟨h1, h2.trans ?_⟩
  have hm := BitVec.msb_eq_toInt (x := x)
  by_cases hn : x.toInt < 0
  · rw [hm, decide_eq_true hn, if_pos rfl]
    have : (x.toInt.natAbs : ℤ) = -x.toInt := by omega
    rw [← Int.cast_natCast, this]
    push_cast
    ring
  · rw [hm, decide_eq_false hn, if_neg (by simp)]
    have : (x.toInt.natAbs : ℤ) = x.toInt := by omega
    rw [← Int.cast_natCast, this]
    ring

/-- `widen` keeps the number of a lane (spec/40 R104). -/
theorem widen_toInt (h : Lane) : (widen h).toInt = h.toInt := by
  rw [widen, widenShift, BitVec.shiftLeft_zero, BitVec.toInt_signExtend_of_le (by decide)]

/-- A lane is at most 2^15 in magnitude (spec/40 R104). -/
theorem widen_natAbs (h : Lane) : (widen h).toInt.natAbs ≤ 2 ^ 15 := by
  rw [widen_toInt]
  have h1 := BitVec.toInt_lt (x := h)
  have h2 := BitVec.le_toInt (x := h)
  omega

end Sys2Proof.Machine
end

