-- ==== Sys2Proof/Laws/Operands.lean ====
section
/-! SUPPORT. Laws/Operands.lean: the views of a vector register and of a word fit together. -/

namespace Sys2Proof.Machine

theorem extract_append_low {w : Nat} (u : BitVec w) (v : Word32) : (u ++ v).extractLsb' 0 32 = v := by
  apply BitVec.eq_of_getLsbD_eq
  intro i hi
  simp [BitVec.getLsbD_append, hi]

theorem extract_append_high {w : Nat} (u : BitVec w) (v : Word32) (n : Nat) :
    (u ++ v).extractLsb' (n + 32) 32 = u.extractLsb' n 32 := by
  apply BitVec.eq_of_getLsbD_eq
  intro i hi
  have h1 : ¬ n + 32 + i < 32 := by omega
  have h2 : n + 32 + i - 32 = n + i := by omega
  simp [BitVec.getLsbD_append, hi, h1, h2]

/-- Slot `j` of a register made of slots. -/
theorem vslot_vofSlots (f : Nat → Word32) {j : Nat} (hj : j < 8) : vslot (vofSlots f) j = f j := by
  match j, hj with
  | 0, _ => exact extract_append_low _ (f 0)
  | 1, _ => exact (extract_append_high _ (f 0) 0).trans (extract_append_low _ (f 1))
  | 2, _ => exact (extract_append_high _ (f 0) 32).trans <| (extract_append_high _ (f 1) 0).trans (extract_append_low _ _)
  | 3, _ => exact (extract_append_high _ (f 0) 64).trans <| (extract_append_high _ (f 1) 32).trans <|
      (extract_append_high _ (f 2) 0).trans (extract_append_low _ _)
  | 4, _ => exact (extract_append_high _ (f 0) 96).trans <| (extract_append_high _ (f 1) 64).trans <|
      (extract_append_high _ (f 2) 32).trans <| (extract_append_high _ (f 3) 0).trans (extract_append_low _ _)
  | 5, _ => exact (extract_append_high _ (f 0) 128).trans <| (extract_append_high _ (f 1) 96).trans <|
      (extract_append_high _ (f 2) 64).trans <| (extract_append_high _ (f 3) 32).trans <|
      (extract_append_high _ (f 4) 0).trans (extract_append_low _ _)
  | 6, _ => exact (extract_append_high _ (f 0) 160).trans <| (extract_append_high _ (f 1) 128).trans <|
      (extract_append_high _ (f 2) 96).trans <| (extract_append_high _ (f 3) 64).trans <|
      (extract_append_high _ (f 4) 32).trans <| (extract_append_high _ (f 5) 0).trans (extract_append_low _ _)
  | 7, _ => exact (extract_append_high _ (f 0) 192).trans <| (extract_append_high _ (f 1) 160).trans <|
      (extract_append_high _ (f 2) 128).trans <| (extract_append_high _ (f 3) 96).trans <|
      (extract_append_high _ (f 4) 64).trans <| (extract_append_high _ (f 5) 32).trans <|
      (extract_append_high _ (f 6) 0).trans (BitVec.extractLsb'_eq_self)

theorem vslot_vmap (f : Word32 → Word32) (v : VReg) {j : Nat} (hj : j < 8) : vslot (vmap f v) j = f (vslot v j) :=
  vslot_vofSlots _ hj

theorem vslot_vmap₂ (f : Word32 → Word32 → Word32) (u v : VReg) {j : Nat} (hj : j < 8) :
    vslot (vmap₂ f u v) j = f (vslot u j) (vslot v j) :=
  vslot_vofSlots _ hj

/-- Word slot `j` holds half-word lane `2j` in its low half (spec/00 R11). -/
theorem vlane_even (v : VReg) (j : Nat) : vlane v (2 * j) = (vslot v j).extractLsb' 0 16 := by
  apply BitVec.eq_of_getLsbD_eq
  intro i hi
  simp only [vlane, vslot, BitVec.getLsbD_extractLsb', hi, decide_true, Bool.true_and, Nat.zero_add]
  rw [decide_eq_true (by omega : i < 32), Bool.true_and]
  congr 1
  omega

/-- Word slot `j` holds half-word lane `2j + 1` in its high half (spec/00 R11). -/
theorem vlane_odd (v : VReg) (j : Nat) : vlane v (2 * j + 1) = (vslot v j).extractLsb' 16 16 := by
  apply BitVec.eq_of_getLsbD_eq
  intro i hi
  simp only [vlane, vslot, BitVec.getLsbD_extractLsb', hi, decide_true, Bool.true_and]
  rw [decide_eq_true (by omega : 16 + i < 32), Bool.true_and]
  congr 1
  omega

/-- Slots 0 to 3 of a register made of halves are the low half's. -/
theorem vslot_vofHalves_lo (lo hi : BitVec 128) {j : Nat} (hj : j < 4) :
    vslot (vofHalves lo hi) j = lo.extractLsb' (32 * j) 32 := by
  apply BitVec.eq_of_getLsbD_eq
  intro i hi'
  have h : 32 * j + i < 128 := by omega
  have e : (hi ++ lo).getLsbD (32 * j + i) = lo.getLsbD (32 * j + i) := by
    rw [BitVec.getLsbD_append, if_pos h]
  simp only [vslot, BitVec.getLsbD_extractLsb', hi', decide_true, Bool.true_and]
  exact e

/-- Slots 4 to 7 of a register made of halves are the high half's. -/
theorem vslot_vofHalves_hi (lo hi : BitVec 128) {j : Nat} (hj : j < 4) :
    vslot (vofHalves lo hi) (4 + j) = hi.extractLsb' (32 * j) 32 := by
  apply BitVec.eq_of_getLsbD_eq
  intro i hi'
  have h : ¬ 32 * (4 + j) + i < 128 := by omega
  have e : (hi ++ lo).getLsbD (32 * (4 + j) + i) = hi.getLsbD (32 * j + i) := by
    rw [BitVec.getLsbD_append, if_neg h, show 32 * (4 + j) + i - 128 = 32 * j + i by omega]
  simp only [vslot, BitVec.getLsbD_extractLsb', hi', decide_true, Bool.true_and]
  exact e

/-- A slot of a half is a slot of the register. -/
theorem vhalf_slot (v : VReg) (q : Nat) {j : Nat} (hj : j < 4) :
    (vhalf v q).extractLsb' (32 * j) 32 = vslot v (4 * q + j) := by
  apply BitVec.eq_of_getLsbD_eq
  intro i hi
  simp only [vhalf, vslot, BitVec.getLsbD_extractLsb', hi, decide_true, Bool.true_and]
  rw [decide_eq_true (by omega : 32 * j + i < 128), Bool.true_and]
  congr 1
  omega

/-- A register is what its slots are. -/
theorem eq_of_vslot {u v : VReg} (h : ∀ j, j < 8 → vslot u j = vslot v j) : u = v := by
  apply BitVec.eq_of_getLsbD_eq
  intro i hi
  have := congrArg (fun x : Word32 => x.getLsbD (i % 32)) (h (i / 32) (by omega))
  simp only [vslot, BitVec.getLsbD_extractLsb', Nat.mod_lt _ (by decide : 0 < 32), decide_true, Bool.true_and] at this
  rwa [Nat.div_add_mod] at this

/-- Byte `k` of slot `j` is byte `4j + k` of the register (spec/20 R56). -/
theorem byteOf_vslot (v : VReg) (j : Nat) {k : Nat} (hk : k < 4) : byteOf (vslot v j) k = byteOf v (4 * j + k) := by
  apply BitVec.eq_of_getLsbD_eq
  intro i hi
  simp only [byteOf, vslot, BitVec.getLsbD_extractLsb', hi, decide_true, Bool.true_and]
  rw [decide_eq_true (by omega : 8 * k + i < 32), Bool.true_and]
  congr 1
  omega

/-- The low bytes of a scalar store are the real part's (spec/20 R56). -/
theorem byteOf_samplePair_real (fr fi : F32) {k : Nat} (hk : k < 4) : byteOf (samplePair fr fi) k = byteOf fr k := by
  apply BitVec.eq_of_getLsbD_eq
  intro i hi
  simp only [byteOf, samplePair, BitVec.getLsbD_extractLsb', BitVec.getLsbD_append, hi, decide_true, Bool.true_and]
  rw [if_pos (by omega)]

/-- The high bytes of a scalar store are the imaginary part's (spec/20 R56). -/
theorem byteOf_samplePair_imag (fr fi : F32) {k : Nat} (hk : k < 4) :
    byteOf (samplePair fr fi) (4 + k) = byteOf fi k := by
  apply BitVec.eq_of_getLsbD_eq
  intro i hi
  simp only [byteOf, samplePair, BitVec.getLsbD_extractLsb', BitVec.getLsbD_append, hi, decide_true, Bool.true_and]
  rw [if_neg (by omega)]
  congr 1
  omega

/-- The word slots of a vector read are the words a scalar read returns (spec/20 R55). -/
theorem vslot_memRead32 (m : List Host.Cell) (a : Nat) {j : Nat} (hj : j < 8) :
    vslot (memRead32 m a) j = memRead4 m (a + 4 * j) := by
  apply eq_of_byteOf (n := 4)
  intro k hk
  rw [byteOf_vslot _ _ hk, byteOf_memRead32 _ _ (by omega), byteOf_memRead4 _ _ hk, Nat.add_assoc]

/-! ### The bits of the exchanges -/

/-- A bit of two lanes put together. -/
theorem lanes_bit (u v : Lane) (i : Nat) :
    (u ++ v : Word32).getLsbD i = if i < 16 then v.getLsbD i else u.getLsbD (i - 16) :=
  BitVec.getLsbD_append

/-- The low lane of two lanes put together. -/
theorem lanes_low (u v : Lane) : BitVec.extractLsb' 0 16 (u ++ v : Word32) = v := by
  apply BitVec.eq_of_getLsbD_eq
  intro i hi
  rw [BitVec.getLsbD_extractLsb', decide_eq_true hi, Bool.true_and, lanes_bit, if_pos (by omega), Nat.zero_add]

/-- The high lane of two lanes put together. -/
theorem lanes_high (u v : Lane) : BitVec.extractLsb' 16 16 (u ++ v : Word32) = u := by
  apply BitVec.eq_of_getLsbD_eq
  intro i hi
  rw [BitVec.getLsbD_extractLsb', decide_eq_true hi, Bool.true_and, lanes_bit, if_neg (by omega),
    Nat.add_sub_cancel_left]

/-- A bit of two bytes put together. -/
theorem bytes_bit (u v : Byte) (i : Nat) :
    (u ++ v : Lane).getLsbD i = if i < 8 then v.getLsbD i else u.getLsbD (i - 8) :=
  BitVec.getLsbD_append

/-- The bits of an exchange of bytes (spec/00 R10). -/
theorem bswap16_bit (h : Lane) {i : Nat} (hi : i < 16) :
    (bswap16 h).getLsbD i = h.getLsbD (if i < 8 then i + 8 else i - 8) := by
  rw [bswap16, bytes_bit]
  split
  · next hl => simp [hl, Nat.add_comm]
  · next hl => simp [show i - 8 < 8 by omega]

/-- The bits of an exchange of half-words (spec/41 R121). -/
theorem hswap_bit (w : Word32) {i : Nat} (hi : i < 32) :
    (hswap w).getLsbD i = w.getLsbD (if i < 16 then i + 16 else i - 16) := by
  rw [hswap, lanes_bit]
  split
  · next hl => simp [hl, Nat.add_comm]
  · next hl => simp [show i - 16 < 16 by omega]

/-- The bits of an exchange of bytes in both half-words (spec/41 R121). -/
theorem bswap16w_bit (w : Word32) {i : Nat} (hi : i < 32) :
    (bswap16w w).getLsbD i = w.getLsbD (if i % 16 < 8 then i + 8 else i - 8) := by
  rw [bswap16w, lanes_bit]
  split
  · next hl =>
    rw [bswap16_bit _ hl, Nat.mod_eq_of_lt hl]
    split
    · next h => simp [show i + 8 < 16 by omega]
    · next h => simp [show i - 8 < 16 by omega]
  · next hl =>
    rw [bswap16_bit _ (by omega : i - 16 < 16)]
    by_cases h : i % 16 < 8
    · rw [if_pos h, if_pos (by omega : i - 16 < 8)]
      simp only [BitVec.getLsbD_extractLsb', decide_eq_true (by omega : i - 16 + 8 < 16), Bool.true_and]
      congr 1
      omega
    · rw [if_neg h, if_neg (by omega : ¬ i - 16 < 8)]
      simp only [BitVec.getLsbD_extractLsb', decide_eq_true (by omega : i - 16 - 8 < 16), Bool.true_and]
      congr 1
      omega

/-- A bit of the whole byte reversal (spec/41 R121). -/
theorem bswap32_bit (w : Word32) {i : Nat} (hi : i < 32) :
    (bswap32 w).getLsbD i = w.getLsbD (24 - 8 * (i / 8) + i % 8) := by
  have h1 (u : BitVec 24) (v : Byte) (i : Nat) :
      (u ++ v : Word32).getLsbD i = if i < 8 then v.getLsbD i else u.getLsbD (i - 8) := BitVec.getLsbD_append
  have h2 (u : Lane) (v : Byte) (i : Nat) :
      (u ++ v : BitVec 24).getLsbD i = if i < 8 then v.getLsbD i else u.getLsbD (i - 8) := BitVec.getLsbD_append
  rw [bswap32, h1, h2, bytes_bit]
  simp only [byteOf, BitVec.getLsbD_extractLsb']
  split
  · next h => rw [decide_eq_true h, Bool.true_and]; congr 1; omega
  · split
    · next h => rw [decide_eq_true h, Bool.true_and]; congr 1; omega
    · split
      · next h => rw [decide_eq_true h, Bool.true_and]; congr 1; omega
      · rw [decide_eq_true (by omega), Bool.true_and]; congr 1; omega

end Sys2Proof.Machine
end

