-- ==== Sys2Proof/Laws/Ops.lean ====
section
/-! SUPPORT. Laws/Ops.lean: what each shared operation can do, said once. -/

namespace Sys2Proof.Machine

/-! ### The address map -/

theorem anyHolds_iff {rs : List Region} {a : Nat} :
    anyHolds rs a = true ↔ ∃ r ∈ rs, r.base ≤ a ∧ a < r.base + r.size := by
  simp [anyHolds, regionHolds]

theorem covers_eq {rs : List Region} {lo hi : Nat} :
    covers rs lo hi = true ↔ hi ≤ lo ∨ (anyHolds rs lo = true ∧
      ∀ r ∈ rs, lo < r.base + r.size → r.base + r.size < hi → anyHolds rs (r.base + r.size) = true) := by
  simp only [covers, Bool.or_eq_true, Bool.and_eq_true, decide_eq_true_eq, List.all_eq_true, Bool.not_eq_true',
    Bool.and_eq_false_iff, decide_eq_false_iff_not]
  constructor
  · rintro (h | ⟨h, hr⟩)
    · exact .inl h
    · refine .inr ⟨h, fun r m h1 h2 => ?_⟩
      rcases hr r m with (h3 | h3) | h3
      · exact absurd h1 h3
      · exact absurd h2 h3
      · exact h3
  · rintro (h | ⟨h, hr⟩)
    · exact .inl h
    · refine .inr ⟨h, fun r m => ?_⟩
      by_cases h1 : lo < r.base + r.size
      · by_cases h2 : r.base + r.size < hi
        · exact .inr (hr r m h1 h2)
        · exact .inl (.inr h2)
      · exact .inl (.inl h1)

/-- `covers` says that every address of the range is held by a region. -/
theorem covers_iff {rs : List Region} {lo hi : Nat} :
    covers rs lo hi = true ↔ ∀ a, lo ≤ a → a < hi → anyHolds rs a = true := by
  rw [covers_eq]
  constructor
  · rintro (h | ⟨h, hr⟩) a h1 h2
    · omega
    · induction a, h1 using Nat.le_induction with
      | base => exact h
      | succ a h1 ih =>
        obtain ⟨r, hm, hb, he⟩ := anyHolds_iff.1 (ih (by omega))
        by_cases hend : a + 1 < r.base + r.size
        · exact anyHolds_iff.2 ⟨r, hm, by omega, hend⟩
        · have : a + 1 = r.base + r.size := by omega
          rw [this]
          exact hr r hm (by omega) (by omega)
  · intro h
    by_cases hl : hi ≤ lo
    · exact .inl hl
    · exact .inr ⟨h lo (by omega) (by omega), fun r _ h1 h2 => h _ (by omega) h2⟩

theorem admits_iff {p : Platform} {acc : Access} {a n : Nat} :
    admits p acc a n = true ↔
      ∀ b, a ≤ b → b < a + n → ∃ r ∈ p.regions, regionGrants acc r = true ∧ regionHolds r b = true := by
  rw [admits, covers_iff]
  simp only [anyHolds, grantingRegions, List.any_eq_true, List.mem_filter]
  constructor
  · intro h b h1 h2
    obtain ⟨r, ⟨hm, hg⟩, hh⟩ := h b h1 h2
    exact ⟨r, hm, hg, hh⟩
  · intro h b h1 h2
    obtain ⟨r, hm, hg, hh⟩ := h b h1 h2
    exact ⟨r, ⟨hm, hg⟩, hh⟩

theorem touchesDevice_eq_false_iff {p : Platform} {lo hi : Nat} :
    touchesDevice p lo hi = false ↔
      ∀ b, lo ≤ b → b < hi → ∀ r ∈ p.regions, regionHolds r b = true → r.kind = .ordinary := by
  simp only [touchesDevice, List.any_eq_false, Bool.and_eq_true, beq_iff_eq, decide_eq_true_eq, not_and, not_lt,
    regionHolds]
  constructor
  · intro h b h1 h2 r hm hh
    cases hk : r.kind with
    | ordinary => rfl
    | device =>
      have := h r hm hk
      omega
  · intro h r hm hk
    by_contra hlt
    have := h (max r.base lo) (by omega) (by omega) r hm (by omega)
    rw [hk] at this
    cases this

/-- The bytes of an access are served exactly when the port admits them and none is a device's. -/
theorem bytesServed_iff {p : Platform} {acc : Access} {a n : Nat} :
    (∀ b, a ≤ b → b < a + n → byteServed p acc b) ↔ admits p acc a n = true ∧ touchesDevice p a (a + n) = false := by
  rw [admits_iff, touchesDevice_eq_false_iff]
  constructor
  · intro h
    exact ⟨fun b h1 h2 => (h b h1 h2).1, fun b h1 h2 => (h b h1 h2).2⟩
  · rintro ⟨h, g⟩ b h1 h2
    exact ⟨h b h1 h2, g b h1 h2⟩

theorem served_iff {p : Platform} {acc : Access} {a n : Nat} :
    served p acc a n ↔ a + n ≤ 2 ^ 64 ∧ admits p acc a n = true ∧ touchesDevice p a (a + n) = false := by
  rw [served, ← bytesServed_iff]
  refine and_congr_right fun _ => ⟨fun h b h1 h2 => ?_, fun h k hk => h _ (by omega) (by omega)⟩
  have := h (b - a) (by omega)
  rwa [show a + (b - a) = b by omega] at this

/-! ### An access -/

/-- A served access is performed. -/
theorem access_served {acc : Access} {a n : Nat} {s t : State} (h : served s.platform acc a n) :
    access acc a n s t = .next t := by
  obtain ⟨h1, h2, h3⟩ := served_iff.1 h
  have : ¬ 2 ^ addressBits < a + n := by simp only [addressBits]; omega
  simp [access, this, h2, h3]

/-- All an access can come to: refused past 2^64, performed when served, or else nothing at all. -/
theorem access_cases (acc : Access) (a n : Nat) (s t : State) :
    (2 ^ 64 < a + n ∧ access acc a n s t = .refused .bufferWraps) ∨
      (a + n ≤ 2 ^ 64 ∧ ¬served s.platform acc a n ∧ access acc a n s t = .next s) ∨
      (served s.platform acc a n ∧ access acc a n s t = .next t) := by
  by_cases h1 : 2 ^ 64 < a + n
  · exact .inl ⟨h1, if_pos h1⟩
  · by_cases hs : served s.platform acc a n
    · exact .inr (.inr ⟨hs, access_served hs⟩)
    · refine .inr (.inl ⟨by omega, hs, ?_⟩)
      have hc : ¬(admits s.platform acc a n && !touchesDevice s.platform a (a + n)) = true := fun hc => by
        rw [Bool.and_eq_true, Bool.not_eq_true'] at hc
        exact hs (served_iff.2 ⟨by omega, hc⟩)
      rw [access, if_neg (by rwa [addressBits]), if_neg hc]

/-- An access with a byte that is not served performs nothing (spec/60 R224, spec/93 U3). -/
theorem access_notServed {acc : Access} {a n : Nat} {s t : State} (h : a + n ≤ 2 ^ 64)
    {k : Nat} (hk : k < n) (hb : ¬byteServed s.platform acc (a + k)) : access acc a n s t = .next s := by
  rcases access_cases acc a n s t with ⟨h1, -⟩ | ⟨-, -, e⟩ | ⟨h2, -⟩
  · omega
  · exact e
  · exact absurd (h2.2 k hk) hb

/-- An access past 2^64 has no meaning (spec/93 U4). -/
theorem access_wraps {acc : Access} {a n : Nat} {s t : State} (h : 2 ^ 64 < a + n) :
    access acc a n s t = .refused .bufferWraps := by
  rw [access, if_pos (by rwa [addressBits])]

/-- An access that ends in a next state left the state as it was, or was served. -/
theorem access_next {acc : Access} {a n : Nat} {s t u : State} (h : access acc a n s t = .next u) :
    u = s ∨ (u = t ∧ served s.platform acc a n) := by
  rcases access_cases acc a n s t with ⟨_, e⟩ | ⟨_, _, e⟩ | ⟨hs, e⟩ <;> rw [e] at h
  · cases h
  · exact .inl (by injection h with h; exact h.symm)
  · exact .inr ⟨by injection h with h; exact h.symm, hs⟩

/-! ### Stores -/

/-- Once settled, issued bytes stand in memory, whether or not the port holds them back. -/
theorem settled_issueCells {s : State} (h : s.platform.buffersStores = false → s.inFlight = [])
    (cells : List Host.Cell) : settled (issueCells cells s) = memPerform (settled s) cells := by
  cases hb : s.platform.buffersStores with
  | true => simp [issueCells, hb, settled, memPerform_append]
  | false => simp [issueCells, hb, settled, h hb]

/-- A port that does not buffer holds nothing back afterwards either. -/
theorem issueCells_inFlight_of_unbuffered {s : State} (cells : List Host.Cell)
    (hb : s.platform.buffersStores = false) : (issueCells cells s).inFlight = s.inFlight := by
  simp [issueCells, hb]

/-- Issuing stored bytes changes memory and the bytes in flight only. -/
theorem issueCells_frame (cells : List Host.Cell) (s : State) :
    issueCells cells s =
      { s with mem := (issueCells cells s).mem, inFlight := (issueCells cells s).inFlight } := by
  unfold issueCells
  split <;> rfl

/-- Issuing stored bytes leaves memory alone outside them. -/
theorem memGet_issueCells (cells : List Host.Cell) (s : State) {a : Nat} (h : a ∉ cells.map Prod.fst) :
    memGet (issueCells cells s).mem a = memGet s.mem a := by
  unfold issueCells
  split
  · rfl
  · exact memGet_memPerform_of_notMem _ _ h

/-- Issuing stored bytes keeps memory canonical. -/
theorem issueCells_wf {s : State} (h : memWf s.mem = true) (cells : List Host.Cell) :
    memWf (issueCells cells s).mem = true := by
  unfold issueCells
  split
  · exact h
  · exact memPerform_wf h _

/-- The bytes in flight after an issue are the old ones, or those and the issued ones. -/
theorem issueCells_inFlight (cells : List Host.Cell) (s : State) :
    (issueCells cells s).inFlight = if s.platform.buffersStores then s.inFlight ++ cells else s.inFlight := by
  unfold issueCells
  split <;> simp_all

/-- A write changes memory, the bytes in flight and the history only. -/
theorem memWrite_frame {w : Nat} (a n : Nat) (v : BitVec w) (form : Form) (s : State) :
    memWrite a n v form s =
      { s with
        mem := (memWrite a n v form s).mem
        inFlight := (memWrite a n v form s).inFlight
        history := s.history ++ [.write a n v.toNat form] } := by
  unfold memWrite issueCells
  split <;> rfl

/-- Once settled, a written value stands in memory. -/
theorem settled_memWrite {w : Nat} {s : State} (h : s.platform.buffersStores = false → s.inFlight = []) (a n : Nat)
    (v : BitVec w) (form : Form) : settled (memWrite a n v form s) = memPerform (settled s) (storeCells a n v) :=
  settled_issueCells (s := { s with history := s.history ++ [.write a n v.toNat form] }) h _

/-- A write leaves memory alone outside its bytes. -/
theorem memGet_memWrite {w : Nat} (a n : Nat) (v : BitVec w) (form : Form) (s : State) {b : Nat}
    (hb : b < a ∨ a + n ≤ b) : memGet (memWrite a n v form s).mem b = memGet s.mem b :=
  memGet_issueCells _ _ (by rw [mem_storeCells_fst]; omega)

theorem settled_wf {s : State} (h : memWf s.mem = true) : memWf (settled s) = true := memPerform_wf h _

/-- With a port that does not buffer, a write leaves nothing in flight. -/
theorem memWrite_inFlight_of_unbuffered {w : Nat} (a n : Nat) (v : BitVec w) (form : Form) {s : State}
    (hb : s.platform.buffersStores = false) : (memWrite a n v form s).inFlight = s.inFlight := by
  rw [memWrite, issueCells_inFlight_of_unbuffered _ (by exact hb)]

/-- All the two writes of a vector store do to memory, port and history. -/
theorem vectorWrites {s : State} (hb : s.platform.buffersStores = false → s.inFlight = []) (a : Nat) (u v : VReg)
    (form : Form) {t : State} (ht : t = memWrite (a + 32) 32 v form (memWrite a 32 u form s)) :
    settled t = memPerform (settled s) (storeCells a 32 u ++ storeCells (a + 32) 32 v) ∧
      (∀ b, b < a ∨ a + 64 ≤ b → memGet t.mem b = memGet s.mem b) ∧
      (s.platform.buffersStores = false → t.inFlight = []) ∧
      t = { s with
        mem := t.mem
        inFlight := t.inFlight
        history := s.history ++ [.write a 32 u.toNat form, .write (a + 32) 32 v.toNat form] } := by
  generalize h1 : memWrite a 32 u form s = s1 at ht
  have f1 := memWrite_frame a 32 u form s
  have f2 := memWrite_frame (a + 32) 32 v form s1
  have g1 := settled_memWrite hb a 32 u form
  have n1 : s.platform.buffersStores = false → s1.inFlight = [] := fun h => by
    rw [← h1, memWrite_inFlight_of_unbuffered _ _ _ _ h, hb h]
  have o1 : ∀ b, b < a ∨ a + 32 ≤ b → memGet s1.mem b = memGet s.mem b := fun b h => by
    rw [← h1]; exact memGet_memWrite _ _ _ _ _ h
  rw [h1] at f1 g1
  have p1 : s1.platform = s.platform := by rw [f1]
  have e1 : s1.history = s.history ++ [.write a 32 u.toNat form] := by rw [f1]
  have g2 := settled_memWrite (s := s1) (by rw [p1]; exact n1) (a + 32) 32 v form
  rw [← ht] at f2 g2
  refine ⟨?_, ?_, ?_, ?_⟩
  · rw [g2, g1, memPerform_append]
  · intro b h
    rw [ht, memGet_memWrite _ _ _ _ _ (by omega), o1 b (by omega)]
  · intro h
    rw [ht, memWrite_inFlight_of_unbuffered _ _ _ _ (by rw [p1]; exact h), n1 h]
  · rw [e1, List.append_assoc] at f2
    rw [f1] at f2
    exact f2

/-! ### Port, reset, host registers -/

/-- The port performing a byte touches memory and the bytes in flight only. -/
theorem portPerform_cases (index : Nat) (s : State) :
    portPerform index s = s ∨ ∃ c ∈ s.inFlight, s.inFlight[index]? = some c ∧
      portPerform index s = { s with mem := memPut s.mem c.1 c.2, inFlight := s.inFlight.eraseIdx index } := by
  unfold portPerform
  split
  · next c h => exact .inr ⟨c, List.mem_of_getElem? h, h, rfl⟩
  · exact .inl rfl

/-- A write's event stores the written bytes. -/
theorem eventCells_write {w : Nat} (a n : Nat) (v : BitVec w) (form : Form) (h : w = 8 * n) :
    eventCells (.write a n v.toNat form) = storeCells a n v := by
  subst h
  simp [eventCells]

/-- In `S5` the current store is one write, if the port serves it. -/
theorem currentWrites_s5 {s : State} (h : s.st = .s5) (hs : served s.platform .write (storeAddr s) 8) :
    currentWrites s = [.write (storeAddr s) 8 (samplePair s.fr s.fi).toNat .unaligned] := by
  obtain ⟨h1, h2, h3⟩ := served_iff.1 hs
  simp [currentWrites, h, h2, h3, addressBits]
  omega

/-- In `V8` with a branch the current store is two writes, if the port serves them. -/
theorem currentWrites_v8 {s : State} (h : s.st = .v8) (hb : s.br ≠ .none)
    (hs : served s.platform .write (storeAddr s) 64) :
    currentWrites s = [.write (storeAddr s) 32 s.vfa.toNat (branchForm s.br),
      .write (storeAddr s + 32) 32 s.vfb.toNat (branchForm s.br)] := by
  obtain ⟨h1, h2, h3⟩ := served_iff.1 hs
  simp [currentWrites, h, hb, h2, h3, addressBits]
  omega

/-- Its bytes are those of a sample. -/
theorem currentStore_s5 {s : State} (h : s.st = .s5) (hs : served s.platform .write (storeAddr s) 8) :
    currentStore s = storeCells (storeAddr s) 8 (samplePair s.fr s.fi) := by
  rw [currentStore, currentWrites_s5 h hs, List.flatMap_singleton, eventCells_write _ _ _ _ rfl]

/-- Its bytes are those of a batch. -/
theorem currentStore_v8 {s : State} (h : s.st = .v8) (hb : s.br ≠ .none)
    (hs : served s.platform .write (storeAddr s) 64) :
    currentStore s = storeCells (storeAddr s) 32 s.vfa ++ storeCells (storeAddr s + 32) 32 s.vfb := by
  rw [currentStore, currentWrites_v8 h hb hs, List.flatMap_cons, List.flatMap_singleton, eventCells_write _ _ _ _ rfl,
    eventCells_write _ _ _ _ rfl]

/-- Only in `S5` and `V8` does a store stand to be issued. -/
theorem currentWrites_eq_nil {s : State} (h5 : s.st ≠ .s5) (h8 : s.st ≠ .v8) : currentWrites s = [] := by
  unfold currentWrites
  split <;> first | rfl | contradiction

theorem currentStore_eq_nil {s : State} (h5 : s.st ≠ .s5) (h8 : s.st ≠ .v8) : currentStore s = [] := by
  rw [currentStore, currentWrites_eq_nil h5 h8, List.flatMap_nil]

/-- The writes that have begun are the first of those issued. -/
theorem begunWrites_prefix (ws : List Event) (n : Nat) : begunWrites ws n <+: ws := by
  induction ws generalizing n with
  | nil => exact List.prefix_refl _
  | cons e rest ih =>
    unfold begunWrites
    split
    · exact List.nil_prefix
    · exact List.prefix_cons_iff.2 (.inr ⟨_, rfl, ih _⟩)

/-- Each of the first `n` bytes of issued writes belongs to one that has begun. -/
theorem mem_begunWrites {ws : List Event} {n : Nat} {c : Host.Cell} (h : c ∈ (ws.flatMap eventCells).take n) :
    ∃ e ∈ begunWrites ws n, c ∈ eventCells e := by
  induction ws generalizing n with
  | nil => simp at h
  | cons e rest ih =>
    have hn : n ≠ 0 := by rintro rfl; simp at h
    rw [List.flatMap_cons, List.take_append, List.mem_append] at h
    rw [begunWrites, if_neg hn]
    rcases h with h | h
    · exact ⟨e, List.mem_cons_self, List.mem_of_mem_take h⟩
    · obtain ⟨e', he, hc⟩ := ih h
      exact ⟨e', List.mem_cons_of_mem _ he, hc⟩

/-- Every byte that lands at a reset was in flight, or belongs to a write that the reset records (spec/20 R67). -/
theorem landing_cases (landed : List Bool) (s : State) {c : Host.Cell} (h : c ∈ landing landed s) :
    c ∈ s.inFlight ∨ ∃ e ∈ caughtWrites landed s, c ∈ eventCells e := by
  obtain ⟨x, hx, rfl⟩ := List.mem_map.1 h
  obtain ⟨i, hi, rfl⟩ := List.mem_iff_getElem.1 (List.mem_filter.1 hx).1
  rw [List.length_zip] at hi
  have hm : ((s.inFlight ++ currentStore s).zip landed)[i].1 ∈ (s.inFlight ++ currentStore s).take landed.length := by
    rw [List.getElem_zip]
    exact List.mem_take_iff_getElem.2 ⟨i, by omega, rfl⟩
  rw [List.take_append, List.mem_append] at hm
  exact hm.imp List.mem_of_mem_take mem_begunWrites

/-- Every byte that lands at a reset was in flight or part of the current store. -/
theorem landing_subset (landed : List Bool) (s : State) {c : Host.Cell} (h : c ∈ landing landed s) :
    c ∈ s.inFlight ++ currentStore s := by
  refine List.mem_append.2 ((landing_cases landed s h).imp_right ?_)
  rintro ⟨e, he, hc⟩
  exact List.mem_flatMap.2 ⟨e, (begunWrites_prefix _ _).subset he, hc⟩

/-- A write of an argument register does nothing while busy. -/
theorem writeArg_busy {a : Arg} {v : BitVec 64} {s : State} (h : s.status.busy = true) : writeArg a v s = s := by
  simp [writeArg, h]

/-- A write of an argument register touches the four of them and their marks only. -/
theorem writeArg_frame (a : Arg) (v : BitVec 64) (s : State) :
    writeArg a v s =
      { s with
        inBase := (writeArg a v s).inBase
        outBase := (writeArg a v s).outBase
        nsamps := (writeArg a v s).nsamps
        scale := (writeArg a v s).scale
        marks := (writeArg a v s).marks } := by
  unfold writeArg
  split
  · rfl
  · cases a <;> rfl

/-- A read touches the returned value and the count of free values only. -/
theorem readReg_frame (r : HostReg) (s : State) :
    readReg r s = { s with rdata := (readReg r s).rdata, draws := (readReg r s).draws } := by
  cases r with
  | ctrl => rfl
  | status => rfl
  | arg a =>
    unfold readReg
    dsimp only
    split <;> rfl

/-- All another converter's start can come to: refused where a byte is shared, else one more pair. -/
theorem otherStart_cases (p : BufferPair) (s : State) :
    (((s.status.busy = true ∧ pairsMeet (ownPair s) p = true) ∨ meetsOther p s = true) ∧
        otherStart p s = .refused .concurrentAccess) ∨
      ((s.status.busy = true → pairsMeet (ownPair s) p = false) ∧ meetsOther p s = false ∧
        otherStart p s = .next { s with others := s.others ++ [p] }) := by
  unfold otherStart
  cases s.status.busy <;> cases pairsMeet (ownPair s) p <;> cases meetsOther p s <;> simp

/-- All another converter's access can come to: nothing where it has no such buffer, refused where the byte is of this
block's running command, else performed. -/
theorem otherAccess_cases (acc : Access) (index a : Nat) (s t : State) :
    ((∀ p, s.others[index]? = some p → pairGrants acc p a = false) ∧ otherAccess acc index a s t = .next s) ∨
      ∃ p, s.others[index]? = some p ∧ pairGrants acc p a = true ∧
        ((s.status.busy = true ∧ pairHolds (ownPair s) a = true ∧
            otherAccess acc index a s t = .refused .concurrentAccess) ∨
          (¬(s.status.busy = true ∧ pairHolds (ownPair s) a = true) ∧ otherAccess acc index a s t = .next t)) := by
  unfold otherAccess
  cases s.others[index]? with
  | none => simp
  | some p => cases hg : pairGrants acc p a <;> cases s.status.busy <;> cases pairHolds (ownPair s) a <;> simp [hg]

/-- All a command can come to. -/
theorem startCommand_cases (m : Mode) (s : State) :
    (s.status.busy = true ∧ startCommand m s = .next s) ∨
      (s.status.busy = false ∧ ∃ r, admission s = some r ∧ startCommand m s = .refused r) ∨
      (s.status.busy = false ∧ admission s = none ∧ startCommand m s = .next (accepted m s)) := by
  cases hb : s.status.busy with
  | true => exact .inl ⟨rfl, by simp [startCommand, hb]⟩
  | false =>
    cases ha : admission s with
    | some r => exact .inr (.inl ⟨rfl, r, rfl, by simp [startCommand, hb, ha]⟩)
    | none => exact .inr (.inr ⟨rfl, rfl, by simp [startCommand, hb, ha]⟩)

/-! ### Admission -/

/-- Both buffers are admitted and ordinary exactly when every byte of them is served (spec/42 R142(e)). -/
theorem buffersAdmitted_iff {s : State} :
    buffersAdmitted s = true ↔ (∀ a, inInput s a = true → byteServed s.platform .read a) ∧
      ∀ a, inOutput s a = true → byteServed s.platform .write a := by
  have hin := bytesServed_iff (p := s.platform) (acc := .read) (a := s.inBase.toNat) (n := 4 * s.nsamps.toNat)
  have hout := bytesServed_iff (p := s.platform) (acc := .write) (a := s.outBase.toNat) (n := 8 * s.nsamps.toNat)
  simp only [inInput_iff, inOutput_iff, and_imp, hin, hout]
  simp only [buffersAdmitted, inStride, outStride, inEnd_eq, outEnd_eq, Bool.and_eq_true, Bool.not_eq_true']
  tauto

/-- `ADMITTED` is computed as it is stated (spec/42 R142). -/
theorem admission_eq_none_iff {s : State} : admission s = none ↔ Admitted s := by
  constructor
  · intro h
    unfold admission at h
    split_ifs at h with h1 h2 h3 h4 h5 h6 h7
    simp only [Bool.not_eq_false, Bool.not_eq_true] at h1 h2 h3 h5 h6 h7
    simp only [inEnd_eq, outEnd_eq, addressBits, not_or, not_lt] at h4
    obtain ⟨hi, ho⟩ := buffersAdmitted_iff.1 h5
    exact ⟨allWritten_iff.1 h1, h2, h3, h4.1, h4.2, hi, ho, overlap_eq_false_iff.1 h6,
      meetsOther_ownPair.1 h7⟩
  · rintro ⟨h1, h2, h3, h4, h5, h6, h7, h8, h9⟩
    have hw : ¬(2 ^ addressBits < inEnd s ∨ 2 ^ addressBits < outEnd s) := by
      simp only [inEnd_eq, outEnd_eq, addressBits]
      omega
    rw [admission, if_neg (by simp [allWritten_iff.2 h1]), if_neg (by simp [h2]), if_neg (by simp [h3]), if_neg hw,
      if_neg (by simp [buffersAdmitted_iff.2 ⟨h6, h7⟩]), if_neg (by simp [overlap_eq_false_iff.2 h8]),
      if_neg (by simp [meetsOther_ownPair.2 h9])]

/-- A command is admitted or not by its arguments, their marks, the platform and the other converters that run; fewer of
these do no harm. -/
theorem admitted_congr {s t : State} (h : Admitted s) (hm : t.marks = s.marks) (hs : t.scale = s.scale)
    (hi : t.inBase = s.inBase) (ho : t.outBase = s.outBase) (hn : t.nsamps = s.nsamps)
    (hp : t.platform = s.platform) (hx : t.others ⊆ s.others) : Admitted t := by
  have ei : ∀ a, inInput t a = inInput s a := fun a => by rw [inInput, inInput, inEnd, inEnd, hi, hn]
  have eo : ∀ a, inOutput t a = inOutput s a := fun a => by rw [inOutput, inOutput, outEnd, outEnd, ho, hn]
  obtain ⟨h1, h2, h3, h4, h5, h6, h7, h8, h9⟩ := h
  exact ⟨by rwa [hm], by rwa [hs], by rwa [hs], by rwa [hi, hn], by rwa [ho, hn], by simpa only [ei, hp] using h6,
    by simpa only [eo, hp] using h7, by simpa only [ei, eo] using h8,
    fun p hm => by simpa only [ei, eo] using h9 p (hx hm)⟩

end Sys2Proof.Machine
end

