-- ==== Sys2Proof/Laws/PerInstr.lean ====
section
/-! SUPPORT. Laws/PerInstr.lean: statements about every instruction as syntax, one lemma per constructor. -/

namespace Sys2Proof.Laws

/-- A row of spec/opcode_table.json: the width of its format, its mask and its match. -/
structure Row where
  width : Nat
  mask : Nat
  pattern : Nat
  deriving DecidableEq, Repr

/-- The row of an instruction, written out from spec/opcode_table.json. -/
def row : Instr → Row
  | .nop _ => ⟨32, 0x00000001, 0x00000000⟩
  | .convertNative => ⟨32, 0xFFFFFFFF, 0x00000001⟩
  | .convertLe => ⟨32, 0xFFFFFFFF, 0x00000003⟩
  | .convertBe => ⟨32, 0xFFFFFFFF, 0x00000005⟩
  | .cSetup => ⟨5, 0x1F, 0x01⟩
  | .cProbe => ⟨5, 0x1F, 0x02⟩
  | .cHeadtest => ⟨5, 0x1F, 0x03⟩
  | .cBulktest => ⟨5, 0x1F, 0x04⟩
  | .cTailtest => ⟨5, 0x1F, 0x05⟩
  | .cFinish => ⟨5, 0x1F, 0x06⟩
  | .cIdle => ⟨5, 0x1F, 0x07⟩
  | .sLoad => ⟨5, 0x1F, 0x08⟩
  | .sDecode => ⟨5, 0x1F, 0x09⟩
  | .sWiden => ⟨5, 0x1F, 0x0A⟩
  | .sCvt => ⟨5, 0x1F, 0x0B⟩
  | .sMul => ⟨5, 0x1F, 0x0C⟩
  | .sStore => ⟨5, 0x1F, 0x0D⟩
  | .vLoad => ⟨5, 0x1F, 0x10⟩
  | .vBswap16 => ⟨5, 0x1F, 0x11⟩
  | .vHswap => ⟨5, 0x1F, 0x12⟩
  | .vUnpacklo => ⟨5, 0x1F, 0x13⟩
  | .vUnpackhi => ⟨5, 0x1F, 0x14⟩
  | .vPerm => ⟨5, 0x1F, 0x15⟩
  | .vCvt => ⟨5, 0x1F, 0x16⟩
  | .vMul => ⟨5, 0x1F, 0x17⟩
  | .vStoreA => ⟨5, 0x1F, 0x18⟩
  | .vStoreU => ⟨5, 0x1F, 0x19⟩

/-- The width of an encoding's format and its bits as a number. -/
def wordBits : InstrWord → Nat × Nat
  | .cmd c => (32, c.toNat)
  | .uop code => (5, code.toNat)

namespace TableRow

/-- A well-formed instruction's encoding has its row's width and matches its row. -/
def Statement (i : Instr) : Prop :=
  i.wf = true → (wordBits (encode i)).1 = (row i).width ∧ (wordBits (encode i)).2 &&& (row i).mask = (row i).pattern

theorem nop (c : Word32) : Statement (.nop c) := by
  intro h
  refine ⟨rfl, ?_⟩
  have h0 : c.toNat.testBit 0 = false := by
    rw [BitVec.testBit_toNat]
    simpa [Instr.wf] using h
  show c.toNat &&& 1 = 0
  rw [Nat.and_one_is_mod]
  simpa [Nat.testBit_zero] using h0

theorem convertNative : Statement .convertNative := fun _ => by decide
theorem convertLe : Statement .convertLe := fun _ => by decide
theorem convertBe : Statement .convertBe := fun _ => by decide
theorem cSetup : Statement .cSetup := fun _ => by decide
theorem cProbe : Statement .cProbe := fun _ => by decide
theorem cHeadtest : Statement .cHeadtest := fun _ => by decide
theorem cBulktest : Statement .cBulktest := fun _ => by decide
theorem cTailtest : Statement .cTailtest := fun _ => by decide
theorem cFinish : Statement .cFinish := fun _ => by decide
theorem cIdle : Statement .cIdle := fun _ => by decide
theorem sLoad : Statement .sLoad := fun _ => by decide
theorem sDecode : Statement .sDecode := fun _ => by decide
theorem sWiden : Statement .sWiden := fun _ => by decide
theorem sCvt : Statement .sCvt := fun _ => by decide
theorem sMul : Statement .sMul := fun _ => by decide
theorem sStore : Statement .sStore := fun _ => by decide
theorem vLoad : Statement .vLoad := fun _ => by decide
theorem vBswap16 : Statement .vBswap16 := fun _ => by decide
theorem vHswap : Statement .vHswap := fun _ => by decide
theorem vUnpacklo : Statement .vUnpacklo := fun _ => by decide
theorem vUnpackhi : Statement .vUnpackhi := fun _ => by decide
theorem vPerm : Statement .vPerm := fun _ => by decide
theorem vCvt : Statement .vCvt := fun _ => by decide
theorem vMul : Statement .vMul := fun _ => by decide
theorem vStoreA : Statement .vStoreA := fun _ => by decide
theorem vStoreU : Statement .vStoreU := fun _ => by decide

end TableRow

end Sys2Proof.Laws
end

