-- ==== Sys2Proof/Laws/State.lean ====
section
/-! SUPPORT. Laws/State.lean: beside State, one lemma per field per update: what each named update does to each field. -/

namespace Sys2Proof.Machine

/-! ### recordRead -/

@[simp] theorem recordRead_status (a n : Nat) (s : State) : (recordRead a n s).status = s.status := rfl
@[simp] theorem recordRead_inBase (a n : Nat) (s : State) : (recordRead a n s).inBase = s.inBase := rfl
@[simp] theorem recordRead_outBase (a n : Nat) (s : State) : (recordRead a n s).outBase = s.outBase := rfl
@[simp] theorem recordRead_nsamps (a n : Nat) (s : State) : (recordRead a n s).nsamps = s.nsamps := rfl
@[simp] theorem recordRead_scale (a n : Nat) (s : State) : (recordRead a n s).scale = s.scale := rfl
@[simp] theorem recordRead_marks (a n : Nat) (s : State) : (recordRead a n s).marks = s.marks := rfl
@[simp] theorem recordRead_st (a n : Nat) (s : State) : (recordRead a n s).st = s.st := rfl
@[simp] theorem recordRead_ret (a n : Nat) (s : State) : (recordRead a n s).ret = s.ret := rfl
@[simp] theorem recordRead_i (a n : Nat) (s : State) : (recordRead a n s).i = s.i := rfl
@[simp] theorem recordRead_m (a n : Nat) (s : State) : (recordRead a n s).m = s.m := rfl
@[simp] theorem recordRead_br (a n : Nat) (s : State) : (recordRead a n s).br = s.br := rfl
@[simp] theorem recordRead_k (a n : Nat) (s : State) : (recordRead a n s).k = s.k := rfl
@[simp] theorem recordRead_w (a n : Nat) (s : State) : (recordRead a n s).w = s.w := rfl
@[simp] theorem recordRead_rr (a n : Nat) (s : State) : (recordRead a n s).rr = s.rr := rfl
@[simp] theorem recordRead_ri (a n : Nat) (s : State) : (recordRead a n s).ri = s.ri := rfl
@[simp] theorem recordRead_xr (a n : Nat) (s : State) : (recordRead a n s).xr = s.xr := rfl
@[simp] theorem recordRead_xi (a n : Nat) (s : State) : (recordRead a n s).xi = s.xi := rfl
@[simp] theorem recordRead_fr (a n : Nat) (s : State) : (recordRead a n s).fr = s.fr := rfl
@[simp] theorem recordRead_fi (a n : Nat) (s : State) : (recordRead a n s).fi = s.fi := rfl
@[simp] theorem recordRead_vz (a n : Nat) (s : State) : (recordRead a n s).vz = s.vz := rfl
@[simp] theorem recordRead_vk (a n : Nat) (s : State) : (recordRead a n s).vk = s.vk := rfl
@[simp] theorem recordRead_vin (a n : Nat) (s : State) : (recordRead a n s).vin = s.vin := rfl
@[simp] theorem recordRead_vlo (a n : Nat) (s : State) : (recordRead a n s).vlo = s.vlo := rfl
@[simp] theorem recordRead_vhi (a n : Nat) (s : State) : (recordRead a n s).vhi = s.vhi := rfl
@[simp] theorem recordRead_va (a n : Nat) (s : State) : (recordRead a n s).va = s.va := rfl
@[simp] theorem recordRead_vb (a n : Nat) (s : State) : (recordRead a n s).vb = s.vb := rfl
@[simp] theorem recordRead_vfa (a n : Nat) (s : State) : (recordRead a n s).vfa = s.vfa := rfl
@[simp] theorem recordRead_vfb (a n : Nat) (s : State) : (recordRead a n s).vfb = s.vfb := rfl
@[simp] theorem recordRead_mem (a n : Nat) (s : State) : (recordRead a n s).mem = s.mem := rfl
@[simp] theorem recordRead_platform (a n : Nat) (s : State) : (recordRead a n s).platform = s.platform := rfl
@[simp] theorem recordRead_others (a n : Nat) (s : State) : (recordRead a n s).others = s.others := rfl
@[simp] theorem recordRead_inFlight (a n : Nat) (s : State) : (recordRead a n s).inFlight = s.inFlight := rfl
@[simp] theorem recordRead_turns (a n : Nat) (s : State) : (recordRead a n s).turns = s.turns := rfl
@[simp] theorem recordRead_history (a n : Nat) (s : State) :
    (recordRead a n s).history = s.history ++ [.read a n] := rfl
@[simp] theorem recordRead_rdata (a n : Nat) (s : State) : (recordRead a n s).rdata = s.rdata := rfl
@[simp] theorem recordRead_draws (a n : Nat) (s : State) : (recordRead a n s).draws = s.draws := rfl

/-! ### accepted -/

@[simp] theorem accepted_status (m : Mode) (s : State) : (accepted m s).status = ⟨true, false⟩ := rfl
@[simp] theorem accepted_inBase (m : Mode) (s : State) : (accepted m s).inBase = s.inBase := rfl
@[simp] theorem accepted_outBase (m : Mode) (s : State) : (accepted m s).outBase = s.outBase := rfl
@[simp] theorem accepted_nsamps (m : Mode) (s : State) : (accepted m s).nsamps = s.nsamps := rfl
@[simp] theorem accepted_scale (m : Mode) (s : State) : (accepted m s).scale = s.scale := rfl
@[simp] theorem accepted_marks (m : Mode) (s : State) : (accepted m s).marks = s.marks := rfl
@[simp] theorem accepted_st (m : Mode) (s : State) : (accepted m s).st = .setup := rfl
@[simp] theorem accepted_ret (m : Mode) (s : State) : (accepted m s).ret = s.ret := rfl
@[simp] theorem accepted_i (m : Mode) (s : State) : (accepted m s).i = s.i := rfl
@[simp] theorem accepted_m (m : Mode) (s : State) : (accepted m s).m = m := rfl
@[simp] theorem accepted_br (m : Mode) (s : State) : (accepted m s).br = s.br := rfl
@[simp] theorem accepted_k (m : Mode) (s : State) : (accepted m s).k = s.k := rfl
@[simp] theorem accepted_w (m : Mode) (s : State) : (accepted m s).w = s.w := rfl
@[simp] theorem accepted_rr (m : Mode) (s : State) : (accepted m s).rr = s.rr := rfl
@[simp] theorem accepted_ri (m : Mode) (s : State) : (accepted m s).ri = s.ri := rfl
@[simp] theorem accepted_xr (m : Mode) (s : State) : (accepted m s).xr = s.xr := rfl
@[simp] theorem accepted_xi (m : Mode) (s : State) : (accepted m s).xi = s.xi := rfl
@[simp] theorem accepted_fr (m : Mode) (s : State) : (accepted m s).fr = s.fr := rfl
@[simp] theorem accepted_fi (m : Mode) (s : State) : (accepted m s).fi = s.fi := rfl
@[simp] theorem accepted_vz (m : Mode) (s : State) : (accepted m s).vz = s.vz := rfl
@[simp] theorem accepted_vk (m : Mode) (s : State) : (accepted m s).vk = s.vk := rfl
@[simp] theorem accepted_vin (m : Mode) (s : State) : (accepted m s).vin = s.vin := rfl
@[simp] theorem accepted_vlo (m : Mode) (s : State) : (accepted m s).vlo = s.vlo := rfl
@[simp] theorem accepted_vhi (m : Mode) (s : State) : (accepted m s).vhi = s.vhi := rfl
@[simp] theorem accepted_va (m : Mode) (s : State) : (accepted m s).va = s.va := rfl
@[simp] theorem accepted_vb (m : Mode) (s : State) : (accepted m s).vb = s.vb := rfl
@[simp] theorem accepted_vfa (m : Mode) (s : State) : (accepted m s).vfa = s.vfa := rfl
@[simp] theorem accepted_vfb (m : Mode) (s : State) : (accepted m s).vfb = s.vfb := rfl
@[simp] theorem accepted_mem (m : Mode) (s : State) : (accepted m s).mem = s.mem := rfl
@[simp] theorem accepted_platform (m : Mode) (s : State) : (accepted m s).platform = s.platform := rfl
@[simp] theorem accepted_others (m : Mode) (s : State) : (accepted m s).others = s.others := rfl
@[simp] theorem accepted_inFlight (m : Mode) (s : State) : (accepted m s).inFlight = s.inFlight := rfl
@[simp] theorem accepted_turns (m : Mode) (s : State) : (accepted m s).turns = s.turns := rfl
@[simp] theorem accepted_history (m : Mode) (s : State) : (accepted m s).history = s.history := rfl
@[simp] theorem accepted_rdata (m : Mode) (s : State) : (accepted m s).rdata = s.rdata := rfl
@[simp] theorem accepted_draws (m : Mode) (s : State) : (accepted m s).draws = s.draws := rfl

/-! ### resetWith -/

@[simp] theorem resetWith_status (l : List Bool) (s : State) : (resetWith l s).status = State.reset.status := rfl
@[simp] theorem resetWith_inBase (l : List Bool) (s : State) : (resetWith l s).inBase = State.reset.inBase := rfl
@[simp] theorem resetWith_outBase (l : List Bool) (s : State) : (resetWith l s).outBase = State.reset.outBase := rfl
@[simp] theorem resetWith_nsamps (l : List Bool) (s : State) : (resetWith l s).nsamps = State.reset.nsamps := rfl
@[simp] theorem resetWith_scale (l : List Bool) (s : State) : (resetWith l s).scale = State.reset.scale := rfl
@[simp] theorem resetWith_marks (l : List Bool) (s : State) : (resetWith l s).marks = State.reset.marks := rfl
@[simp] theorem resetWith_st (l : List Bool) (s : State) : (resetWith l s).st = State.reset.st := rfl
@[simp] theorem resetWith_ret (l : List Bool) (s : State) : (resetWith l s).ret = State.reset.ret := rfl
@[simp] theorem resetWith_i (l : List Bool) (s : State) : (resetWith l s).i = State.reset.i := rfl
@[simp] theorem resetWith_m (l : List Bool) (s : State) : (resetWith l s).m = State.reset.m := rfl
@[simp] theorem resetWith_br (l : List Bool) (s : State) : (resetWith l s).br = State.reset.br := rfl
@[simp] theorem resetWith_k (l : List Bool) (s : State) : (resetWith l s).k = State.reset.k := rfl
@[simp] theorem resetWith_w (l : List Bool) (s : State) : (resetWith l s).w = State.reset.w := rfl
@[simp] theorem resetWith_rr (l : List Bool) (s : State) : (resetWith l s).rr = State.reset.rr := rfl
@[simp] theorem resetWith_ri (l : List Bool) (s : State) : (resetWith l s).ri = State.reset.ri := rfl
@[simp] theorem resetWith_xr (l : List Bool) (s : State) : (resetWith l s).xr = State.reset.xr := rfl
@[simp] theorem resetWith_xi (l : List Bool) (s : State) : (resetWith l s).xi = State.reset.xi := rfl
@[simp] theorem resetWith_fr (l : List Bool) (s : State) : (resetWith l s).fr = State.reset.fr := rfl
@[simp] theorem resetWith_fi (l : List Bool) (s : State) : (resetWith l s).fi = State.reset.fi := rfl
@[simp] theorem resetWith_vz (l : List Bool) (s : State) : (resetWith l s).vz = State.reset.vz := rfl
@[simp] theorem resetWith_vk (l : List Bool) (s : State) : (resetWith l s).vk = State.reset.vk := rfl
@[simp] theorem resetWith_vin (l : List Bool) (s : State) : (resetWith l s).vin = State.reset.vin := rfl
@[simp] theorem resetWith_vlo (l : List Bool) (s : State) : (resetWith l s).vlo = State.reset.vlo := rfl
@[simp] theorem resetWith_vhi (l : List Bool) (s : State) : (resetWith l s).vhi = State.reset.vhi := rfl
@[simp] theorem resetWith_va (l : List Bool) (s : State) : (resetWith l s).va = State.reset.va := rfl
@[simp] theorem resetWith_vb (l : List Bool) (s : State) : (resetWith l s).vb = State.reset.vb := rfl
@[simp] theorem resetWith_vfa (l : List Bool) (s : State) : (resetWith l s).vfa = State.reset.vfa := rfl
@[simp] theorem resetWith_vfb (l : List Bool) (s : State) : (resetWith l s).vfb = State.reset.vfb := rfl
@[simp] theorem resetWith_mem (l : List Bool) (s : State) : (resetWith l s).mem = memPerform s.mem (landing l s) := rfl
@[simp] theorem resetWith_platform (l : List Bool) (s : State) : (resetWith l s).platform = s.platform := rfl
@[simp] theorem resetWith_others (l : List Bool) (s : State) : (resetWith l s).others = s.others := rfl
@[simp] theorem resetWith_inFlight (l : List Bool) (s : State) : (resetWith l s).inFlight = State.reset.inFlight := rfl
@[simp] theorem resetWith_turns (l : List Bool) (s : State) : (resetWith l s).turns = s.turns := rfl
@[simp] theorem resetWith_history (l : List Bool) (s : State) :
    (resetWith l s).history = s.history ++ caughtWrites l s := rfl
@[simp] theorem resetWith_rdata (l : List Bool) (s : State) : (resetWith l s).rdata = s.rdata := rfl
@[simp] theorem resetWith_draws (l : List Bool) (s : State) : (resetWith l s).draws = s.draws := rfl

/-! ### issueCells: all but memory and the bytes in flight -/

@[simp] theorem issueCells_status (c : List Host.Cell) (s : State) : (issueCells c s).status = s.status := by
  unfold issueCells; split <;> rfl
@[simp] theorem issueCells_inBase (c : List Host.Cell) (s : State) : (issueCells c s).inBase = s.inBase := by
  unfold issueCells; split <;> rfl
@[simp] theorem issueCells_outBase (c : List Host.Cell) (s : State) : (issueCells c s).outBase = s.outBase := by
  unfold issueCells; split <;> rfl
@[simp] theorem issueCells_nsamps (c : List Host.Cell) (s : State) : (issueCells c s).nsamps = s.nsamps := by
  unfold issueCells; split <;> rfl
@[simp] theorem issueCells_scale (c : List Host.Cell) (s : State) : (issueCells c s).scale = s.scale := by
  unfold issueCells; split <;> rfl
@[simp] theorem issueCells_marks (c : List Host.Cell) (s : State) : (issueCells c s).marks = s.marks := by
  unfold issueCells; split <;> rfl
@[simp] theorem issueCells_st (c : List Host.Cell) (s : State) : (issueCells c s).st = s.st := by
  unfold issueCells; split <;> rfl
@[simp] theorem issueCells_ret (c : List Host.Cell) (s : State) : (issueCells c s).ret = s.ret := by
  unfold issueCells; split <;> rfl
@[simp] theorem issueCells_i (c : List Host.Cell) (s : State) : (issueCells c s).i = s.i := by
  unfold issueCells; split <;> rfl
@[simp] theorem issueCells_m (c : List Host.Cell) (s : State) : (issueCells c s).m = s.m := by
  unfold issueCells; split <;> rfl
@[simp] theorem issueCells_br (c : List Host.Cell) (s : State) : (issueCells c s).br = s.br := by
  unfold issueCells; split <;> rfl
@[simp] theorem issueCells_k (c : List Host.Cell) (s : State) : (issueCells c s).k = s.k := by
  unfold issueCells; split <;> rfl
@[simp] theorem issueCells_w (c : List Host.Cell) (s : State) : (issueCells c s).w = s.w := by
  unfold issueCells; split <;> rfl
@[simp] theorem issueCells_rr (c : List Host.Cell) (s : State) : (issueCells c s).rr = s.rr := by
  unfold issueCells; split <;> rfl
@[simp] theorem issueCells_ri (c : List Host.Cell) (s : State) : (issueCells c s).ri = s.ri := by
  unfold issueCells; split <;> rfl
@[simp] theorem issueCells_xr (c : List Host.Cell) (s : State) : (issueCells c s).xr = s.xr := by
  unfold issueCells; split <;> rfl
@[simp] theorem issueCells_xi (c : List Host.Cell) (s : State) : (issueCells c s).xi = s.xi := by
  unfold issueCells; split <;> rfl
@[simp] theorem issueCells_fr (c : List Host.Cell) (s : State) : (issueCells c s).fr = s.fr := by
  unfold issueCells; split <;> rfl
@[simp] theorem issueCells_fi (c : List Host.Cell) (s : State) : (issueCells c s).fi = s.fi := by
  unfold issueCells; split <;> rfl
@[simp] theorem issueCells_vz (c : List Host.Cell) (s : State) : (issueCells c s).vz = s.vz := by
  unfold issueCells; split <;> rfl
@[simp] theorem issueCells_vk (c : List Host.Cell) (s : State) : (issueCells c s).vk = s.vk := by
  unfold issueCells; split <;> rfl
@[simp] theorem issueCells_vin (c : List Host.Cell) (s : State) : (issueCells c s).vin = s.vin := by
  unfold issueCells; split <;> rfl
@[simp] theorem issueCells_vlo (c : List Host.Cell) (s : State) : (issueCells c s).vlo = s.vlo := by
  unfold issueCells; split <;> rfl
@[simp] theorem issueCells_vhi (c : List Host.Cell) (s : State) : (issueCells c s).vhi = s.vhi := by
  unfold issueCells; split <;> rfl
@[simp] theorem issueCells_va (c : List Host.Cell) (s : State) : (issueCells c s).va = s.va := by
  unfold issueCells; split <;> rfl
@[simp] theorem issueCells_vb (c : List Host.Cell) (s : State) : (issueCells c s).vb = s.vb := by
  unfold issueCells; split <;> rfl
@[simp] theorem issueCells_vfa (c : List Host.Cell) (s : State) : (issueCells c s).vfa = s.vfa := by
  unfold issueCells; split <;> rfl
@[simp] theorem issueCells_vfb (c : List Host.Cell) (s : State) : (issueCells c s).vfb = s.vfb := by
  unfold issueCells; split <;> rfl
@[simp] theorem issueCells_platform (c : List Host.Cell) (s : State) : (issueCells c s).platform = s.platform := by
  unfold issueCells; split <;> rfl
@[simp] theorem issueCells_others (c : List Host.Cell) (s : State) : (issueCells c s).others = s.others := by
  unfold issueCells; split <;> rfl
@[simp] theorem issueCells_turns (c : List Host.Cell) (s : State) : (issueCells c s).turns = s.turns := by
  unfold issueCells; split <;> rfl
@[simp] theorem issueCells_history (c : List Host.Cell) (s : State) : (issueCells c s).history = s.history := by
  unfold issueCells; split <;> rfl
@[simp] theorem issueCells_rdata (c : List Host.Cell) (s : State) : (issueCells c s).rdata = s.rdata := by
  unfold issueCells; split <;> rfl
@[simp] theorem issueCells_draws (c : List Host.Cell) (s : State) : (issueCells c s).draws = s.draws := by
  unfold issueCells; split <;> rfl

/-! ### memWrite: all but memory and the bytes in flight -/

@[simp] theorem memWrite_status {w : Nat} (a n : Nat) (v : BitVec w) (o : Form) (s : State) :
    (memWrite a n v o s).status = s.status := by
  simp [memWrite]
@[simp] theorem memWrite_inBase {w : Nat} (a n : Nat) (v : BitVec w) (o : Form) (s : State) :
    (memWrite a n v o s).inBase = s.inBase := by
  simp [memWrite]
@[simp] theorem memWrite_outBase {w : Nat} (a n : Nat) (v : BitVec w) (o : Form) (s : State) :
    (memWrite a n v o s).outBase = s.outBase := by
  simp [memWrite]
@[simp] theorem memWrite_nsamps {w : Nat} (a n : Nat) (v : BitVec w) (o : Form) (s : State) :
    (memWrite a n v o s).nsamps = s.nsamps := by
  simp [memWrite]
@[simp] theorem memWrite_scale {w : Nat} (a n : Nat) (v : BitVec w) (o : Form) (s : State) :
    (memWrite a n v o s).scale = s.scale := by
  simp [memWrite]
@[simp] theorem memWrite_marks {w : Nat} (a n : Nat) (v : BitVec w) (o : Form) (s : State) :
    (memWrite a n v o s).marks = s.marks := by
  simp [memWrite]
@[simp] theorem memWrite_st {w : Nat} (a n : Nat) (v : BitVec w) (o : Form) (s : State) :
    (memWrite a n v o s).st = s.st := by
  simp [memWrite]
@[simp] theorem memWrite_ret {w : Nat} (a n : Nat) (v : BitVec w) (o : Form) (s : State) :
    (memWrite a n v o s).ret = s.ret := by
  simp [memWrite]
@[simp] theorem memWrite_i {w : Nat} (a n : Nat) (v : BitVec w) (o : Form) (s : State) :
    (memWrite a n v o s).i = s.i := by
  simp [memWrite]
@[simp] theorem memWrite_m {w : Nat} (a n : Nat) (v : BitVec w) (o : Form) (s : State) :
    (memWrite a n v o s).m = s.m := by
  simp [memWrite]
@[simp] theorem memWrite_br {w : Nat} (a n : Nat) (v : BitVec w) (o : Form) (s : State) :
    (memWrite a n v o s).br = s.br := by
  simp [memWrite]
@[simp] theorem memWrite_k {w : Nat} (a n : Nat) (v : BitVec w) (o : Form) (s : State) :
    (memWrite a n v o s).k = s.k := by
  simp [memWrite]
@[simp] theorem memWrite_w {w : Nat} (a n : Nat) (v : BitVec w) (o : Form) (s : State) :
    (memWrite a n v o s).w = s.w := by
  simp [memWrite]
@[simp] theorem memWrite_rr {w : Nat} (a n : Nat) (v : BitVec w) (o : Form) (s : State) :
    (memWrite a n v o s).rr = s.rr := by
  simp [memWrite]
@[simp] theorem memWrite_ri {w : Nat} (a n : Nat) (v : BitVec w) (o : Form) (s : State) :
    (memWrite a n v o s).ri = s.ri := by
  simp [memWrite]
@[simp] theorem memWrite_xr {w : Nat} (a n : Nat) (v : BitVec w) (o : Form) (s : State) :
    (memWrite a n v o s).xr = s.xr := by
  simp [memWrite]
@[simp] theorem memWrite_xi {w : Nat} (a n : Nat) (v : BitVec w) (o : Form) (s : State) :
    (memWrite a n v o s).xi = s.xi := by
  simp [memWrite]
@[simp] theorem memWrite_fr {w : Nat} (a n : Nat) (v : BitVec w) (o : Form) (s : State) :
    (memWrite a n v o s).fr = s.fr := by
  simp [memWrite]
@[simp] theorem memWrite_fi {w : Nat} (a n : Nat) (v : BitVec w) (o : Form) (s : State) :
    (memWrite a n v o s).fi = s.fi := by
  simp [memWrite]
@[simp] theorem memWrite_vz {w : Nat} (a n : Nat) (v : BitVec w) (o : Form) (s : State) :
    (memWrite a n v o s).vz = s.vz := by
  simp [memWrite]
@[simp] theorem memWrite_vk {w : Nat} (a n : Nat) (v : BitVec w) (o : Form) (s : State) :
    (memWrite a n v o s).vk = s.vk := by
  simp [memWrite]
@[simp] theorem memWrite_vin {w : Nat} (a n : Nat) (v : BitVec w) (o : Form) (s : State) :
    (memWrite a n v o s).vin = s.vin := by
  simp [memWrite]
@[simp] theorem memWrite_vlo {w : Nat} (a n : Nat) (v : BitVec w) (o : Form) (s : State) :
    (memWrite a n v o s).vlo = s.vlo := by
  simp [memWrite]
@[simp] theorem memWrite_vhi {w : Nat} (a n : Nat) (v : BitVec w) (o : Form) (s : State) :
    (memWrite a n v o s).vhi = s.vhi := by
  simp [memWrite]
@[simp] theorem memWrite_va {w : Nat} (a n : Nat) (v : BitVec w) (o : Form) (s : State) :
    (memWrite a n v o s).va = s.va := by
  simp [memWrite]
@[simp] theorem memWrite_vb {w : Nat} (a n : Nat) (v : BitVec w) (o : Form) (s : State) :
    (memWrite a n v o s).vb = s.vb := by
  simp [memWrite]
@[simp] theorem memWrite_vfa {w : Nat} (a n : Nat) (v : BitVec w) (o : Form) (s : State) :
    (memWrite a n v o s).vfa = s.vfa := by
  simp [memWrite]
@[simp] theorem memWrite_vfb {w : Nat} (a n : Nat) (v : BitVec w) (o : Form) (s : State) :
    (memWrite a n v o s).vfb = s.vfb := by
  simp [memWrite]
@[simp] theorem memWrite_platform {w : Nat} (a n : Nat) (v : BitVec w) (o : Form) (s : State) :
    (memWrite a n v o s).platform = s.platform := by
  simp [memWrite]
@[simp] theorem memWrite_others {w : Nat} (a n : Nat) (v : BitVec w) (o : Form) (s : State) :
    (memWrite a n v o s).others = s.others := by
  simp [memWrite]
@[simp] theorem memWrite_turns {w : Nat} (a n : Nat) (v : BitVec w) (o : Form) (s : State) :
    (memWrite a n v o s).turns = s.turns := by
  simp [memWrite]
@[simp] theorem memWrite_history {w : Nat} (a n : Nat) (v : BitVec w) (o : Form) (s : State) :
    (memWrite a n v o s).history = s.history ++ [.write a n v.toNat o] := by
  simp [memWrite]
@[simp] theorem memWrite_rdata {w : Nat} (a n : Nat) (v : BitVec w) (o : Form) (s : State) :
    (memWrite a n v o s).rdata = s.rdata := by
  simp [memWrite]
@[simp] theorem memWrite_draws {w : Nat} (a n : Nat) (v : BitVec w) (o : Form) (s : State) :
    (memWrite a n v o s).draws = s.draws := by
  simp [memWrite]

/-! ### portPerform: all but memory and the bytes in flight -/

@[simp] theorem portPerform_status (k : Nat) (s : State) : (portPerform k s).status = s.status := by
  unfold portPerform; split <;> rfl
@[simp] theorem portPerform_inBase (k : Nat) (s : State) : (portPerform k s).inBase = s.inBase := by
  unfold portPerform; split <;> rfl
@[simp] theorem portPerform_outBase (k : Nat) (s : State) : (portPerform k s).outBase = s.outBase := by
  unfold portPerform; split <;> rfl
@[simp] theorem portPerform_nsamps (k : Nat) (s : State) : (portPerform k s).nsamps = s.nsamps := by
  unfold portPerform; split <;> rfl
@[simp] theorem portPerform_scale (k : Nat) (s : State) : (portPerform k s).scale = s.scale := by
  unfold portPerform; split <;> rfl
@[simp] theorem portPerform_marks (k : Nat) (s : State) : (portPerform k s).marks = s.marks := by
  unfold portPerform; split <;> rfl
@[simp] theorem portPerform_st (k : Nat) (s : State) : (portPerform k s).st = s.st := by
  unfold portPerform; split <;> rfl
@[simp] theorem portPerform_ret (k : Nat) (s : State) : (portPerform k s).ret = s.ret := by
  unfold portPerform; split <;> rfl
@[simp] theorem portPerform_i (k : Nat) (s : State) : (portPerform k s).i = s.i := by
  unfold portPerform; split <;> rfl
@[simp] theorem portPerform_m (k : Nat) (s : State) : (portPerform k s).m = s.m := by
  unfold portPerform; split <;> rfl
@[simp] theorem portPerform_br (k : Nat) (s : State) : (portPerform k s).br = s.br := by
  unfold portPerform; split <;> rfl
@[simp] theorem portPerform_k (k : Nat) (s : State) : (portPerform k s).k = s.k := by
  unfold portPerform; split <;> rfl
@[simp] theorem portPerform_w (k : Nat) (s : State) : (portPerform k s).w = s.w := by
  unfold portPerform; split <;> rfl
@[simp] theorem portPerform_rr (k : Nat) (s : State) : (portPerform k s).rr = s.rr := by
  unfold portPerform; split <;> rfl
@[simp] theorem portPerform_ri (k : Nat) (s : State) : (portPerform k s).ri = s.ri := by
  unfold portPerform; split <;> rfl
@[simp] theorem portPerform_xr (k : Nat) (s : State) : (portPerform k s).xr = s.xr := by
  unfold portPerform; split <;> rfl
@[simp] theorem portPerform_xi (k : Nat) (s : State) : (portPerform k s).xi = s.xi := by
  unfold portPerform; split <;> rfl
@[simp] theorem portPerform_fr (k : Nat) (s : State) : (portPerform k s).fr = s.fr := by
  unfold portPerform; split <;> rfl
@[simp] theorem portPerform_fi (k : Nat) (s : State) : (portPerform k s).fi = s.fi := by
  unfold portPerform; split <;> rfl
@[simp] theorem portPerform_vz (k : Nat) (s : State) : (portPerform k s).vz = s.vz := by
  unfold portPerform; split <;> rfl
@[simp] theorem portPerform_vk (k : Nat) (s : State) : (portPerform k s).vk = s.vk := by
  unfold portPerform; split <;> rfl
@[simp] theorem portPerform_vin (k : Nat) (s : State) : (portPerform k s).vin = s.vin := by
  unfold portPerform; split <;> rfl
@[simp] theorem portPerform_vlo (k : Nat) (s : State) : (portPerform k s).vlo = s.vlo := by
  unfold portPerform; split <;> rfl
@[simp] theorem portPerform_vhi (k : Nat) (s : State) : (portPerform k s).vhi = s.vhi := by
  unfold portPerform; split <;> rfl
@[simp] theorem portPerform_va (k : Nat) (s : State) : (portPerform k s).va = s.va := by
  unfold portPerform; split <;> rfl
@[simp] theorem portPerform_vb (k : Nat) (s : State) : (portPerform k s).vb = s.vb := by
  unfold portPerform; split <;> rfl
@[simp] theorem portPerform_vfa (k : Nat) (s : State) : (portPerform k s).vfa = s.vfa := by
  unfold portPerform; split <;> rfl
@[simp] theorem portPerform_vfb (k : Nat) (s : State) : (portPerform k s).vfb = s.vfb := by
  unfold portPerform; split <;> rfl
@[simp] theorem portPerform_platform (k : Nat) (s : State) : (portPerform k s).platform = s.platform := by
  unfold portPerform; split <;> rfl
@[simp] theorem portPerform_others (k : Nat) (s : State) : (portPerform k s).others = s.others := by
  unfold portPerform; split <;> rfl
@[simp] theorem portPerform_turns (k : Nat) (s : State) : (portPerform k s).turns = s.turns := by
  unfold portPerform; split <;> rfl
@[simp] theorem portPerform_history (k : Nat) (s : State) : (portPerform k s).history = s.history := by
  unfold portPerform; split <;> rfl
@[simp] theorem portPerform_rdata (k : Nat) (s : State) : (portPerform k s).rdata = s.rdata := by
  unfold portPerform; split <;> rfl
@[simp] theorem portPerform_draws (k : Nat) (s : State) : (portPerform k s).draws = s.draws := by
  unfold portPerform; split <;> rfl

/-! ### readReg: all but the returned value and the count of free values -/

@[simp] theorem readReg_status (r : HostReg) (s : State) : (readReg r s).status = s.status := by
  unfold readReg; split <;> (try split) <;> rfl
@[simp] theorem readReg_inBase (r : HostReg) (s : State) : (readReg r s).inBase = s.inBase := by
  unfold readReg; split <;> (try split) <;> rfl
@[simp] theorem readReg_outBase (r : HostReg) (s : State) : (readReg r s).outBase = s.outBase := by
  unfold readReg; split <;> (try split) <;> rfl
@[simp] theorem readReg_nsamps (r : HostReg) (s : State) : (readReg r s).nsamps = s.nsamps := by
  unfold readReg; split <;> (try split) <;> rfl
@[simp] theorem readReg_scale (r : HostReg) (s : State) : (readReg r s).scale = s.scale := by
  unfold readReg; split <;> (try split) <;> rfl
@[simp] theorem readReg_marks (r : HostReg) (s : State) : (readReg r s).marks = s.marks := by
  unfold readReg; split <;> (try split) <;> rfl
@[simp] theorem readReg_st (r : HostReg) (s : State) : (readReg r s).st = s.st := by
  unfold readReg; split <;> (try split) <;> rfl
@[simp] theorem readReg_ret (r : HostReg) (s : State) : (readReg r s).ret = s.ret := by
  unfold readReg; split <;> (try split) <;> rfl
@[simp] theorem readReg_i (r : HostReg) (s : State) : (readReg r s).i = s.i := by
  unfold readReg; split <;> (try split) <;> rfl
@[simp] theorem readReg_m (r : HostReg) (s : State) : (readReg r s).m = s.m := by
  unfold readReg; split <;> (try split) <;> rfl
@[simp] theorem readReg_br (r : HostReg) (s : State) : (readReg r s).br = s.br := by
  unfold readReg; split <;> (try split) <;> rfl
@[simp] theorem readReg_k (r : HostReg) (s : State) : (readReg r s).k = s.k := by
  unfold readReg; split <;> (try split) <;> rfl
@[simp] theorem readReg_w (r : HostReg) (s : State) : (readReg r s).w = s.w := by
  unfold readReg; split <;> (try split) <;> rfl
@[simp] theorem readReg_rr (r : HostReg) (s : State) : (readReg r s).rr = s.rr := by
  unfold readReg; split <;> (try split) <;> rfl
@[simp] theorem readReg_ri (r : HostReg) (s : State) : (readReg r s).ri = s.ri := by
  unfold readReg; split <;> (try split) <;> rfl
@[simp] theorem readReg_xr (r : HostReg) (s : State) : (readReg r s).xr = s.xr := by
  unfold readReg; split <;> (try split) <;> rfl
@[simp] theorem readReg_xi (r : HostReg) (s : State) : (readReg r s).xi = s.xi := by
  unfold readReg; split <;> (try split) <;> rfl
@[simp] theorem readReg_fr (r : HostReg) (s : State) : (readReg r s).fr = s.fr := by
  unfold readReg; split <;> (try split) <;> rfl
@[simp] theorem readReg_fi (r : HostReg) (s : State) : (readReg r s).fi = s.fi := by
  unfold readReg; split <;> (try split) <;> rfl
@[simp] theorem readReg_vz (r : HostReg) (s : State) : (readReg r s).vz = s.vz := by
  unfold readReg; split <;> (try split) <;> rfl
@[simp] theorem readReg_vk (r : HostReg) (s : State) : (readReg r s).vk = s.vk := by
  unfold readReg; split <;> (try split) <;> rfl
@[simp] theorem readReg_vin (r : HostReg) (s : State) : (readReg r s).vin = s.vin := by
  unfold readReg; split <;> (try split) <;> rfl
@[simp] theorem readReg_vlo (r : HostReg) (s : State) : (readReg r s).vlo = s.vlo := by
  unfold readReg; split <;> (try split) <;> rfl
@[simp] theorem readReg_vhi (r : HostReg) (s : State) : (readReg r s).vhi = s.vhi := by
  unfold readReg; split <;> (try split) <;> rfl
@[simp] theorem readReg_va (r : HostReg) (s : State) : (readReg r s).va = s.va := by
  unfold readReg; split <;> (try split) <;> rfl
@[simp] theorem readReg_vb (r : HostReg) (s : State) : (readReg r s).vb = s.vb := by
  unfold readReg; split <;> (try split) <;> rfl
@[simp] theorem readReg_vfa (r : HostReg) (s : State) : (readReg r s).vfa = s.vfa := by
  unfold readReg; split <;> (try split) <;> rfl
@[simp] theorem readReg_vfb (r : HostReg) (s : State) : (readReg r s).vfb = s.vfb := by
  unfold readReg; split <;> (try split) <;> rfl
@[simp] theorem readReg_mem (r : HostReg) (s : State) : (readReg r s).mem = s.mem := by
  unfold readReg; split <;> (try split) <;> rfl
@[simp] theorem readReg_platform (r : HostReg) (s : State) : (readReg r s).platform = s.platform := by
  unfold readReg; split <;> (try split) <;> rfl
@[simp] theorem readReg_others (r : HostReg) (s : State) : (readReg r s).others = s.others := by
  unfold readReg; split <;> (try split) <;> rfl
@[simp] theorem readReg_inFlight (r : HostReg) (s : State) : (readReg r s).inFlight = s.inFlight := by
  unfold readReg; split <;> (try split) <;> rfl
@[simp] theorem readReg_turns (r : HostReg) (s : State) : (readReg r s).turns = s.turns := by
  unfold readReg; split <;> (try split) <;> rfl
@[simp] theorem readReg_history (r : HostReg) (s : State) : (readReg r s).history = s.history := by
  unfold readReg; split <;> (try split) <;> rfl

/-! ### writeArg: all but the argument registers and their marks -/

@[simp] theorem writeArg_status (a : Arg) (v : BitVec 64) (s : State) : (writeArg a v s).status = s.status := by
  unfold writeArg; split <;> (try cases a) <;> rfl
@[simp] theorem writeArg_st (a : Arg) (v : BitVec 64) (s : State) : (writeArg a v s).st = s.st := by
  unfold writeArg; split <;> (try cases a) <;> rfl
@[simp] theorem writeArg_ret (a : Arg) (v : BitVec 64) (s : State) : (writeArg a v s).ret = s.ret := by
  unfold writeArg; split <;> (try cases a) <;> rfl
@[simp] theorem writeArg_i (a : Arg) (v : BitVec 64) (s : State) : (writeArg a v s).i = s.i := by
  unfold writeArg; split <;> (try cases a) <;> rfl
@[simp] theorem writeArg_m (a : Arg) (v : BitVec 64) (s : State) : (writeArg a v s).m = s.m := by
  unfold writeArg; split <;> (try cases a) <;> rfl
@[simp] theorem writeArg_br (a : Arg) (v : BitVec 64) (s : State) : (writeArg a v s).br = s.br := by
  unfold writeArg; split <;> (try cases a) <;> rfl
@[simp] theorem writeArg_k (a : Arg) (v : BitVec 64) (s : State) : (writeArg a v s).k = s.k := by
  unfold writeArg; split <;> (try cases a) <;> rfl
@[simp] theorem writeArg_w (a : Arg) (v : BitVec 64) (s : State) : (writeArg a v s).w = s.w := by
  unfold writeArg; split <;> (try cases a) <;> rfl
@[simp] theorem writeArg_rr (a : Arg) (v : BitVec 64) (s : State) : (writeArg a v s).rr = s.rr := by
  unfold writeArg; split <;> (try cases a) <;> rfl
@[simp] theorem writeArg_ri (a : Arg) (v : BitVec 64) (s : State) : (writeArg a v s).ri = s.ri := by
  unfold writeArg; split <;> (try cases a) <;> rfl
@[simp] theorem writeArg_xr (a : Arg) (v : BitVec 64) (s : State) : (writeArg a v s).xr = s.xr := by
  unfold writeArg; split <;> (try cases a) <;> rfl
@[simp] theorem writeArg_xi (a : Arg) (v : BitVec 64) (s : State) : (writeArg a v s).xi = s.xi := by
  unfold writeArg; split <;> (try cases a) <;> rfl
@[simp] theorem writeArg_fr (a : Arg) (v : BitVec 64) (s : State) : (writeArg a v s).fr = s.fr := by
  unfold writeArg; split <;> (try cases a) <;> rfl
@[simp] theorem writeArg_fi (a : Arg) (v : BitVec 64) (s : State) : (writeArg a v s).fi = s.fi := by
  unfold writeArg; split <;> (try cases a) <;> rfl
@[simp] theorem writeArg_vz (a : Arg) (v : BitVec 64) (s : State) : (writeArg a v s).vz = s.vz := by
  unfold writeArg; split <;> (try cases a) <;> rfl
@[simp] theorem writeArg_vk (a : Arg) (v : BitVec 64) (s : State) : (writeArg a v s).vk = s.vk := by
  unfold writeArg; split <;> (try cases a) <;> rfl
@[simp] theorem writeArg_vin (a : Arg) (v : BitVec 64) (s : State) : (writeArg a v s).vin = s.vin := by
  unfold writeArg; split <;> (try cases a) <;> rfl
@[simp] theorem writeArg_vlo (a : Arg) (v : BitVec 64) (s : State) : (writeArg a v s).vlo = s.vlo := by
  unfold writeArg; split <;> (try cases a) <;> rfl
@[simp] theorem writeArg_vhi (a : Arg) (v : BitVec 64) (s : State) : (writeArg a v s).vhi = s.vhi := by
  unfold writeArg; split <;> (try cases a) <;> rfl
@[simp] theorem writeArg_va (a : Arg) (v : BitVec 64) (s : State) : (writeArg a v s).va = s.va := by
  unfold writeArg; split <;> (try cases a) <;> rfl
@[simp] theorem writeArg_vb (a : Arg) (v : BitVec 64) (s : State) : (writeArg a v s).vb = s.vb := by
  unfold writeArg; split <;> (try cases a) <;> rfl
@[simp] theorem writeArg_vfa (a : Arg) (v : BitVec 64) (s : State) : (writeArg a v s).vfa = s.vfa := by
  unfold writeArg; split <;> (try cases a) <;> rfl
@[simp] theorem writeArg_vfb (a : Arg) (v : BitVec 64) (s : State) : (writeArg a v s).vfb = s.vfb := by
  unfold writeArg; split <;> (try cases a) <;> rfl
@[simp] theorem writeArg_mem (a : Arg) (v : BitVec 64) (s : State) : (writeArg a v s).mem = s.mem := by
  unfold writeArg; split <;> (try cases a) <;> rfl
@[simp] theorem writeArg_platform (a : Arg) (v : BitVec 64) (s : State) : (writeArg a v s).platform = s.platform := by
  unfold writeArg; split <;> (try cases a) <;> rfl
@[simp] theorem writeArg_others (a : Arg) (v : BitVec 64) (s : State) : (writeArg a v s).others = s.others := by
  unfold writeArg; split <;> (try cases a) <;> rfl
@[simp] theorem writeArg_inFlight (a : Arg) (v : BitVec 64) (s : State) : (writeArg a v s).inFlight = s.inFlight := by
  unfold writeArg; split <;> (try cases a) <;> rfl
@[simp] theorem writeArg_turns (a : Arg) (v : BitVec 64) (s : State) : (writeArg a v s).turns = s.turns := by
  unfold writeArg; split <;> (try cases a) <;> rfl
@[simp] theorem writeArg_history (a : Arg) (v : BitVec 64) (s : State) : (writeArg a v s).history = s.history := by
  unfold writeArg; split <;> (try cases a) <;> rfl
@[simp] theorem writeArg_rdata (a : Arg) (v : BitVec 64) (s : State) : (writeArg a v s).rdata = s.rdata := by
  unfold writeArg; split <;> (try cases a) <;> rfl
@[simp] theorem writeArg_draws (a : Arg) (v : BitVec 64) (s : State) : (writeArg a v s).draws = s.draws := by
  unfold writeArg; split <;> (try cases a) <;> rfl

/-! ### otherEnd -/

@[simp] theorem otherEnd_status (k : Nat) (s : State) : (otherEnd k s).status = s.status := rfl
@[simp] theorem otherEnd_inBase (k : Nat) (s : State) : (otherEnd k s).inBase = s.inBase := rfl
@[simp] theorem otherEnd_outBase (k : Nat) (s : State) : (otherEnd k s).outBase = s.outBase := rfl
@[simp] theorem otherEnd_nsamps (k : Nat) (s : State) : (otherEnd k s).nsamps = s.nsamps := rfl
@[simp] theorem otherEnd_scale (k : Nat) (s : State) : (otherEnd k s).scale = s.scale := rfl
@[simp] theorem otherEnd_marks (k : Nat) (s : State) : (otherEnd k s).marks = s.marks := rfl
@[simp] theorem otherEnd_st (k : Nat) (s : State) : (otherEnd k s).st = s.st := rfl
@[simp] theorem otherEnd_ret (k : Nat) (s : State) : (otherEnd k s).ret = s.ret := rfl
@[simp] theorem otherEnd_i (k : Nat) (s : State) : (otherEnd k s).i = s.i := rfl
@[simp] theorem otherEnd_m (k : Nat) (s : State) : (otherEnd k s).m = s.m := rfl
@[simp] theorem otherEnd_br (k : Nat) (s : State) : (otherEnd k s).br = s.br := rfl
@[simp] theorem otherEnd_k (k : Nat) (s : State) : (otherEnd k s).k = s.k := rfl
@[simp] theorem otherEnd_w (k : Nat) (s : State) : (otherEnd k s).w = s.w := rfl
@[simp] theorem otherEnd_rr (k : Nat) (s : State) : (otherEnd k s).rr = s.rr := rfl
@[simp] theorem otherEnd_ri (k : Nat) (s : State) : (otherEnd k s).ri = s.ri := rfl
@[simp] theorem otherEnd_xr (k : Nat) (s : State) : (otherEnd k s).xr = s.xr := rfl
@[simp] theorem otherEnd_xi (k : Nat) (s : State) : (otherEnd k s).xi = s.xi := rfl
@[simp] theorem otherEnd_fr (k : Nat) (s : State) : (otherEnd k s).fr = s.fr := rfl
@[simp] theorem otherEnd_fi (k : Nat) (s : State) : (otherEnd k s).fi = s.fi := rfl
@[simp] theorem otherEnd_vz (k : Nat) (s : State) : (otherEnd k s).vz = s.vz := rfl
@[simp] theorem otherEnd_vk (k : Nat) (s : State) : (otherEnd k s).vk = s.vk := rfl
@[simp] theorem otherEnd_vin (k : Nat) (s : State) : (otherEnd k s).vin = s.vin := rfl
@[simp] theorem otherEnd_vlo (k : Nat) (s : State) : (otherEnd k s).vlo = s.vlo := rfl
@[simp] theorem otherEnd_vhi (k : Nat) (s : State) : (otherEnd k s).vhi = s.vhi := rfl
@[simp] theorem otherEnd_va (k : Nat) (s : State) : (otherEnd k s).va = s.va := rfl
@[simp] theorem otherEnd_vb (k : Nat) (s : State) : (otherEnd k s).vb = s.vb := rfl
@[simp] theorem otherEnd_vfa (k : Nat) (s : State) : (otherEnd k s).vfa = s.vfa := rfl
@[simp] theorem otherEnd_vfb (k : Nat) (s : State) : (otherEnd k s).vfb = s.vfb := rfl
@[simp] theorem otherEnd_mem (k : Nat) (s : State) : (otherEnd k s).mem = s.mem := rfl
@[simp] theorem otherEnd_platform (k : Nat) (s : State) : (otherEnd k s).platform = s.platform := rfl
@[simp] theorem otherEnd_others (k : Nat) (s : State) : (otherEnd k s).others = s.others.eraseIdx k := rfl
@[simp] theorem otherEnd_inFlight (k : Nat) (s : State) : (otherEnd k s).inFlight = s.inFlight := rfl
@[simp] theorem otherEnd_turns (k : Nat) (s : State) : (otherEnd k s).turns = s.turns := rfl
@[simp] theorem otherEnd_history (k : Nat) (s : State) : (otherEnd k s).history = s.history := rfl
@[simp] theorem otherEnd_rdata (k : Nat) (s : State) : (otherEnd k s).rdata = s.rdata := rfl
@[simp] theorem otherEnd_draws (k : Nat) (s : State) : (otherEnd k s).draws = s.draws := rfl

end Sys2Proof.Machine
end

