-- ==== Sys2Proof/Laws/Step.lean ====
section
/-! SUPPORT. Laws/Step.lean: what a step can be. -/

namespace Sys2Proof.Machine

/-- The state after the schedule has moved on by one turn. -/
def popped (s : State) : State := { s with turns := s.turns.tail }

theorem step_of_run {s t : State} {i : Instr} (h : fetch s = .run i t) : step s = exec i t := by
  simp [step, h]

theorem step_of_other {s : State} {o : Host.Outcome State Fault Refusal} (h : fetch s = .other o) : step s = o := by
  simp [step, h]

/-- With an empty schedule the sequencer moves. -/
theorem fetch_nil {s : State} (h : s.turns = []) : fetch s = sequencerTurn s := by
  simp [fetch, h]

/-- Otherwise the turn at the head of the schedule is taken. -/
theorem fetch_cons {s : State} {tn : Turn} {rest : List Turn} (h : s.turns = tn :: rest) :
    fetch s = turn tn (popped s) := by
  simp [fetch, popped, h]

theorem sequencerTurn_of_issued {s : State} {i : Instr} (h : issued s = some i) : sequencerTurn s = .run i s := by
  simp [sequencerTurn, h]

/-- Where it issues nothing, the sequencer is stuck: its move leaves the state as it is (spec/00 R12). -/
theorem sequencerTurn_of_stuck {s : State} (h : issued s = none) : sequencerTurn s = .other (.next s) := by
  simp [sequencerTurn, h]

/-- The only state in which the sequencer issues nothing. -/
theorem issued_eq_none {s : State} : issued s = none ↔ s.st = .v8 ∧ s.br = .none := by
  unfold issued
  cases s.st <;> simp
  cases s.br <;> simp

/-- All a step that ends in a next state can be: an instruction on the state with the schedule moved on, nothing where the
sequencer is stuck, or one of the moves of the host, another agent, another converter, the port or reset. -/
theorem step_cases {s t : State} (h : step s = .next t) :
    (∃ i, exec i (popped s) = .next t ∧ issued s = some i ∧ (s.turns = [] ∨ ∃ r, s.turns = .sequencer :: r)) ∨
      (issued s = none ∧ (s.turns = [] ∨ ∃ r, s.turns = .sequencer :: r) ∧ t = popped s) ∨
      (∃ c r i, s.turns = .writeCtrl c :: r ∧ decodeCmd c = .ok i ∧ exec i (popped s) = .next t) ∨
      (∃ c r, s.turns = .writeCtrl c :: r ∧ s.status.busy = true ∧ t = popped s) ∨
      (∃ v r, s.turns = .writeStatus v :: r ∧ t = popped s) ∨
      (∃ a v r, s.turns = .writeArg a v :: r ∧ t = writeArg a v (popped s)) ∨
      (∃ a r, s.turns = .readReg a :: r ∧ t = readReg a (popped s)) ∨
      (∃ a v r, s.turns = .agentWrite a v :: r ∧ concurrent .write a.toNat s = false ∧
        t = { popped s with mem := memPut s.mem a.toNat v }) ∨
      (∃ a r, s.turns = .agentRead a :: r ∧ concurrent .read a.toNat s = false ∧
        t = { popped s with rdata := (memGet s.mem a.toNat).setWidth 64 }) ∨
      (∃ p r, s.turns = .otherStart p :: r ∧ (s.status.busy = true → pairsMeet (ownPair s) p = false) ∧
        meetsOther p s = false ∧ t = { popped s with others := s.others ++ [p] }) ∨
      (∃ k a r, s.turns = .otherRead k a :: r ∧ t = popped s) ∨
      (∃ k a v r, s.turns = .otherWrite k a v :: r ∧
        (t = popped s ∨ ∃ p, s.others[k]? = some p ∧ pairOutput p a.toNat = true ∧
          ¬(s.status.busy = true ∧ pairHolds (ownPair s) a.toNat = true) ∧
          t = { popped s with mem := memPut s.mem a.toNat v })) ∨
      (∃ k r, s.turns = .otherEnd k :: r ∧ t = otherEnd k (popped s)) ∨
      (∃ k r, s.turns = .port k :: r ∧ t = portPerform k (popped s)) ∨
      (∃ l r, s.turns = .rst l :: r ∧ t = resetWith l (popped s)) := by
  cases htu : s.turns with
  | nil =>
    have hp : popped s = s := by simp [popped, htu]; rw [← htu]
    cases hi : issued s with
    | none =>
      rw [step_of_other ((fetch_nil htu).trans (sequencerTurn_of_stuck hi))] at h
      injection h with h
      exact .inr (.inl ⟨rfl, .inl rfl, by rw [hp]; exact h.symm⟩)
    | some i =>
      rw [step_of_run ((fetch_nil htu).trans (sequencerTurn_of_issued hi))] at h
      exact .inl ⟨i, by rw [hp]; exact h, rfl, .inl rfl⟩
  | cons tn rest =>
    have hf := fetch_cons htu
    cases tn with
    | sequencer =>
      cases hi : issued s with
      | none =>
        have hi' : issued (popped s) = none := hi
        rw [step_of_other (hf.trans (sequencerTurn_of_stuck hi'))] at h
        injection h with h
        exact .inr (.inl ⟨rfl, .inr ⟨rest, rfl⟩, h.symm⟩)
      | some i =>
        have hi' : issued (popped s) = some i := hi
        rw [step_of_run (hf.trans (sequencerTurn_of_issued hi'))] at h
        exact .inl ⟨i, h, rfl, .inr ⟨rest, rfl⟩⟩
    | writeCtrl c =>
      right; right
      cases hd : decodeCmd c with
      | ok i =>
        left
        have : fetch s = .run i (popped s) := by simp [hf, turn, ctrlWrite, hd]
        rw [step_of_run this] at h
        exact ⟨c, rest, i, rfl, hd, h⟩
      | error e =>
        right; left
        have : fetch s = .other (writeReserved c (popped s)) := by simp [hf, turn, ctrlWrite, hd]
        rw [step_of_other this, writeReserved] at h
        split at h
        · next hb => exact ⟨c, rest, rfl, hb, by injection h with h; exact h.symm⟩
        · cases h
    | writeStatus v =>
      rw [step_of_other (o := .next (popped s)) hf] at h
      injection h with h
      exact .inr (.inr (.inr (.inr (.inl ⟨v, rest, rfl, h.symm⟩))))
    | writeArg a v =>
      rw [step_of_other (o := .next (writeArg a v (popped s))) hf] at h
      injection h with h
      exact .inr (.inr (.inr (.inr (.inr (.inl ⟨a, v, rest, rfl, h.symm⟩)))))
    | readReg r =>
      rw [step_of_other (o := .next (readReg r (popped s))) hf] at h
      injection h with h
      exact .inr (.inr (.inr (.inr (.inr (.inr (.inl ⟨r, rest, rfl, h.symm⟩))))))
    | agentWrite a v =>
      rw [step_of_other hf, agentAccess] at h
      split at h
      · cases h
      · next hc =>
        injection h with h
        exact .inr (.inr (.inr (.inr (.inr (.inr (.inr (.inl ⟨a, v, rest, rfl, Bool.eq_false_iff.2 hc, h.symm⟩)))))))
    | agentRead a =>
      rw [step_of_other hf, agentAccess] at h
      split at h
      · cases h
      · next hc =>
        injection h with h
        exact .inr (.inr (.inr (.inr (.inr (.inr (.inr (.inr (.inl ⟨a, rest, rfl, Bool.eq_false_iff.2 hc, h.symm⟩))))))))
    | otherStart p =>
      rw [step_of_other hf] at h
      rcases otherStart_cases p (popped s) with ⟨-, e⟩ | ⟨hb, hm, e⟩ <;> rw [e] at h
      · cases h
      · injection h with h
        exact .inr (.inr (.inr (.inr (.inr (.inr (.inr (.inr (.inr (.inl ⟨p, rest, rfl, hb, hm, h.symm⟩)))))))))
    | otherRead k a =>
      rw [step_of_other hf] at h
      have ht : t = popped s := by
        rcases otherAccess_cases .read k a.toNat (popped s) (popped s) with ⟨-, e⟩ | ⟨p, -, -, ⟨-, -, e⟩ | ⟨-, e⟩⟩ <;>
          rw [e] at h
        · injection h with h; exact h.symm
        · cases h
        · injection h with h; exact h.symm
      exact .inr (.inr (.inr (.inr (.inr (.inr (.inr (.inr (.inr (.inr (.inl ⟨k, a, rest, rfl, ht⟩))))))))))
    | otherWrite k a v =>
      rw [step_of_other hf] at h
      rcases otherAccess_cases .write k a.toNat (popped s) { popped s with mem := memPut s.mem a.toNat v } with
        ⟨-, e⟩ | ⟨p, hp, hg, ⟨-, -, e⟩ | ⟨hb, e⟩⟩ <;> erw [e] at h
      · injection h with h
        exact .inr (.inr (.inr (.inr (.inr (.inr (.inr (.inr (.inr (.inr (.inr (.inl ⟨k, a, v, rest, rfl, .inl h.symm⟩)))))))))))
      · cases h
      · injection h with h
        exact .inr (.inr (.inr (.inr (.inr (.inr (.inr (.inr (.inr (.inr (.inr (.inl ⟨k, a, v, rest, rfl, .inr ⟨p, hp, hg, hb, h.symm⟩⟩)))))))))))
    | otherEnd k =>
      rw [step_of_other (o := .next (otherEnd k (popped s))) hf] at h
      injection h with h
      exact .inr (.inr (.inr (.inr (.inr (.inr (.inr (.inr (.inr (.inr (.inr (.inr (.inl ⟨k, rest, rfl, h.symm⟩))))))))))))
    | port k =>
      rw [step_of_other (o := .next (portPerform k (popped s))) hf] at h
      injection h with h
      exact .inr (.inr (.inr (.inr (.inr (.inr (.inr (.inr (.inr (.inr (.inr (.inr (.inr (.inl ⟨k, rest, rfl, h.symm⟩)))))))))))))
    | rst l =>
      rw [step_of_other (o := .next (resetWith l (popped s))) hf] at h
      injection h with h
      exact .inr (.inr (.inr (.inr (.inr (.inr (.inr (.inr (.inr (.inr (.inr (.inr (.inr (.inr ⟨l, rest, rfl, h.symm⟩)))))))))))))

/-- The store that a reset could catch is the one the micro-operation makes: performed, it adds the same writes to the
history (spec/20 R67). -/
theorem store_records_currentWrites {s t : State} {i : Instr} (hi : issued s = some i) (hst : s.st = .s5 ∨ s.st = .v8)
    (he : exec i s = .next t) (hm : t.st ≠ s.st) : t.history = s.history ++ currentWrites s := by
  rcases hst with h | h <;> rw [issued, h] at hi <;> dsimp only at hi
  · obtain rfl := Option.some.inj hi
    rcases access_next (show access .write (storeAddr s) 8 s _ = .next t from he) with rfl | ⟨rfl, hs⟩
    · exact absurd rfl hm
    · rw [currentWrites_s5 h hs]
      exact memWrite_history ..
  · have key : ∀ form, branchForm s.br = form → s.br ≠ .none → vectorStore form s = .next t →
        t.history = s.history ++ currentWrites s := by
      rintro _ rfl hb he
      rcases access_next (show access .write (storeAddr s) 64 s _ = .next t from he) with rfl | ⟨rfl, hs⟩
      · exact absurd rfl hm
      · rw [currentWrites_v8 h hb hs]
        simp
    cases hb : s.br <;> rw [hb] at hi <;> cases hi <;> exact key _ (by rw [hb]; rfl) (by simp [hb]) he

end Sys2Proof.Machine
end

