-- ==== Sys2Proof/Tests/Slice0.lean ====
section
/-! SUPPORT. Tests/Slice0.lean: the model's own tests, each on one step and with a result taken from the spec's text, and
for every obligation with premises a state or operands that meet them. -/

namespace Sys2Proof.Machine.Tests

/-! ### Helpers -/

/-- Whether an outcome is a next state of which `f` holds. -/
def leaves (o : Host.Outcome State Fault Refusal) (f : State → Bool) : Bool :=
  match o with
  | .next t => f t
  | _ => false

/-- Whether an outcome is this refusal. -/
def refuses (o : Host.Outcome State Fault Refusal) (r : Refusal) : Bool :=
  match o with
  | .refused q => q == r
  | _ => false

/-- All four argument registers written. -/
def allMarks : Marks := ⟨true, true, true, true⟩

/-- The start of program P1 (spec/95): one sample, scale factor 65536.0, the word 0x00010002 at 0x1000. -/
def ready : State :=
  { State.reset with
    inBase := 0x1000
    outBase := 0x2000
    nsamps := 1
    scale := 0x40F0000000000000
    marks := allMarks
    mem := [(0x1000, 0x02), (0x1002, 0x01)] }

/-- The same, in a sequencer state, with `K` = 1.0. -/
def at_ (st : SeqState) : State :=
  { ready with st := st, k := 0x3F800000, br := .one, status := ⟨true, false⟩ }

/-- A vector register from its slots, slot 0 first. -/
def slots (ws : List Word32) : VReg := vofSlots fun j => ws.getD j 0

/-- The running batch of spec/43: mode `BigEndianWire`, `K` = 1.0, eight samples. -/
def batchAt (st : SeqState) : State :=
  { at_ st with nsamps := 8, m := .bigEndianWire, vk := slots (List.replicate 8 0x3F800000) }

/-- Its eight input words (spec/43, head of the file). -/
def batchWords : VReg :=
  slots [0x00010002, 0x80007FFF, 0xFFFF0000, 0x12345678, 0x0080FF7F, 0x00000000, 0x01000200, 0x34127856]

/-- A platform with one stretch of ordinary memory, which can be read but not written. -/
def readOnly : Platform := ⟨[⟨0, 2 ^ 64, true, false, .ordinary⟩], false⟩

/-- A platform with a hole at 0x1003. -/
def holed : Platform := ⟨[⟨0, 0x1003, true, true, .ordinary⟩, ⟨0x1004, 2 ^ 64 - 0x1004, true, true, .ordinary⟩], false⟩

/-- A platform that is a device throughout. -/
def allDevice : Platform := ⟨[⟨0, 2 ^ 64, true, true, .device⟩], false⟩

/-! ### Syntax and decoding -/

/-- The one check of syntax refuses an ill-formed term: a `NOP` word has `START` = 0 (spec/30 R83). -/
theorem test_wf_refuses : (Instr.nop 0x00000001#32).wf = false ∧ (Instr.nop 0xFFFFFFFF#32).wf = false := by decide

/-- spec/30 R83: the commands. -/
theorem test_decode_commands :
    decodeBytes [0x00, 0x00, 0x00, 0x00] = .ok (.nop 0#32) ∧
    decodeBytes [0xFE, 0xFF, 0xFF, 0xFF] = .ok (.nop 0xFFFFFFFE#32) ∧
    decodeBytes [0x01, 0x00, 0x00, 0x00] = .ok .convertNative ∧
    decodeBytes [0x03, 0x00, 0x00, 0x00] = .ok .convertLe ∧
    decodeBytes [0x05, 0x00, 0x00, 0x00] = .ok .convertBe := by decide

/-- spec/30 R86: the control micro-operations. -/
theorem test_decode_control :
    decodeBytes [0x01] = .ok .cSetup ∧ decodeBytes [0x02] = .ok .cProbe ∧ decodeBytes [0x03] = .ok .cHeadtest ∧
    decodeBytes [0x04] = .ok .cBulktest ∧ decodeBytes [0x05] = .ok .cTailtest ∧ decodeBytes [0x06] = .ok .cFinish ∧
    decodeBytes [0x07] = .ok .cIdle := by decide

/-- spec/30 R86: the scalar micro-operations. -/
theorem test_decode_scalar :
    decodeBytes [0x08] = .ok .sLoad ∧ decodeBytes [0x09] = .ok .sDecode ∧ decodeBytes [0x0A] = .ok .sWiden ∧
    decodeBytes [0x0B] = .ok .sCvt ∧ decodeBytes [0x0C] = .ok .sMul ∧ decodeBytes [0x0D] = .ok .sStore := by decide

/-- spec/30 R86: the vector micro-operations. -/
theorem test_decode_vector :
    decodeBytes [0x10] = .ok .vLoad ∧ decodeBytes [0x11] = .ok .vBswap16 ∧ decodeBytes [0x12] = .ok .vHswap ∧
    decodeBytes [0x13] = .ok .vUnpacklo ∧ decodeBytes [0x14] = .ok .vUnpackhi ∧ decodeBytes [0x15] = .ok .vPerm ∧
    decodeBytes [0x16] = .ok .vCvt ∧ decodeBytes [0x17] = .ok .vMul ∧ decodeBytes [0x18] = .ok .vStoreA ∧
    decodeBytes [0x19] = .ok .vStoreU := by decide

/-- spec/30 R84, R86: what is no instruction is refused by name. -/
theorem test_decode_rejects :
    decodeBytes [0x07, 0x00, 0x00, 0x00] = .error .reservedMode ∧
    decodeBytes [0x09, 0x00, 0x00, 0x00] = .error .reservedBits ∧
    decodeBytes [0x01, 0x00, 0x00, 0x80] = .error .reservedBits ∧
    decodeBytes [0x0F] = .error .unusedCode ∧ decodeBytes [0x1F] = .error .unusedCode ∧
    decodeBytes [0x20] = .error .wideCode ∧ decodeBytes [] = .error .badLength ∧
    decodeBytes [0x01, 0x00] = .error .badLength := by decide

/-- The bits of a table row, and the state in which the next step runs it. -/
theorem test_table_words :
    decodeTableWord 5 0x18 = some .vStoreA ∧ decodeTableWord 32 5 = some .convertBe ∧ decodeTableWord 32 9 = none ∧
    issued (State.reset.withFetchWord 5 0x19) = some .vStoreU ∧ issued (State.reset.withFetchWord 5 0x0D) = some .sStore ∧
    leaves (step (State.reset.withFetchWord 32 3)) (fun t => t.m == .littleEndianWire && t.st == .setup) = true := by
  decide

/-! ### Numerics -/

/-- spec/95 T10, T15, T20, T21, T24, T25, T26: `K`, with a tie either way, a subnormal and the largest finite value. -/
theorem test_scale_constant :
    scaleConstant 0x40F0000000000000 = 0x3F800000 ∧ scaleConstant 0x3FB999999999999A = 0x35CCCCCD ∧
    scaleConstant 0x8000000000000000 = 0x80000000 ∧ scaleConstant 0x37A16C262777579C = 0x00000001 ∧
    scaleConstant 0x37A8000000000000 = 0x00000002 ∧ scaleConstant 0x3790000000000000 = 0x00000000 ∧
    scaleConstant 0x48EFFFFFE0000000 = 0x7F7FFFFF := by decide

/-- spec/95 T52, T61, T64, T66, T70, T72, T75, T76: the product of a lane and `K`. -/
theorem test_lane_times_constant :
    fmul (i2f (widen 0x8000)) 0xBF800000 = 0x47000000 ∧ fmul (i2f (widen 0x7FFF)) 0x35CCCCCD = 0x3D4CCB33 ∧
    fmul (i2f (widen 0x0000)) 0xBF800000 = 0x80000000 ∧ fmul (i2f (widen 0xFFFF)) 0x80000000 = 0x00000000 ∧
    fmul (i2f (widen 0x8000)) 0x00000001 = 0x80008000 ∧ fmul (i2f (widen 0x0003)) 0x00400001 = 0x00C00003 ∧
    fmul (i2f (widen 0xFFFE)) 0x7F000000 = 0xFF800000 ∧ fmul (i2f (widen 0x7FFF)) 0x7F7FC99E = 0x7F800000 := by
  decide

/-- spec/41 R127: the row of 0x80007FFF, and its `CANON` values of spec/95 section 2.2. -/
theorem test_canon :
    canon .nativeWire 0x80007FFF = 0x80007FFF ∧ canon .littleEndianWire 0x80007FFF = 0x7FFF8000 ∧
    canon .bigEndianWire 0x80007FFF = 0x0080FF7F ∧ (decodeReal .bigEndianWire 0x80007FFF).toInt = -129 ∧
    (decodeImag .bigEndianWire 0x80007FFF).toInt = 128 := by decide

/-! ### Commands -/

/-- spec/95 T89: a `NOP` after a completed command leaves `DONE`. -/
theorem test_nop : leaves (exec (.nop 0) { ready with status := ⟨false, true⟩ }) (fun t => statusWord t.status == 2) = true := by
  decide

/-- spec/95 T83: `CONVERT.NATIVE` accepted. -/
theorem test_convertNative :
    leaves (exec .convertNative ready) (fun t => statusWord t.status == 1 && t.m == .nativeWire && t.st == .setup) = true := by
  decide

/-- spec/95 T84. -/
theorem test_convertLe : leaves (exec .convertLe ready) (fun t => t.m == .littleEndianWire) = true := by decide

/-- spec/95 T85, T91: accepted when idle, ignored when busy. -/
theorem test_convertBe :
    leaves (exec .convertBe ready) (fun t => t.m == .bigEndianWire) = true ∧
    leaves (exec .convertBe (at_ .s0)) (fun t => t.m == .nativeWire && t.st == .s0) = true := by decide

/-- spec/95 T98, T99: buffers that touch do not overlap, and empty ones never do. -/
theorem test_admission_edges :
    admission { ready with nsamps := 2, outBase := 0x1008 } = none ∧
    admission { ready with nsamps := 0, outBase := 0x1000 } = none := by decide

/-! ### Control micro-operations -/

/-- spec/42 R144: scale factor 1.0 gives `K` = 2^-16. -/
theorem test_cSetup :
    leaves (exec .cSetup { at_ .setup with scale := 0x3FF0000000000000, i := 5 })
      (fun t => t.k == 0x37800000 && vslot t.vk 7 == 0x37800000 && t.i == 0 && t.st == .probe) = true := by decide

/-- spec/95 T40: 0x2008 is at the half-offset, 0x2004 at neither boundary. -/
theorem test_cProbe :
    leaves (exec .cProbe { at_ .probe with outBase := 0x2008 }) (fun t => t.br == .two) = true ∧
    leaves (exec .cProbe { at_ .probe with outBase := 0x2004 }) (fun t => t.br == .three) = true := by decide

/-- spec/42 R147: no head sample in branch 2 when there is no sample at all. -/
theorem test_cHeadtest :
    leaves (exec .cHeadtest { at_ .headtest with br := .two, nsamps := 0 }) (fun t => t.st == .bulktest) = true ∧
    leaves (exec .cHeadtest { at_ .headtest with br := .two }) (fun t => t.st == .s0 && t.ret == .head) = true := by
  decide

/-- spec/42 R148: `NSAMPS - I` = 8 runs an iteration, 7 runs none. -/
theorem test_cBulktest :
    leaves (exec .cBulktest { at_ .bulktest with i := 1, nsamps := 9 }) (fun t => t.st == .v0) = true ∧
    leaves (exec .cBulktest { at_ .bulktest with i := 2, nsamps := 9 }) (fun t => t.st == .tailtest) = true := by
  decide

/-- spec/42 R150: `I` = 8 of 9 is a tail sample, `I` = 9 is the end. -/
theorem test_cTailtest :
    leaves (exec .cTailtest { at_ .tailtest with i := 8, nsamps := 9 }) (fun t => t.st == .s0 && t.ret == .tail) = true ∧
    leaves (exec .cTailtest { at_ .tailtest with i := 9, nsamps := 9 }) (fun t => t.st == .finish) = true := by
  decide

/-- spec/42 R152: `STATUS` reads 2, and what was in flight is in memory. -/
theorem test_cFinish :
    leaves (exec .cFinish { at_ .finish with inFlight := [(0x2003, 0x40)] })
      (fun t => statusWord t.status == 2 && t.st == .idle && memGet t.mem 0x2003 == 0x40 && t.inFlight == []) = true := by
  decide

/-- spec/42 R140. -/
theorem test_cIdle : leaves (exec .cIdle ready) (fun t => t == ready) = true := by decide

/-! ### Scalar micro-operations: the sample of spec/44 -/

/-- spec/44 R201: `W` = 0x00010002. -/
theorem test_sLoad : leaves (exec .sLoad (at_ .s0)) (fun t => t.w == 0x00010002 && t.st == .s1) = true := by decide

/-- spec/44 R202. -/
theorem test_sDecode :
    leaves (exec .sDecode { at_ .s1 with w := 0x00010002 }) (fun t => t.rr == 2 && t.ri == 1 && t.st == .s2) = true := by
  decide

/-- spec/44 R203: 0x8000 becomes 0xFFFF8000, 0x7FFF becomes 0x00007FFF. -/
theorem test_sWiden :
    leaves (exec .sWiden { at_ .s2 with rr := 0x8000, ri := 0x7FFF }) (fun t => t.xr == 0xFFFF8000 && t.xi == 0x7FFF) =
      true := by decide

/-- spec/44 R204 and spec/95 section 2.3: 2 becomes 2.0, 0xFFFFFF7F becomes -129.0. -/
theorem test_sCvt :
    leaves (exec .sCvt { at_ .s3 with xr := 2, xi := 0xFFFFFF7F }) (fun t => t.fr == 0x40000000 && t.fi == 0xC3010000) =
      true := by decide

/-- spec/95 T60, T62: 3.0 and -32768.0 times 0x35CCCCCD. -/
theorem test_sMul :
    leaves (exec .sMul { at_ .s4 with fr := 0x40400000, fi := 0xC7000000, k := 0x35CCCCCD })
      (fun t => t.fr == 0x3699999A && t.fi == 0xBD4CCCCD) = true := by decide

/-- spec/44 R206: bytes `00 00 00 40 00 00 80 3F`, and back to where `RET` says. -/
theorem test_sStore :
    leaves (exec .sStore { at_ .s5 with fr := 0x40000000, fi := 0x3F800000 })
      (fun t => memRead4 t.mem 0x2000 == 0x40000000 && memRead4 t.mem 0x2004 == 0x3F800000 && t.i == 1 &&
        t.st == .tailtest) = true ∧
    leaves (exec .sStore { at_ .s5 with ret := .head }) (fun t => t.st == .bulktest) = true := by decide

/-! ### Vector micro-operations: the batch of spec/43 -/

/-- spec/43 R171: slot 0 is the word at 0x1000, slot 1 the word after it. -/
theorem test_vLoad :
    leaves (exec .vLoad (batchAt .v0)) (fun t => vslot t.vin 0 == 0x00010002 && vslot t.vin 1 == 0 && t.st == .v1) =
      true := by decide

/-- spec/43 R172: slot 0 becomes 0x01000200, slot 7 becomes 0x12345678. -/
theorem test_vBswap16 :
    leaves (exec .vBswap16 { batchAt .v1 with vin := batchWords })
      (fun t => vslot t.vin 0 == 0x01000200 && vslot t.vin 7 == 0x12345678) = true := by decide

/-- spec/43 R173: under `LittleEndianWire` 0x00010002 becomes 0x00020001, and nothing changes in this batch's mode. -/
theorem test_vHswap :
    leaves (exec .vHswap { batchAt .v2 with vin := batchWords, m := .littleEndianWire })
      (fun t => vslot t.vin 0 == 0x00020001) = true ∧
    leaves (exec .vHswap { batchAt .v2 with vin := batchWords }) (fun t => t.vin == batchWords) = true := by
  decide

/-- The batch after the byte swap (spec/43 R184, column `CANON`). -/
def batchCanon : VReg :=
  slots [0x01000200, 0x0080FF7F, 0xFFFF0000, 0x34127856, 0x80007FFF, 0x00000000, 0x00010002, 0x12345678]

/-- spec/43 R174: 512, 256, -129, 128, 32767, -32768, 0, 0. -/
theorem test_vUnpacklo :
    leaves (exec .vUnpacklo { batchAt .v3 with vin := batchCanon })
      (fun t => t.vlo == slots [512, 256, 0xFFFFFF7F, 128, 32767, 0xFFFF8000, 0, 0]) = true := by decide

/-- spec/43 R175: 0, -1, 30806, 13330, 2, 1, 22136, 4660. -/
theorem test_vUnpackhi :
    leaves (exec .vUnpackhi { batchAt .v4 with vin := batchCanon })
      (fun t => t.vhi == slots [0, 0xFFFFFFFF, 30806, 13330, 2, 1, 22136, 4660]) = true := by decide

/-- spec/43 R176. -/
theorem test_vPerm :
    leaves (exec .vPerm { batchAt .v5 with
        vlo := slots [512, 256, 0xFFFFFF7F, 128, 32767, 0xFFFF8000, 0, 0]
        vhi := slots [0, 0xFFFFFFFF, 30806, 13330, 2, 1, 22136, 4660] })
      (fun t => t.va == slots [512, 256, 0xFFFFFF7F, 128, 0, 0xFFFFFFFF, 30806, 13330] &&
        t.vb == slots [32767, 0xFFFF8000, 0, 0, 2, 1, 22136, 4660]) = true := by decide

/-- spec/43 R177: 512.0, -1.0 and -32768.0. -/
theorem test_vCvt :
    leaves (exec .vCvt { batchAt .v6 with
        va := slots [512, 256, 0xFFFFFF7F, 128, 0, 0xFFFFFFFF, 30806, 13330]
        vb := slots [32767, 0xFFFF8000, 0, 0, 2, 1, 22136, 4660] })
      (fun t => vslot t.vfa 0 == 0x44000000 && vslot t.vfa 5 == 0xBF800000 && vslot t.vfb 1 == 0xC7000000) = true := by
  decide

/-- spec/43 R178: an overflow in one slot stays in it (spec/95 T74), a zero slot takes the sign of `K` (T64). -/
theorem test_vMul :
    leaves (exec .vMul { batchAt .v7 with
        vfa := slots [0x40000000, 0x3F800000]
        vk := slots [0x7F7FFFFF, 0x3F800000, 0xBF800000] })
      (fun t => vslot t.vfa 0 == 0x7F800000 && vslot t.vfa 1 == 0x3F800000 && vslot t.vfa 2 == 0x80000000) = true := by
  decide

/-- spec/43 R179, R184: `VFA` to 0x2000, `VFB` to 0x2020, two aligned events. -/
theorem test_vStoreA :
    leaves (exec .vStoreA { batchAt .v8 with vfa := slots [0x44000000, 0x43800000], vfb := slots [0x46FFFE00] })
      (fun t => memRead4 t.mem 0x2004 == 0x43800000 && memRead4 t.mem 0x2020 == 0x46FFFE00 && t.i == 8 &&
        t.st == .bulktest && t.history.map (fun e => match e with
          | .write a n _ f => (a, n, f)
          | .read a n => (a, n, .unaligned)) == [(0x2000, 32, .aligned), (0x2020, 32, .aligned)]) = true := by
  decide

/-- spec/43 R180: at 0x2003 the second store is at 0x2023. -/
theorem test_vStoreU :
    leaves (exec .vStoreU { batchAt .v8 with outBase := 0x2003, vfa := slots [0x44000000], vfb := slots [0x46FFFE00] })
      (fun t => memRead4 t.mem 0x2003 == 0x44000000 && memRead4 t.mem 0x2023 == 0x46FFFE00) = true := by decide

/-! ### Host, port and reset -/

/-- spec/95 T80, T92, T93, T94: reads, and a write while busy. -/
theorem test_host_registers :
    leaves (step { State.reset with turns := [.readReg .status] }) (fun t => t.rdata == 0) = true ∧
    leaves (step { at_ .s0 with turns := [.writeArg .nsamps 0] }) (fun t => t.nsamps == 1) = true ∧
    leaves (step { at_ .s0 with turns := [.writeStatus 0xFFFFFFFF] }) (fun t => statusWord t.status == 1) = true ∧
    leaves (step { at_ .s0 with turns := [.readReg .ctrl] }) (fun t => t.rdata == 0) = true := by decide

/-- spec/95 T101, spec/70 R252: a reset in `S5` of which the first byte alone has landed. -/
theorem test_reset_mid_store :
    leaves (step { at_ .s5 with fr := 0x40000055, turns := [.rst [true]] })
      (fun t => statusWord t.status == 0 && t.st == .idle && t.marks == ⟨false, false, false, false⟩ &&
        memGet t.mem 0x2000 == 0x55 && memGet t.mem 0x2003 == 0 &&
        t.history == [.write 0x2000 8 0x40000055 .unaligned]) = true := by decide

/-- spec/20 R67, spec/70 R252: a reset in `V8` records the first write when its bytes alone are under way, both when the
second has begun, though no byte of it lands, and neither before any has. -/
theorem test_reset_mid_batch :
    let form := fun e : Event => match e with
      | .write a n _ f => (a, n, f)
      | .read a n => (a, n, .unaligned)
    let recorded := fun landed expected =>
      leaves (step { batchAt .v8 with turns := [.rst landed] }) fun t => t.history.map form == expected
    recorded [] [] = true ∧ recorded [false, true] [(0x2000, 32, .aligned)] = true ∧
    recorded (List.replicate 33 false) [(0x2000, 32, .aligned), (0x2020, 32, .aligned)] = true := by decide

/-- spec/20 R68: while a command runs, another converter may start beside its buffers, and not on its input buffer. -/
theorem test_other_start :
    refuses (step { at_ .s0 with turns := [.otherStart ⟨0x1003, 0x3000, 1⟩] }) .concurrentAccess = true ∧
    leaves (step { at_ .s0 with turns := [.otherStart ⟨0x1004, 0x2008, 1⟩] }) (fun t => t.others.length == 1) = true := by
  decide

/-- spec/20 R68, spec/93 U5: nor may one that already runs share an input buffer, and its read of a shared byte has no
meaning; its write beside this block's buffers acts on memory. -/
theorem test_other_shares_input :
    refuses (exec .convertBe { ready with others := [⟨0x1000, 0x3000, 1⟩] }) .concurrentAccess = true ∧
    refuses (step { at_ .s0 with others := [⟨0x1000, 0x3000, 1⟩], turns := [.otherRead 0 0x1000] })
      .concurrentAccess = true ∧
    leaves (step { at_ .s0 with others := [⟨0x4000, 0x3000, 1⟩], turns := [.otherWrite 0 0x3007 5] })
      (fun t => memGet t.mem 0x3007 == 5) = true := by decide

/-- spec/93 U3, spec/60 R224: at a device the sequencer stays where it stands. -/
theorem test_device_is_stuck :
    leaves (exec .sLoad { at_ .s0 with platform := allDevice }) (fun t => t == { at_ .s0 with platform := allDevice }) =
      true := by decide

/-- spec/00 R12: in `V8` without a branch no step is enabled, so the sequencer stays there, until `rst`. -/
theorem test_stuck :
    leaves (step { at_ .v8 with br := .none }) (fun t => t == { at_ .v8 with br := .none }) = true ∧
    leaves (step { at_ .v8 with br := .none, turns := [.rst []] }) (fun t => t.st == .idle && t.status == ⟨false, false⟩) =
      true := by decide

/-! ### States that meet the premises of the obligations -/

/-- An outcome that leaves something is a next state. -/
theorem next_of_leaves {o : Host.Outcome State Fault Refusal} {f : State → Bool} (h : leaves o f = true) :
    ∃ t, o = .next t := by
  cases o with
  | next t => exact ⟨t, rfl⟩
  | fault r => cases h
  | refused r => cases h

/-- An outcome that refuses is that refusal. -/
theorem refused_of_refuses {o : Host.Outcome State Fault Refusal} {r : Refusal} (h : refuses o r = true) :
    o = .refused r := by
  cases o with
  | next t => cases h
  | fault q => cases h
  | refused q => rw [refuses, beq_iff_eq] at h; rw [h]

/-- A buffering port, the second of two samples about to be stored, the bytes of the first in flight, and another
converter at work elsewhere. -/
def midSample : State :=
  { at_ .s5 with
    nsamps := 2
    i := 1
    vk := slots (List.replicate 8 0x3F800000)
    platform := { Platform.wholeSpace with buffersStores := true }
    others := [⟨0x4000, 0x5000, 2⟩]
    inFlight := [(0x2000, 0x00), (0x2001, 0x00), (0x2002, 0x00), (0x2003, 0x40), (0x2004, 0x00), (0x2005, 0x00),
      (0x2006, 0x80), (0x2007, 0x3F)] }

/-- Eight samples of zero, about to be stored by `V.STORE.A`. -/
def midBatch : State :=
  { at_ .v8 with nsamps := 8, mem := [], vk := slots (List.replicate 8 0x3F800000) }

/-- `Coherent` meets a scalar sample in the tail, with bytes in flight. -/
theorem midSample_coherent : Coherent midSample := by
  constructor
  case admitted => exact fun _ => admission_eq_none_iff.1 (by decide)
  case apart => exact List.pairwise_singleton _ _
  all_goals decide

/-- `Progress` too: sample 0 is 2.0 and 1.0 once the port has performed its bytes (spec/44, the worked sample). -/
theorem midSample_progress : Progress midSample where
  below := fun _ j hj => by
    obtain rfl : j = 0 := by
      have : midSample.i.toNat = 1 := by decide
      omega
    exact ⟨by decide, by decide⟩
  scalar := ⟨by decide, by decide⟩
  vector := trivial

/-- `Coherent` meets a bulk iteration before its stores. -/
theorem midBatch_coherent : Coherent midBatch := by
  constructor
  case admitted => exact fun _ => admission_eq_none_iff.1 (by decide)
  case apart => exact .nil
  all_goals decide

/-- `Progress` too: a batch of zero words becomes zeros. -/
theorem midBatch_progress : Progress midBatch where
  below := fun _ j hj => absurd hj (by decide +revert)
  scalar := trivial
  vector := fun t ht => by
    interval_cases t <;> exact ⟨by decide, by decide, by decide, by decide⟩

/-- `Coherent` meets an idle block whose arguments are written. -/
theorem ready_coherent : Coherent ready := by
  constructor
  case admitted => exact fun h => absurd h (by decide)
  case apart => exact .nil
  all_goals decide

/-- `ready`, as the host is about to write a reserved command. -/
def readyReserved : State := { ready with turns := [.writeCtrl 7] }

theorem readyReserved_coherent : Coherent readyReserved := by
  constructor
  case admitted => exact fun h => absurd h (by decide)
  case apart => exact .nil
  all_goals decide

/-! ### One witness for each obligation with premises: every clause, at the ends of its range -/

theorem witness_CommandMapIsTheTable :
    ((0xFFFFFFFE#32 : Word32)[0] = false) ∧
    ((0x00000007#32 : Word32)[0] = true ∧ (0x00000007#32 : Word32) ≠ 1#32 ∧ (0x00000007#32 : Word32) ≠ 3#32 ∧
      (0x00000007#32 : Word32) ≠ 5#32) ∧
    ((0x80000001#32 : Word32)[0] = true ∧ (0x80000001#32 : Word32) ≠ 1#32) := by decide

theorem witness_EncodeThenDecodeGivesBack : (Instr.nop 0xFFFFFFFE#32).wf = true ∧ Instr.vStoreU.wf = true := by decide

theorem witness_DecodeThenEncodeGivesBack :
    decodeBytes [0x19] = .ok .vStoreU ∧ decodeBytes [0x02, 0x00, 0x00, 0x80] = .ok (.nop 0x80000002#32) := by decide

theorem witness_SequencerIssuesByState :
    (∀ st : SeqState, (at_ st).st = st) ∧
    ∀ br : Branch, ({ at_ .v8 with br := br } : State).st = .v8 ∧ ({ at_ .v8 with br := br } : State).br = br :=
  ⟨fun _ => rfl, fun _ => ⟨rfl, rfl⟩⟩

theorem witness_StepRunsIssuedMicroOperation :
    (sequencerMoves (at_ .s0) ∧ issued (at_ .s0) = some .sLoad) ∧
    (sequencerMoves { at_ .v8 with turns := [.sequencer] } ∧
      issued { at_ .v8 with turns := [.sequencer] } = some .vStoreA) ∧
    (sequencerMoves { at_ .v8 with br := .none, turns := [.sequencer] } ∧
      issued { at_ .v8 with br := .none, turns := [.sequencer] } = none) :=
  ⟨⟨.inl rfl, rfl⟩, ⟨.inr ⟨[], rfl⟩, rfl⟩, ⟨.inr ⟨[], rfl⟩, rfl⟩⟩

theorem witness_StepRunsWrittenCommand :
    ({ ready with turns := [.writeCtrl 5] } : State).turns = .writeCtrl 5 :: [] ∧ decodeCmd 5 = .ok .convertBe := by
  decide

theorem witness_NopChangesNothing :
    ((0xFFFFFFFE#32 : Word32)[0] = false) ∧
    ({ at_ .s0 with turns := [.writeCtrl 0xFFFFFFFE#32] } : State).turns = .writeCtrl 0xFFFFFFFE#32 :: [] := by decide

theorem ready_admitted : Admitted ready := admission_eq_none_iff.1 (by decide)

theorem reset_not_admitted : ¬Admitted State.reset := fun h => absurd (admission_eq_none_iff.2 h) (by decide)

theorem witness_CommandIsAcceptedWhenAdmitted :
    (at_ .s0).status.busy = true ∧ (State.reset.status.busy = false ∧ ¬Admitted State.reset) ∧
    (ready.status.busy = false ∧ Admitted ready) :=
  ⟨rfl, ⟨rfl, reset_not_admitted⟩, ⟨rfl, ready_admitted⟩⟩

/-- spec/95 T82, T29, T27, T96, T97, and a buffer that may not be written: each reason of R142; and
another converter on the last byte of the input buffer (spec/20 R68). -/
theorem witness_RefusalNamesFirstBrokenCondition :
    exec .convertNative { ready with marks := ⟨true, true, true, false⟩ } = .refused .unwrittenArgument ∧
    exec .convertLe { ready with scale := 0x7FF0000000000000 } = .refused .scaleNotFinite ∧
    exec .convertBe { ready with scale := 0x48EFFFFFF0000000 } = .refused .scaleOverflowsF32 ∧
    exec .convertNative { ready with inBase := 0xFFFFFFFFFFFFFFFC, nsamps := 2 } = .refused .bufferWraps ∧
    exec .convertLe { ready with platform := readOnly } = .refused .bufferNotAdmitted ∧
    exec .convertBe { ready with outBase := 0x1004, nsamps := 2 } = .refused .buffersOverlap ∧
    exec .convertBe { ready with others := [⟨0x3000, 0x4000, 1⟩, ⟨0x1003, 0x5000, 1⟩] } = .refused .concurrentAccess := by
  refine ⟨?_, ?_, ?_, ?_, ?_, ?_, ?_⟩ <;> exact refused_of_refuses (by decide)

theorem witness_BusyIgnoresEveryCtrlWrite :
    (at_ .s0).status.busy = true ∧
    ({ at_ .s0 with turns := [.writeCtrl 7] } : State).turns = .writeCtrl 7 :: [] := by decide

theorem witness_ReservedCommandIsRefused :
    ready.status.busy = false ∧ ({ ready with turns := [.writeCtrl 7] } : State).turns = .writeCtrl 7 :: [] ∧
    ((7#32 : Word32)[0] = true ∧ (7#32 : Word32).extractLsb' 1 2 = 3#2) ∧
    ((9#32 : Word32)[0] = true ∧ (9#32 : Word32).extractLsb' 3 29 ≠ 0#29) ∧
    ((0x80000001#32 : Word32)[0] = true ∧ (0x80000001#32 : Word32).extractLsb' 3 29 ≠ 0#29) := by decide

/-- `ready` with other arguments and sequencer registers. -/
def readyWith (i n : BitVec 64) (br : Branch) (scale : F64) (outBase : Addr) : State :=
  { ready with i := i, nsamps := n, br := br, scale := scale, outBase := outBase }

theorem witness_SetupWritesRoundedQuotient :
    f64Finite ready.scale = true ∧ f64Finite (readyWith 0 1 .one 0x7FEFFFFFFFFFFFFF 0).scale = true ∧
    f64Finite (readyWith 0 1 .one 0x8000000000000000 0).scale = true := by decide

theorem witness_ProbeReadsLowFourBits :
    (readyWith 0 1 .none 0 0x2000).outBase.extractLsb' 0 4 = 0#4 ∧
    (readyWith 0 1 .none 0 0x2008).outBase.extractLsb' 0 4 = 8#4 ∧
    ((readyWith 0 1 .none 0 0x2007).outBase.extractLsb' 0 4 ≠ 0#4 ∧
      (readyWith 0 1 .none 0 0x2007).outBase.extractLsb' 0 4 ≠ 8#4) ∧
    ((readyWith 0 1 .none 0 0x200F).outBase.extractLsb' 0 4 ≠ 0#4 ∧
      (readyWith 0 1 .none 0 0x200F).outBase.extractLsb' 0 4 ≠ 8#4) := by decide

theorem witness_HeadTestStartsHeadSample :
    ((readyWith 0 1 .two 0 0).br = .two ∧ (readyWith 0 1 .two 0 0).i < (readyWith 0 1 .two 0 0).nsamps) ∧
    ¬((readyWith 0 0 .two 0 0).br = .two ∧ (readyWith 0 0 .two 0 0).i < (readyWith 0 0 .two 0 0).nsamps) ∧
    ¬((readyWith 0 1 .one 0 0).br = .two ∧ (readyWith 0 1 .one 0 0).i < (readyWith 0 1 .one 0 0).nsamps) := by decide

/-- The third is a sum that wrapping addition would make small. -/
theorem witness_BulkTestNeedsWholeBatch :
    ((readyWith 1 9 .one 0 0).i.toNat + 7 < (readyWith 1 9 .one 0 0).nsamps.toNat) ∧
    ¬((readyWith 2 9 .one 0 0).i.toNat + 7 < (readyWith 2 9 .one 0 0).nsamps.toNat) ∧
    ¬((readyWith 0xFFFFFFFFFFFFFFFF 9 .one 0 0).i.toNat + 7 < (readyWith 0xFFFFFFFFFFFFFFFF 9 .one 0 0).nsamps.toNat) := by
  decide

theorem witness_TailTestStartsTailSample :
    (readyWith 8 9 .one 0 0).i < (readyWith 8 9 .one 0 0).nsamps ∧
    ¬(readyWith 9 9 .one 0 0).i < (readyWith 9 9 .one 0 0).nsamps := by decide

theorem witness_FinishPerformsStoresThenDone :
    memWf midSample.mem = true ∧ (midSample.inFlight.map Prod.fst).Nodup ∧
    ((0x2003, 0x40) : Host.Cell) ∈ midSample.inFlight ∧ 0x2008 ∉ midSample.inFlight.map Prod.fst := by decide

theorem ready_read4 : served ready.platform .read 0x1000 4 := served_iff.2 (by decide)

/-- The last four bytes of the address space are served too. -/
theorem top_read4 : served ready.platform .read (2 ^ 64 - 4) 4 := served_iff.2 (by decide)

theorem witness_ScalarLoadReadsFourBytes :
    served (at_ .s0).platform .read ((at_ .s0).inBase.toNat + 4 * (at_ .s0).i.toNat) 4 ∧
    served Platform.wholeSpace .read (2 ^ 64 - 4) 4 :=
  ⟨ready_read4, top_read4⟩

theorem witness_ScalarDecodeByBytes :
    ({ ready with m := .nativeWire } : State).m = .nativeWire ∧
    ({ ready with m := .littleEndianWire } : State).m = .littleEndianWire ∧
    ({ ready with m := .bigEndianWire } : State).m = .bigEndianWire := by decide

/-- The patterns of 2^24 and of -2^24, and the integers they stand for. -/
theorem value_2_24 : f32Value 0x4B800000#32 = (0x01000000#32 : Word32).toInt ∧
    f32Value 0xCB800000#32 = (0xFF000000#32 : Word32).toInt := by
  constructor <;>
    norm_num [f32Value, show f32Sign 0x4B800000#32 = false by decide, show f32Mant 0x4B800000#32 = 8388608 by decide,
      show f32Exp 0x4B800000#32 = 1 by decide, show f32Sign 0xCB800000#32 = true by decide,
      show f32Mant 0xCB800000#32 = 8388608 by decide, show f32Exp 0xCB800000#32 = 1 by decide,
      show (0x01000000#32 : Word32).toInt = 16777216 by decide,
      show (0xFF000000#32 : Word32).toInt = -16777216 by decide]

theorem witness_ScalarConvertIsExact :
    (f32Finite 0x4B800000#32 = true ∧
      f32Value 0x4B800000#32 = ({ ready with xr := 0x01000000 } : State).xr.toInt) ∧
    (f32Finite 0xCB800000#32 = true ∧
      f32Value 0xCB800000#32 = ({ ready with xi := 0xFF000000 } : State).xi.toInt) ∧
    ({ ready with xr := 0, xi := 0 } : State).xr = 0 ∧ ({ ready with xr := 0, xi := 0 } : State).xi = 0 :=
  ⟨⟨by decide, value_2_24.1⟩, ⟨by decide, value_2_24.2⟩, rfl, rfl⟩

theorem witness_ScalarMulRoundsOnce :
    f32Finite 0xC7000000#32 = true ∧ f32Finite 0x7F7FFFFF#32 = true ∧ f32Finite 0x80000000#32 = true := by decide

theorem witness_ScalarStoreWritesEightBytes :
    (served (at_ .s5).platform .write ((at_ .s5).outBase.toNat + 8 * (at_ .s5).i.toNat) 8 ∧
      memWf (at_ .s5).mem = true ∧ ((at_ .s5).platform.buffersStores = false → (at_ .s5).inFlight = [])) ∧
    (served midSample.platform .write (midSample.outBase.toNat + 8 * midSample.i.toNat) 8 ∧
      memWf midSample.mem = true ∧ (midSample.platform.buffersStores = false → midSample.inFlight = [])) :=
  ⟨⟨served_iff.2 (by decide), by decide, by decide⟩, ⟨served_iff.2 (by decide), by decide, by decide⟩⟩

theorem witness_VectorLoadReadsEightWords :
    served (batchAt .v0).platform .read ((batchAt .v0).inBase.toNat + 4 * (batchAt .v0).i.toNat) 32 ∧
    served Platform.wholeSpace .read (2 ^ 64 - 32) 32 :=
  ⟨served_iff.2 (by decide), served_iff.2 (by decide)⟩

theorem witness_VectorByteSwapOnlyBigEndian :
    (batchAt .v1).m = .bigEndianWire ∧ ({ batchAt .v1 with m := .nativeWire } : State).m ≠ .bigEndianWire := by decide

theorem witness_VectorHalfSwapOnlyLittleEndian :
    ({ batchAt .v2 with m := .littleEndianWire } : State).m = .littleEndianWire ∧ (batchAt .v2).m ≠ .littleEndianWire := by
  decide

theorem witness_VectorConvertIsExact :
    (f32Finite 0x4B800000#32 = true ∧
      f32Value 0x4B800000#32 = (vslot (slots (List.replicate 8 0x01000000)) 7).toInt) ∧
    (f32Finite 0xCB800000#32 = true ∧ f32Value 0xCB800000#32 = (vslot (slots [0xFF000000, 0]) 0).toInt) ∧
    vslot (slots [0xFF000000, 0]) 1 = 0 := by
  rw [show vslot (slots (List.replicate 8 0x01000000)) 7 = 0x01000000#32 by decide,
    show vslot (slots [0xFF000000, 0]) 0 = 0xFF000000#32 by decide]
  exact ⟨⟨by decide, value_2_24.1⟩, ⟨by decide, value_2_24.2⟩, by decide⟩

theorem witness_VectorMulRoundsEachSlot :
    f32Finite (vslot (batchAt .v7).vk 0) = true ∧ f32Finite (vslot (batchAt .v7).vk 7) = true ∧
    f32Finite (vslot (batchAt .v7).vfa 0) = true ∧ f32Finite (vslot (batchAt .v7).vfb 7) = true := by decide

theorem witness_VectorStoresWriteSixtyFourBytes :
    ((Instr.vStoreA = .vStoreA ∧ Form.aligned = .aligned) ∨ (Instr.vStoreA = .vStoreU ∧ Form.aligned = .unaligned)) ∧
    ((Instr.vStoreU = .vStoreA ∧ Form.unaligned = .aligned) ∨ (Instr.vStoreU = .vStoreU ∧ Form.unaligned = .unaligned)) ∧
    served midBatch.platform .write (midBatch.outBase.toNat + 8 * midBatch.i.toNat) 64 ∧ memWf midBatch.mem = true ∧
    (midBatch.platform.buffersStores = false → midBatch.inFlight = []) ∧ midBatch.st = .v8 :=
  ⟨by decide, by decide, served_iff.2 (by decide), by decide, by decide, rfl⟩

/-- `ready` on another platform. -/
def readyOn (p : Platform) : State := { ready with platform := p }

/-- The premise of R224 for one access: within the address space, and a byte that no region grants or that is a
device's. -/
def denied (p : Platform) (acc : Access) (a n : Nat) : Prop :=
  a + n ≤ 2 ^ 64 ∧ ∃ k, k < n ∧ ((∀ r ∈ p.regions, regionHolds r (a + k) = true → regionGrants acc r = false) ∨
    ∃ r ∈ p.regions, regionHolds r (a + k) = true ∧ r.kind = .device)

/-- The hole is the last byte of a scalar load and the fourth of a vector load, a platform that is read-only stops every
store, and one that is a device throughout stops every access. -/
theorem witness_RefusedAccessLeavesStateAlone :
    denied (readyOn holed).platform .read ((readyOn holed).inBase.toNat + 4 * (readyOn holed).i.toNat) 4 ∧
    denied (readyOn holed).platform .read ((readyOn holed).inBase.toNat + 4 * (readyOn holed).i.toNat) 32 ∧
    denied (readyOn readOnly).platform .write ((readyOn readOnly).outBase.toNat + 8 * (readyOn readOnly).i.toNat) 8 ∧
    denied (readyOn readOnly).platform .write ((readyOn readOnly).outBase.toNat + 8 * (readyOn readOnly).i.toNat) 64 ∧
    denied (readyOn allDevice).platform .read 0x1000 4 ∧ denied (readyOn allDevice).platform .read 0x1000 32 ∧
    denied (readyOn allDevice).platform .write 0x2000 8 ∧ denied (readyOn allDevice).platform .write 0x2000 64 := by
  refine ⟨⟨by decide, 3, by decide, .inl (by decide)⟩, ⟨by decide, 3, by decide, .inl (by decide)⟩,
    ⟨by decide, 0, by decide, .inl (by decide)⟩, ⟨by decide, 63, by decide, .inl (by decide)⟩, ?_, ?_, ?_, ?_⟩ <;>
    exact ⟨by decide, 0, by decide, .inr ⟨_, List.mem_singleton.2 rfl, by decide, rfl⟩⟩

/-- `ready` with other bases. -/
def readyAt (inBase outBase : Addr) : State := { ready with inBase := inBase, outBase := outBase }

/-- The first address at which each access passes 2^64. -/
theorem witness_AccessPastTopIsRefused :
    2 ^ 64 < (readyAt 0xFFFFFFFFFFFFFFFD 0).inBase.toNat + 4 * (readyAt 0xFFFFFFFFFFFFFFFD 0).i.toNat + 4 ∧
    2 ^ 64 < (readyAt 0xFFFFFFFFFFFFFFE1 0).inBase.toNat + 4 * (readyAt 0xFFFFFFFFFFFFFFE1 0).i.toNat + 32 ∧
    2 ^ 64 < (readyAt 0 0xFFFFFFFFFFFFFFF9).outBase.toNat + 8 * (readyAt 0 0xFFFFFFFFFFFFFFF9).i.toNat + 8 ∧
    2 ^ 64 < (readyAt 0 0xFFFFFFFFFFFFFFC1).outBase.toNat + 8 * (readyAt 0 0xFFFFFFFFFFFFFFC1).i.toNat + 64 := by
  decide

theorem witness_StoreThenLoadReturnsValue : memWf ready.mem = true ∧ memWf ([] : List Host.Cell) = true := by decide

theorem with_turns {s : State} (h : Coherent s) (ts : List Turn) : Coherent { s with turns := ts } := by
  obtain ⟨h1, h2, h3, h4, h5, h6, h7, h8, h9, h10, h11, h12, h13, h14, h15, h16, h17⟩ := h
  exact ⟨h1, h2, h3, fun h => admitted_congr (h4 h) rfl rfl rfl rfl rfl rfl (List.Subset.refl _), h5, h6, h7, h8, h9, h10,
    h11, h12, h13, h14, h15, h16, h17⟩

theorem progress_with_turns {s : State} (h : Progress s) (ts : List Turn) : Progress { s with turns := ts } :=
  ⟨fun hs j hj => h.below hs j hj, h.scalar, h.vector⟩

theorem midSample_with_turns (ts : List Turn) : Coherent { midSample with turns := ts } := with_turns midSample_coherent ts

theorem witness_ArrivalOrderDoesNotMatter :
    (Coherent { midSample with turns := [.port 7] } ∧ 7 < midSample.inFlight.length) ∧
    (Coherent { midSample with turns := [.port 8] } ∧ ¬8 < midSample.inFlight.length) :=
  ⟨⟨midSample_with_turns _, by decide⟩, ⟨midSample_with_turns _, by decide⟩⟩

theorem witness_ArgumentWriteReplacesRegister :
    (({ at_ .s0 with turns := [.writeArg .nsamps 0] } : State).turns = .writeArg .nsamps 0 :: [] ∧
      (at_ .s0).status.busy = true) ∧
    (({ ready with turns := [.writeArg .scale 0] } : State).turns = .writeArg .scale 0 :: [] ∧
      ready.status.busy = false) := by decide

theorem witness_HostReadsReturnRegisters :
    ({ ready with turns := [.readReg .ctrl] } : State).turns = .readReg .ctrl :: [] ∧
    ({ ready with turns := [.readReg .status] } : State).turns = .readReg .status :: [] ∧
    (({ ready with turns := [.readReg (.arg .scale)] } : State).turns = .readReg (.arg .scale) :: [] ∧
      argMark .scale ready.marks = true) := by decide

theorem witness_StatusWriteIsIgnored :
    ({ ready with turns := [.writeStatus 0xFFFFFFFF] } : State).turns = .writeStatus 0xFFFFFFFF :: [] := by decide

/-- The first and last bytes of the two buffers of `at_ .s0`, and the bytes beside them. -/
theorem witness_ConcurrentAccessIsRefused :
    (at_ .s0).status.busy = true ∧ inInput (at_ .s0) 0x1000 = true ∧ inInput (at_ .s0) 0x1003 = true ∧
    inOutput (at_ .s0) 0x2000 = true ∧ inOutput (at_ .s0) 0x2007 = true ∧
    (inInput (at_ .s0) 0x1004 = false ∧ inOutput (at_ .s0) 0x1004 = false) ∧
    (inInput (at_ .s0) 0x2008 = false ∧ inOutput (at_ .s0) 0x2008 = false) ∧
    ({ at_ .s0 with turns := [.agentWrite 0x2007 1] } : State).turns = .agentWrite 0x2007 1 :: [] ∧
    ({ at_ .s0 with turns := [.agentRead 0x2007] } : State).turns = .agentRead 0x2007 :: [] := by decide

/-- Another converter's pair that shares the last input byte of `at_ .s0` and one that begins beside it, and the first and
last bytes of the second's buffers as it accesses them. -/
theorem witness_ConcurrentAccessIsRefused_others :
    ((at_ .s0).status.busy = true ∧ inInput (at_ .s0) 0x1003 = true ∧ pairInput ⟨0x1003, 0x3000, 1⟩ 0x1003 = true) ∧
    meetsOther ⟨0x1004, 0x2008, 1⟩ (at_ .s0) = false ∧ pairsMeet (ownPair (at_ .s0)) ⟨0x1004, 0x2008, 1⟩ = false ∧
    (pairOutput ⟨0x4000, 0x5000, 2⟩ 0x500F = true ∧ pairInput ⟨0x4006, 0x6000, 1⟩ 0x4007 = true ∧
      pairInput ⟨0x4000, 0x5000, 2⟩ 0x4007 = true) ∧
    (midSample.others[0]? = some ⟨0x4000, 0x5000, 2⟩ ∧ pairInput ⟨0x4000, 0x5000, 2⟩ 0x4000 = true ∧
      pairOutput ⟨0x4000, 0x5000, 2⟩ 0x500F = true) ∧
    (({ at_ .s0 with others := [⟨0x1000, 0x2000, 1⟩] } : State).others[0]? = some ⟨0x1000, 0x2000, 1⟩ ∧
      pairInput ⟨0x1000, 0x2000, 1⟩ 0x1000 = true ∧ pairOutput ⟨0x1000, 0x2000, 1⟩ 0x2007 = true) ∧
    ({ at_ .s0 with turns := [.otherStart ⟨0x1003, 0x3000, 1⟩] } : State).turns = .otherStart ⟨0x1003, 0x3000, 1⟩ :: [] ∧
    ({ midSample with turns := [.otherRead 0 0x4000] } : State).turns = .otherRead 0 0x4000 :: [] ∧
    ({ midSample with turns := [.otherWrite 0 0x500F 1] } : State).turns = .otherWrite 0 0x500F 1 :: [] := by decide

theorem witness_RstReturnsToIdle :
    ({ at_ .s0 with turns := [.rst []] } : State).turns = .rst [] :: [] ∧ (at_ .s0).inFlight = [] ∧
    (at_ .s0).st ≠ .s5 ∧ (at_ .s0).st ≠ .v8 := by decide

/-- In `S5`, `V8` and elsewhere, with bytes chosen up to each place where a write begins and one beyond. -/
theorem witness_ResetLeavesOldOrConvertedBytes :
    (∀ n, Coherent { midSample with turns := [.rst (List.replicate n true)] } ∧
      Progress { midSample with turns := [.rst (List.replicate n true)] }) ∧
    midSample.st = .s5 ∧ midSample.inFlight.length = 8 ∧
    (∀ n, Coherent { midBatch with turns := [.rst (List.replicate n true)] } ∧
      Progress { midBatch with turns := [.rst (List.replicate n true)] }) ∧
    midBatch.st = .v8 ∧ midBatch.inFlight.length = 0 ∧
    (Coherent { ready with turns := [.rst [true]] } ∧ Progress { ready with turns := [.rst [true]] }) ∧
    (∀ landed ∈ [List.replicate 8 true, List.replicate 9 false], leaves (step { midSample with turns := [.rst landed] })
      (fun t => t.history.length == landed.length - 8) = true) ∧
    ∀ n ∈ [(0, 0), (1, 1), (32, 1), (33, 2)],
      leaves (step { midBatch with turns := [.rst (List.replicate n.1 false)] }) (fun t => t.history.length == n.2) =
        true :=
  ⟨fun _ => ⟨midSample_with_turns _, progress_with_turns midSample_progress _⟩, rfl, rfl,
    fun _ => ⟨with_turns midBatch_coherent _, progress_with_turns midBatch_progress _⟩, rfl, rfl,
    ⟨with_turns ready_coherent _, ⟨fun h => (by cases h), trivial, trivial⟩⟩, by decide, by decide⟩

theorem witness_StepKeepsCoherent : Coherent midSample ∧ ∃ t, step midSample = .next t :=
  ⟨midSample_coherent, next_of_leaves (f := fun t => t.i == 2) (by decide)⟩

theorem witness_StepKeepsProgress :
    (Coherent midSample ∧ Progress midSample ∧ ∃ t, step midSample = .next t) ∧
    (Coherent midBatch ∧ Progress midBatch ∧ ∃ t, step midBatch = .next t) :=
  ⟨⟨midSample_coherent, midSample_progress, next_of_leaves (f := fun t => t.i == 2) (by decide)⟩,
    ⟨midBatch_coherent, midBatch_progress, next_of_leaves (f := fun t => t.i == 8) (by decide)⟩⟩

/-- Besides a step that is no stop: a move of each of the two kinds at which a coherent state's step is refused. -/
theorem witness_CoherentStepNeverFaults :
    Coherent midBatch ∧
    (Coherent { midSample with turns := [.otherStart ⟨0x1000, 0x6000, 1⟩] } ∧
      step { midSample with turns := [.otherStart ⟨0x1000, 0x6000, 1⟩] } = .refused .concurrentAccess) ∧
    (Coherent readyReserved ∧ step readyReserved = .refused (.reservedCommand 7)) :=
  ⟨midBatch_coherent, ⟨midSample_with_turns _, refused_of_refuses (by decide)⟩,
    ⟨readyReserved_coherent, refused_of_refuses (by decide)⟩⟩

theorem witness_RunningCommandAlwaysMovesOn :
    (Coherent midSample ∧ midSample.status.busy = true ∧ sequencerMoves midSample) ∧
    (Coherent midBatch ∧ midBatch.status.busy = true ∧ sequencerMoves midBatch) :=
  ⟨⟨midSample_coherent, rfl, .inl rfl⟩, ⟨midBatch_coherent, rfl, .inl rfl⟩⟩

theorem witness_AlignedStoresAreAligned : Coherent midBatch ∧ issued midBatch = some .vStoreA :=
  ⟨midBatch_coherent, rfl⟩

theorem witness_BlockWritesOutputBufferOnly :
    Coherent midSample ∧ sequencerMoves midSample ∧ (∃ t, step midSample = .next t) ∧
    inOutput midSample 0x1FFF = false ∧ inOutput midSample 0x2010 = false :=
  ⟨midSample_coherent, .inl rfl, next_of_leaves (f := fun t => t.i == 2) (by decide), by decide, by decide⟩

theorem witness_ArgumentsFixedWhileBusy :
    (at_ .s0).status.busy = true ∧ (∃ t, step (at_ .s0) = .next t) ∧ ∀ l rest, (at_ .s0).turns ≠ .rst l :: rest :=
  ⟨rfl, next_of_leaves (f := fun t => t.st == .s1) (by decide), fun l rest h => by cases h⟩

theorem witness_DoneIsSticky :
    ({ ready with status := ⟨false, true⟩, turns := [.writeCtrl 1] } : State).status.done = true ∧
    (∃ t, step { ready with status := ⟨false, true⟩, turns := [.writeCtrl 1] } = .next t) ∧
    ∀ l rest, ({ ready with status := ⟨false, true⟩, turns := [.writeCtrl 1] } : State).turns ≠ .rst l :: rest := by
  refine ⟨rfl, next_of_leaves (f := fun t => t.st == .setup) (by decide), fun l rest h => ?_⟩
  injection h with h
  cases h

theorem witness_ConversionIsOneRounding : f32Finite 0x7F7FFFFF#32 = true ∧ f32Finite 0x80000001#32 = true := by decide

theorem witness_ConversionIsNeverNaN : f32Finite 0x7F7FFFFF#32 = true ∧ f32Finite 0x00000000#32 = true := by decide

theorem witness_ScalarSampleConvertsOneWord :
    (at_ .s0).st = .s0 ∧ (at_ .s0).turns = [] ∧
    served (at_ .s0).platform .read ((at_ .s0).inBase.toNat + 4 * (at_ .s0).i.toNat) 4 ∧
    served (at_ .s0).platform .write ((at_ .s0).outBase.toNat + 8 * (at_ .s0).i.toNat) 8 ∧ memWf (at_ .s0).mem = true ∧
    ((at_ .s0).platform.buffersStores = false → (at_ .s0).inFlight = []) :=
  ⟨rfl, rfl, served_iff.2 (by decide), served_iff.2 (by decide), by decide, by decide⟩

theorem witness_BulkIterationConvertsEightWords :
    (batchAt .v0).st = .v0 ∧ (batchAt .v0).turns = [] ∧ (batchAt .v0).br ≠ .none ∧
    (∀ j, j < 8 → vslot (batchAt .v0).vk j = (batchAt .v0).k) ∧
    served (batchAt .v0).platform .read ((batchAt .v0).inBase.toNat + 4 * (batchAt .v0).i.toNat) 32 ∧
    served (batchAt .v0).platform .write ((batchAt .v0).outBase.toNat + 8 * (batchAt .v0).i.toNat) 64 ∧
    memWf (batchAt .v0).mem = true ∧ ((batchAt .v0).platform.buffersStores = false → (batchAt .v0).inFlight = []) :=
  ⟨rfl, rfl, by decide, by decide, served_iff.2 (by decide), served_iff.2 (by decide), by decide, by decide⟩

theorem witness_CommandEndsAsSpecified :
    Coherent ready ∧ ready.st = .idle ∧ ready.turns = [] ∧ Admitted ready ∧
    commandSteps ready.outBase ready.nsamps.toNat = 13 ∧ 12 < commandSteps ready.outBase ready.nsamps.toNat :=
  ⟨ready_coherent, rfl, rfl, ready_admitted, by decide, by decide⟩

theorem witness_CommandAccessesInOrder :
    Coherent ready ∧ ready.st = .idle ∧ ready.turns = [] ∧ Admitted ready ∧
    commandShapes ready = [.read 0x1000 4, .write 0x2000 8 .unaligned] :=
  ⟨ready_coherent, rfl, rfl, ready_admitted, by decide⟩

end Sys2Proof.Machine.Tests
end

/-! ## The state: what its steps are, and what every step keeps -/

/-! ### The steps of the sequencer and of the host -/

namespace Sys2Proof.Machine

/-- Settles O5, state by state, by the equations of `issued`. -/
theorem sequencerIssuesByState : Obligations.SequencerIssuesByState := by
  intro s
  have haligned (hst : s.st = .v8) (hbr : s.br = .one ∨ s.br = .two) : issued s = some .vStoreA := by
    rcases hbr with hbr | hbr <;> simp [issued, hst, hbr]
  have hunaligned (hst : s.st = .v8) (hbr : s.br = .three) : issued s = some .vStoreU := by simp [issued, hst, hbr]
  have hstuck (hst : s.st = .v8) (hbr : s.br = .none) : issued s = none := issued_eq_none.2 ⟨hst, hbr⟩
  refine ⟨?_, ?_, ?_, ?_, ?_, ?_, ?_, ?_, ?_, ?_, ?_, ?_, ?_, ?_, ?_, ?_, ?_, ?_, ?_, ?_, ?_, haligned, hunaligned,
    hstuck⟩
  all_goals
    intro hst
    simp [issued, hst]

/-- At the sequencer's move the turn taken is its own, on the state in which the schedule has moved on. -/
theorem fetch_of_sequencerMoves {s : State} (h : sequencerMoves s) : fetch s = sequencerTurn (popped s) := by
  rcases h with h | ⟨rest, h⟩
  · have hp : popped s = s := by rw [popped, h, List.tail_nil, ← h]
    rw [fetch_nil h, hp]
  · exact fetch_cons h

/-- Settles O6, by whether the sequencer issues a micro-operation: the schedule is nothing `issued` looks at. -/
theorem stepRunsIssuedMicroOperation : Obligations.StepRunsIssuedMicroOperation := by
  intro s hs
  have hf := fetch_of_sequencerMoves hs
  constructor
  · intro i hi
    exact step_of_run (hf.trans (sequencerTurn_of_issued (s := popped s) hi))
  · intro hi
    exact step_of_other (hf.trans (sequencerTurn_of_stuck (s := popped s) hi))

/-! ### Argument registers -/

theorem argValue_writeArg_same {a : Arg} {v : BitVec 64} {s : State} (h : s.status.busy = false) :
    argValue a (writeArg a v s) = v := by
  cases a <;> simp [writeArg, argValue, h]

theorem argMark_writeArg_same {a : Arg} {v : BitVec 64} {s : State} (h : s.status.busy = false) :
    argMark a (writeArg a v s).marks = true := by
  cases a <;> simp [writeArg, argMark, h]

/-- A write of one argument register leaves the value and the mark of every other alone, busy or idle. -/
theorem writeArg_other {a b : Arg} (hb : b ≠ a) (v : BitVec 64) (s : State) :
    argValue b (writeArg a v s) = argValue b s ∧ argMark b (writeArg a v s).marks = argMark b s.marks := by
  unfold writeArg
  split
  · exact ⟨rfl, rfl⟩
  · revert hb
    cases a <;> cases b <;> simp [argValue, argMark]

/-- Settles O38, by whether a command runs. -/
theorem argumentWriteReplacesRegister : Obligations.ArgumentWriteReplacesRegister := by
  intro s a v rest hturn
  have hp : popped s = { s with turns := rest } := by rw [popped, hturn, List.tail_cons]
  have hstep : step s = .next (writeArg a v (popped s)) := step_of_other (fetch_cons hturn)
  constructor
  · intro hbusy
    rw [hstep, writeArg_busy (s := popped s) hbusy, hp]
  · intro hidle
    refine ⟨_, hstep, argValue_writeArg_same hidle, argMark_writeArg_same hidle,
      fun b hb => writeArg_other hb v (popped s), ?_⟩
    rw [hp]
    exact writeArg_frame a v { s with turns := rest }

/-! ### Host reads -/

/-- `BUSY` and `DONE` are bits 0 and 1 of the word a read of `STATUS` returns, and no other bit is set (spec/10 R23). -/
theorem statusWord_getLsbD (st : Status) (n : Nat) :
    (statusWord st).getLsbD n = if n = 0 then st.busy else if n = 1 then st.done else false := by
  obtain ⟨busy, done⟩ := st
  have h1 : (1#32).getLsbD n = decide (n = 0) := by simp
  have h2 : (2#32).getLsbD n = decide (n = 1) := by
    rw [show (2#32) = BitVec.twoPow 32 1 from rfl, BitVec.getLsbD_twoPow]
    simp [eq_comm]
  rw [statusWord, BitVec.getLsbD_or]
  cases busy <;> cases done <;> by_cases h0 : n = 0 <;> simp [h0, h1, h2]

/-- Settles O39: the returned data are read off `readReg`, register by register. -/
theorem hostReadsReturnRegisters : Obligations.HostReadsReturnRegisters := by
  intro s r rest hturn
  have hp : popped s = { s with turns := rest } := by rw [popped, hturn, List.tail_cons]
  have hstep : step s = .next (readReg r (popped s)) := step_of_other (fetch_cons hturn)
  rw [hp] at hstep
  refine ⟨_, hstep, readReg_frame r { s with turns := rest }, ?_, ?_, ?_⟩
  · rintro rfl
    rfl
  · rintro rfl
    have hbit (n : Nat) : (readReg .status { s with turns := rest }).rdata.getLsbD n =
        (decide (n < 64) && if n = 0 then s.status.busy else if n = 1 then s.status.done else false) := by
      rw [← statusWord_getLsbD]
      exact BitVec.getLsbD_setWidth ..
    refine ⟨hbit 0, hbit 1, fun n hn => ?_⟩
    rw [hbit, if_neg (by omega), if_neg (by omega), Bool.and_false]
  · rintro a rfl hmark
    simp [readReg, hmark, argValue]

/-- Settles O40. -/
theorem statusWriteIsIgnored : Obligations.StatusWriteIsIgnored := by
  intro s v rest hturn
  rw [step_of_other (o := .next (popped s)) (fetch_cons hturn), popped, hturn, List.tail_cons]

/-- Settles O42: every clause is a closed fact about `State.reset`. -/
theorem resetStateIsTheSpecs : Obligations.ResetStateIsTheSpecs := by
  unfold Obligations.ResetStateIsTheSpecs
  decide

/-- An idle block with nothing in flight is coherent, if its memory is canonical and the other converters are apart. -/
theorem coherent_of_idle {s : State} (hst : s.st = .idle) (hbusy : s.status.busy = false) (hflight : s.inFlight = [])
    (hmem : memWf s.mem = true)
    (hapart : s.others.Pairwise fun p q => ∀ a, ¬(pairHolds p a = true ∧ pairHolds q a = true)) : Coherent s where
  memory := hmem
  exclusive := by simp [hbusy]
  running := by simp [hbusy, hst]
  admitted := by simp [hbusy]
  constants := by simp [hst, afterSetup]
  probed := by simp [hst, afterProbe, afterSetup]
  headIndex := by simp [hst]
  sample := by simp [hst, inSample]
  wholeBatch := by simp [hst, inBatch]
  bulkIndex := by simp [hst, inBatch]
  shortTail := by simp [hst, inSample]
  finished := by simp [hst]
  port := fun _ => hflight
  drained := fun _ => hflight
  inFlightOutput := by simp [hflight]
  writtenOnce := by simp [hflight]
  apart := hapart

/-- Before `C.SETUP` there is nothing that `Progress` asks. -/
theorem progress_of_not_afterSetup {s : State} (h : afterSetup s.st = false) : Progress s := by
  obtain hst | hst : s.st = .idle ∨ s.st = .setup := by
    revert h
    cases s.st <;> simp [afterSetup]
  all_goals
    exact ⟨fun h' => absurd h' (by simp [h]), by simp [ScalarHolds, hst], by simp [VectorHolds, hst]⟩

/-- Settles O45: the reset state is idle, and its lists are empty. -/
theorem resetIsCoherent : Obligations.ResetIsCoherent :=
  ⟨coherent_of_idle rfl rfl rfl rfl .nil, progress_of_not_afterSetup rfl⟩

end Sys2Proof.Machine

/-! ### What the sequencer can do, state by state -/

namespace Sys2Proof.Machine

/-- The bytes of the sample that `FR` and `FI` hold, at the address of sample `I` (spec/44 R206). -/
def sampleCells (s : State) : List Host.Cell := storeCells (storeAddr s) 8 (samplePair s.fr s.fi)

/-- The bytes of the eight samples that `VFA` and `VFB` hold, at the address of sample `I` (spec/43 R179). -/
def batchCells (s : State) : List Host.Cell :=
  storeCells (storeAddr s) 32 s.vfa ++ storeCells (storeAddr s + 32) 32 s.vfb

/-- The memory access that the micro-operation of the current state makes, if it makes one: its kind, address and size
(spec/42 R153). -/
def currentAccess (s : State) : Option (Access × Nat × Nat) :=
  match s.st with
  | .s0 => some (.read, inAddr s.inBase s.i, 4)
  | .s5 => some (.write, storeAddr s, 8)
  | .v0 => some (.read, inAddr s.inBase s.i, 32)
  | .v8 => some (.write, storeAddr s, 64)
  | _ => none

/-- What one micro-operation of the sequencer makes of a state, one constructor for each outcome of each of them. The
conditions are those of the branch taken, in plain arithmetic. Tied to the model by `sequencerMove_of_exec`. -/
inductive SequencerMove (s : State) : State → Prop
  | idle (hst : s.st = .idle) : SequencerMove s s
  | stuck (hnone : issued s = none) : SequencerMove s s
  | unserved {acc : Access} {a n : Nat} (hacc : currentAccess s = some (acc, a, n))
      (hno : ¬served s.platform acc a n) : SequencerMove s s
  | setup (hst : s.st = .setup) : SequencerMove s
      { s with
        i := 0
        k := scaleConstant s.scale
        vk := vofSlots fun _ => scaleConstant s.scale
        vz := 0
        st := .probe }
  | probe (hst : s.st = .probe) : SequencerMove s { s with br := probeBranch s.outBase, st := .headtest }
  | headSample (hst : s.st = .headtest) (hbr : s.br = .two) (hleft : s.i.toNat < s.nsamps.toNat) :
      SequencerMove s { s with ret := .head, st := .s0 }
  | noHead (hst : s.st = .headtest) (hno : s.br = .two → s.nsamps.toNat ≤ s.i.toNat) :
      SequencerMove s { s with st := .bulktest }
  | wholeBatch (hst : s.st = .bulktest) (hleft : s.i.toNat + 7 < s.nsamps.toNat) : SequencerMove s { s with st := .v0 }
  | noBatch (hst : s.st = .bulktest) (hno : s.nsamps.toNat ≤ s.i.toNat + 7) :
      SequencerMove s { s with st := .tailtest }
  | tailSample (hst : s.st = .tailtest) (hleft : s.i.toNat < s.nsamps.toNat) :
      SequencerMove s { s with ret := .tail, st := .s0 }
  | noTail (hst : s.st = .tailtest) (hno : s.nsamps.toNat ≤ s.i.toNat) : SequencerMove s { s with st := .finish }
  | finish (hst : s.st = .finish) :
      SequencerMove s { s with mem := settled s, inFlight := [], status := ⟨false, true⟩, st := .idle }
  | sLoad (hst : s.st = .s0) (hserved : served s.platform .read (inAddr s.inBase s.i) 4) : SequencerMove s
      { s with
        history := s.history ++ [.read (inAddr s.inBase s.i) 4]
        w := inputWord s s.i.toNat
        st := .s1 }
  | sDecode (hst : s.st = .s1) :
      SequencerMove s { s with rr := decodeReal s.m s.w, ri := decodeImag s.m s.w, st := .s2 }
  | sWiden (hst : s.st = .s2) : SequencerMove s { s with xr := widen s.rr, xi := widen s.ri, st := .s3 }
  | sCvt (hst : s.st = .s3) : SequencerMove s { s with fr := i2f s.xr, fi := i2f s.xi, st := .s4 }
  | sMul (hst : s.st = .s4) : SequencerMove s { s with fr := fmul s.fr s.k, fi := fmul s.fi s.k, st := .s5 }
  | sStore (hst : s.st = .s5) (hserved : served s.platform .write (storeAddr s) 8) : SequencerMove s
      { s with
        mem := (issueCells (sampleCells s) s).mem
        inFlight := (issueCells (sampleCells s) s).inFlight
        history := s.history ++ [.write (storeAddr s) 8 (samplePair s.fr s.fi).toNat .unaligned]
        i := s.i + 1
        st := if s.ret = .head then .bulktest else .tailtest }
  | vLoad (hst : s.st = .v0) (hserved : served s.platform .read (inAddr s.inBase s.i) 32) : SequencerMove s
      { s with
        history := s.history ++ [.read (inAddr s.inBase s.i) 32]
        vin := memRead32 s.mem (inAddr s.inBase s.i)
        st := .v1 }
  | vBswap16 (hst : s.st = .v1) :
      SequencerMove s { s with vin := if bswapTable s.m then vmap bswap16w s.vin else s.vin, st := .v2 }
  | vHswap (hst : s.st = .v2) :
      SequencerMove s { s with vin := if realHiTable s.m then vmap hswap s.vin else s.vin, st := .v3 }
  | vUnpacklo (hst : s.st = .v3) : SequencerMove s { s with vlo := unpackLo s.vin, st := .v4 }
  | vUnpackhi (hst : s.st = .v4) : SequencerMove s { s with vhi := unpackHi s.vin, st := .v5 }
  | vPerm (hst : s.st = .v5) : SequencerMove s
      { s with
        va := vofHalves (vhalf s.vlo 0) (vhalf s.vhi 0)
        vb := vofHalves (vhalf s.vlo 1) (vhalf s.vhi 1)
        st := .v6 }
  | vCvt (hst : s.st = .v6) : SequencerMove s { s with vfa := vmap i2f s.va, vfb := vmap i2f s.vb, st := .v7 }
  | vMul (hst : s.st = .v7) :
      SequencerMove s { s with vfa := vmap₂ fmul s.vfa s.vk, vfb := vmap₂ fmul s.vfb s.vk, st := .v8 }
  | vStore (hst : s.st = .v8) (hbr : s.br ≠ .none) (hserved : served s.platform .write (storeAddr s) 64) :
      SequencerMove s
      { s with
        mem := (issueCells (batchCells s) s).mem
        inFlight := (issueCells (batchCells s) s).inFlight
        history := s.history ++
          [.write (storeAddr s) 32 s.vfa.toNat (branchForm s.br),
            .write (storeAddr s + 32) 32 s.vfb.toNat (branchForm s.br)]
        i := s.i + 8
        st := .bulktest }

/-- A micro-operation is issued in its own state. -/
theorem st_of_issued {s : State} {i : Instr} (h : issued s = some i) : s.st = issueState i := by
  cases hst : s.st with
  | v8 => cases hbr : s.br <;> simp only [issued, hst, hbr] at h <;> cases h <;> rfl
  | _ =>
    simp only [issued, hst] at h
    cases h
    rfl

/-- A write is an issue of its bytes, with an event. -/
theorem memWrite_eq {w : Nat} (a n : Nat) (v : BitVec w) (form : Form) (s : State) :
    memWrite a n v form s =
      { s with
        mem := (issueCells (storeCells a n v) s).mem
        inFlight := (issueCells (storeCells a n v) s).inFlight
        history := s.history ++ [.write a n v.toNat form] } := by
  unfold memWrite issueCells
  dsimp only
  split <;> rfl

/-- Two writes in a row are one issue of the bytes of both, with two events. -/
theorem memWrite_memWrite_eq {w x : Nat} (a n : Nat) (u : BitVec w) (b k : Nat) (v : BitVec x) (form : Form)
    (s : State) :
    memWrite b k v form (memWrite a n u form s) =
      { s with
        mem := (issueCells (storeCells a n u ++ storeCells b k v) s).mem
        inFlight := (issueCells (storeCells a n u ++ storeCells b k v) s).inFlight
        history := s.history ++ [.write a n u.toNat form, .write b k v.toNat form] } := by
  unfold memWrite issueCells
  cases hb : s.platform.buffersStores <;> simp [hb, memPerform_append]

/-- An access that ends in a next state was not served and changed nothing, or was served and performed. -/
theorem access_next_cases {acc : Access} {a n : Nat} {s t u : State} (h : access acc a n s t = .next u) :
    (u = s ∧ ¬served s.platform acc a n) ∨ (u = t ∧ served s.platform acc a n) := by
  rcases access_cases acc a n s t with ⟨-, e⟩ | ⟨-, hno, e⟩ | ⟨hs, e⟩ <;> rw [e] at h <;> cases h
  · exact .inl ⟨rfl, hno⟩
  · exact .inr ⟨rfl, hs⟩

theorem sequencerMove_of_sStore {s t : State} (hst : s.st = .s5) (h : execSStore s = .next t) : SequencerMove s t := by
  rcases access_next_cases h with ⟨rfl, hno⟩ | ⟨rfl, hs⟩
  · exact .unserved (by rw [currentAccess, hst]) hno
  · have hmove := SequencerMove.sStore hst hs
    rw [memWrite_eq]
    cases hret : s.ret <;> rw [hret] at hmove <;> exact hmove

/-- A vector store in the form of its branch (spec/42 R149). -/
theorem sequencerMove_of_vectorStore {s t : State} (hst : s.st = .v8) (hbr : s.br ≠ .none)
    (h : vectorStore (branchForm s.br) s = .next t) : SequencerMove s t := by
  rcases access_next_cases h with ⟨rfl, hno⟩ | ⟨rfl, hs⟩
  · exact .unserved (by rw [currentAccess, hst]) hno
  · rw [memWrite_memWrite_eq]
    exact .vStore hst hbr hs

/-- The form in which `V8` issues a vector store is that of its branch. -/
theorem branch_of_issued_store {s : State} (hst : s.st = .v8) :
    (issued s = some .vStoreA → s.br ≠ .none ∧ branchForm s.br = .aligned) ∧
      (issued s = some .vStoreU → s.br ≠ .none ∧ branchForm s.br = .unaligned) := by
  cases hbr : s.br <;> simp [issued, hst, hbr, branchForm]

/-- All the micro-operation that the sequencer issues can do. -/
theorem sequencerMove_of_exec {s t : State} {i : Instr} (hi : issued s = some i) (h : exec i s = .next t) :
    SequencerMove s t := by
  have hst := st_of_issued hi
  cases i with
  | nop | convertNative | convertLe | convertBe => rw [issued, hst] at hi; cases hi
  | cIdle => cases h; exact .idle hst
  | cSetup => cases h; exact .setup hst
  | cProbe => cases h; exact .probe hst
  | cHeadtest =>
    simp only [exec, execCHeadtest, sampleLeft_iff] at h
    split at h
    · next hif => cases h; exact .headSample hst hif.1 hif.2
    · next hif => cases h; exact .noHead hst fun hbr => not_lt.1 fun hlt => hif ⟨hbr, hlt⟩
  | cBulktest =>
    simp only [exec, execCBulktest, batchLeft_iff] at h
    split at h
    · next hif => cases h; exact .wholeBatch hst hif
    · next hif => cases h; exact .noBatch hst (not_lt.1 hif)
  | cTailtest =>
    simp only [exec, execCTailtest, sampleLeft_iff] at h
    split at h
    · next hif => cases h; exact .tailSample hst hif
    · next hif => cases h; exact .noTail hst (not_lt.1 hif)
  | cFinish => cases h; exact .finish hst
  | sLoad =>
    rcases access_next_cases h with ⟨rfl, hno⟩ | ⟨rfl, hs⟩
    · exact .unserved (by rw [currentAccess, hst]; rfl) hno
    · exact .sLoad hst hs
  | sDecode => cases h; exact .sDecode hst
  | sWiden => cases h; exact .sWiden hst
  | sCvt => cases h; exact .sCvt hst
  | sMul => cases h; exact .sMul hst
  | sStore => exact sequencerMove_of_sStore hst h
  | vLoad =>
    rcases access_next_cases h with ⟨rfl, hno⟩ | ⟨rfl, hs⟩
    · exact .unserved (by rw [currentAccess, hst]; rfl) hno
    · exact .vLoad hst hs
  | vBswap16 => cases h; exact .vBswap16 hst
  | vHswap => cases h; exact .vHswap hst
  | vUnpacklo => cases h; exact .vUnpacklo hst
  | vUnpackhi => cases h; exact .vUnpackhi hst
  | vPerm => cases h; exact .vPerm hst
  | vCvt => cases h; exact .vCvt hst
  | vMul => cases h; exact .vMul hst
  | vStoreA =>
    obtain ⟨hbr, hform⟩ := (branch_of_issued_store hst).1 hi
    exact sequencerMove_of_vectorStore hst hbr (by rw [hform]; exact h)
  | vStoreU =>
    obtain ⟨hbr, hform⟩ := (branch_of_issued_store hst).2 hi
    exact sequencerMove_of_vectorStore hst hbr (by rw [hform]; exact h)

/-- A step at the sequencer's move, on the state in which the schedule has moved on. -/
theorem sequencerMove_of_step {s t : State} (hs : sequencerMoves s) (h : step s = .next t) :
    SequencerMove (popped s) t := by
  obtain ⟨hrun, hstuck⟩ := stepRunsIssuedMicroOperation s hs
  cases hi : issued s with
  | some i => exact sequencerMove_of_exec (s := popped s) hi ((hrun i hi).symm.trans h)
  | none =>
    obtain rfl : t = popped s := by injection h.symm.trans (hstuck hi)
    exact .stuck hi

/-! ### What any agent but reset can do -/

/-- What one move of any agent but `rst` makes of a state whose schedule has moved on. -/
inductive Move (s : State) : State → Prop
  | sequencer {t : State} (h : SequencerMove s t) : Move s t
  /-- An ignored write, `NOP`, a read by whichever agent: nothing but the returned data and the free values changes. -/
  | quiet (rdata : BitVec 64) (draws : Nat) : Move s { s with rdata := rdata, draws := draws }
  | accept (m : Mode) (hidle : s.status.busy = false) (hadm : Admitted s) : Move s (accepted m s)
  | argument (a : Arg) (v : BitVec 64) (hidle : s.status.busy = false) : Move s (writeArg a v s)
  /-- A byte written by an agent that is no converter, or by another converter. -/
  | outsideWrite (a : Nat) (v : Byte) (hout : s.status.busy = true → inInput s a = false ∧ inOutput s a = false) :
      Move s { s with mem := memPut s.mem a v }
  | otherStart (p : BufferPair) (hown : s.status.busy = true → pairsMeet (ownPair s) p = false)
      (hothers : meetsOther p s = false) : Move s { s with others := s.others ++ [p] }
  | otherEnd (index : Nat) : Move s (otherEnd index s)
  | port (index : Nat) : Move s (portPerform index s)

/-- A command that ends in a next state was ignored, or has just been accepted. -/
theorem move_of_startCommand {m : Mode} {s t : State} (h : startCommand m s = .next t) : Move s t := by
  rcases startCommand_cases m s with ⟨-, e⟩ | ⟨-, r, -, e⟩ | ⟨hidle, hadm, e⟩ <;> rw [e] at h
  · cases h; exact .quiet _ _
  · cases h
  · cases h; exact .accept m hidle (admission_eq_none_iff.1 hadm)

/-- A word written to `CTRL` decodes to a command only: to `NOP`, which changes nothing, or to a `CONVERT`. -/
theorem move_of_command {c : Word32} {i : Instr} {s t : State} (hdecode : decodeCmd c = .ok i)
    (h : exec i s = .next t) : Move s t := by
  unfold decodeCmd at hdecode
  split_ifs at hdecode <;> cases hdecode
  · cases h
    exact .quiet s.rdata s.draws
  all_goals exact move_of_startCommand h

/-- An agent that is no converter writes outside the buffers of a running command. -/
theorem outside_of_not_concurrent {a : Nat} {s : State} (h : concurrent .write a s = false)
    (hbusy : s.status.busy = true) : inInput s a = false ∧ inOutput s a = false := by
  simpa [concurrent, hbusy, and_comm] using h

/-- Another converter's write is to a byte outside the buffers of a running command (spec/20 R68). -/
theorem outside_of_not_pairHolds {a : Nat} {s : State}
    (h : ¬(s.status.busy = true ∧ pairHolds (ownPair s) a = true)) (hbusy : s.status.busy = true) :
    inInput s a = false ∧ inOutput s a = false := by
  simpa only [hbusy, true_and, pairHolds_ownPair, not_or, Bool.not_eq_true] using h

/-- A step that ends in a next state is one move, on the state in which the schedule has moved on, or a reset. -/
theorem move_of_step {s t : State} (h : step s = .next t) :
    Move (popped s) t ∨ ∃ landed rest, s.turns = .rst landed :: rest ∧ t = resetWith landed (popped s) := by
  rcases step_cases h with ⟨i, hexec, hi, -⟩ | ⟨-, -, rfl⟩ | ⟨c, r, i, -, hdecode, hexec⟩ | ⟨c, r, -, -, rfl⟩ |
    ⟨v, r, -, rfl⟩ | ⟨a, v, r, -, rfl⟩ | ⟨a, r, -, rfl⟩ | ⟨a, v, r, -, hfree, rfl⟩ | ⟨a, r, -, -, rfl⟩ |
    ⟨p, r, -, hown, hothers, rfl⟩ | ⟨k, a, r, -, rfl⟩ | ⟨k, a, v, r, -, rfl | ⟨p, -, -, hfree, rfl⟩⟩ | ⟨k, r, -, rfl⟩ |
    ⟨k, r, -, rfl⟩ | hrst
  · exact .inl (.sequencer (sequencerMove_of_exec hi hexec))
  · exact .inl (.quiet _ _)
  · exact .inl (move_of_command hdecode hexec)
  · exact .inl (.quiet _ _)
  · exact .inl (.quiet _ _)
  · cases hidle : s.status.busy with
    | true => rw [writeArg_busy (s := popped s) hidle]; exact .inl (.quiet _ _)
    | false => exact .inl (.argument a v hidle)
  · rw [readReg_frame]
    exact .inl (.quiet _ _)
  · exact .inl (.outsideWrite _ _ (outside_of_not_concurrent hfree))
  · exact .inl (.quiet _ _)
  · exact .inl (.otherStart p hown hothers)
  · exact .inl (.quiet _ _)
  · exact .inl (.quiet _ _)
  · exact .inl (.outsideWrite _ _ (outside_of_not_pairHolds hfree))
  · exact .inl (.otherEnd k)
  · exact .inl (.port k)
  · exact .inr hrst

/-! ### What no move changes while a command runs -/

/-- The argument registers, their marks, the mode and the platform are the same. -/
def SameArguments (s t : State) : Prop :=
  t.inBase = s.inBase ∧ t.outBase = s.outBase ∧ t.nsamps = s.nsamps ∧ t.scale = s.scale ∧ t.marks = s.marks ∧
    t.m = s.m ∧ t.platform = s.platform

/-- No micro-operation writes an argument register. -/
theorem SequencerMove.sameArguments {s t : State} (h : SequencerMove s t) : SameArguments s t := by
  cases h <;> exact ⟨rfl, rfl, rfl, rfl, rfl, rfl, rfl⟩

/-- While a command runs, neither does any other agent. -/
theorem Move.sameArguments {s t : State} (h : Move s t) (hbusy : s.status.busy = true) : SameArguments s t := by
  cases h with
  | sequencer h => exact h.sameArguments
  | accept m hidle => rw [hbusy] at hidle; cases hidle
  | argument a v hidle => rw [hbusy] at hidle; cases hidle
  | port index => simp [SameArguments]
  | quiet | outsideWrite | otherStart | otherEnd => exact ⟨rfl, rfl, rfl, rfl, rfl, rfl, rfl⟩

/-- Settles O52, by the moves a step can be: only `accepted` and `writeArg` write these registers, both while idle. -/
theorem argumentsFixedWhileBusy : Obligations.ArgumentsFixedWhileBusy := by
  intro s t hbusy hstep hnorst
  rcases move_of_step hstep with hmove | ⟨landed, rest, hrst, -⟩
  · exact hmove.sameArguments (s := popped s) hbusy
  · exact absurd hrst (hnorst landed rest)

end Sys2Proof.Machine

/-! ### Where the sequencer stands -/

namespace Sys2Proof.Machine

/-- What `Coherent` asks of `I` and `BR` where a bulk iteration begins or is under way (spec/42 R154, R155). -/
def BulkIndex (s : State) : Prop :=
  (s.br = .one → s.i.toNat % 8 = 0) ∧ (s.br = .two → s.i.toNat % 8 = 1 ∨ s.nsamps.toNat = 0)

/-- What `Coherent` asks of `I`, `BR` and `RET` at each sequencer state. Tied to it by `position_iff`. -/
def Position (s : State) : Prop :=
  match s.st with
  | .idle | .setup => True
  | .probe | .headtest => s.i = 0
  | .bulktest => BulkIndex s
  | .tailtest => s.nsamps.toNat < s.i.toNat + 8
  | .finish => s.i = s.nsamps
  | .s0 | .s1 | .s2 | .s3 | .s4 | .s5 =>
    s.i.toNat < s.nsamps.toNat ∧ (s.ret = .head → s.i = 0 ∧ s.br = .two) ∧
      (s.ret = .tail → s.nsamps.toNat < s.i.toNat + 8)
  | .v0 | .v1 | .v2 | .v3 | .v4 | .v5 | .v6 | .v7 | .v8 => s.i.toNat + 7 < s.nsamps.toNat ∧ BulkIndex s

/-- `Position` is the six clauses of `Coherent` about `I`, `BR` and `RET`. -/
theorem position_iff {s : State} :
    Position s ↔
      (s.st = .probe ∨ s.st = .headtest → s.i = 0) ∧
      (inSample s.st = true → s.i.toNat < s.nsamps.toNat ∧ (s.ret = .head → s.i = 0 ∧ s.br = .two)) ∧
      (inBatch s.st = true → s.i.toNat + 7 < s.nsamps.toNat) ∧
      (s.st = .bulktest ∨ inBatch s.st = true → BulkIndex s) ∧
      (s.st = .tailtest ∨ (inSample s.st = true ∧ s.ret = .tail) → s.nsamps.toNat < s.i.toNat + 8) ∧
      (s.st = .finish → s.i = s.nsamps) := by
  unfold Position
  cases s.st <;> simp [inSample, inBatch, and_assoc]

theorem Coherent.position {s : State} (hc : Coherent s) : Position s :=
  position_iff.2 ⟨hc.headIndex, hc.sample, hc.wholeBatch, hc.bulkIndex, hc.shortTail, hc.finished⟩

/-- The registers of control, but for `ST`, `RET` and `I`, and the platform and other converters are the same. -/
structure SameControl (s t : State) : Prop where
  status : t.status = s.status
  arguments : SameArguments s t
  others : t.others = s.others
  br : t.br = s.br
  k : t.k = s.k
  vk : t.vk = s.vk
  vz : t.vz = s.vz

/-- What `Coherent` asks of the bytes in flight during a command (spec/20 R57, R62, spec/10 R36). -/
structure FlightHolds (s : State) : Prop where
  port : s.platform.buffersStores = false → s.inFlight = []
  output : ∀ c ∈ s.inFlight, s.outBase.toNat ≤ c.1 ∧ c.1 < s.outBase.toNat + 8 * s.i.toNat
  once : (s.inFlight.map Prod.fst).Nodup

theorem Coherent.flight {s : State} (hc : Coherent s) : FlightHolds s :=
  ⟨hc.port, hc.inFlightOutput, hc.writtenOnce⟩

theorem afterSetup_of_afterProbe {st : SeqState} (h : afterProbe st = true) : afterSetup st = true :=
  (Bool.and_eq_true_iff.1 h).1

theorem ne_idle_of_afterSetup {st : SeqState} (h : afterSetup st = true) : st ≠ .idle := by
  rintro rfl
  cases h

/-- Between the probe and the end of a command a state is coherent again if the sequencer stands where it should, memory
is canonical and the bytes in flight are in order. -/
theorem Coherent.advance {s t : State} (hc : Coherent s) (hs : afterProbe s.st = true) (ht : afterProbe t.st = true)
    (hsame : SameControl s t) (hpos : Position t) (hi : t.i.toNat ≤ t.nsamps.toNat) (hmem : memWf t.mem = true)
    (hflight : FlightHolds t) : Coherent t := by
  obtain ⟨hstatus, ⟨hin, hout, hn, hscale, hmarks, -, hplatform⟩, hothers, hbr, hk, hvk, hvz⟩ := hsame
  obtain ⟨hhead, hsample, hbatch, hbulk, htail, hfinish⟩ := position_iff.1 hpos
  have hs' := afterSetup_of_afterProbe hs
  have ht' := afterSetup_of_afterProbe ht
  have hbusy : s.status.busy = true := hc.running.2 (ne_idle_of_afterSetup hs')
  obtain ⟨ck, cvk, cvz, -⟩ := hc.constants hs'
  exact {
    memory := hmem
    exclusive := by rw [hstatus]; exact hc.exclusive
    running := by rw [hstatus]; exact ⟨fun _ => ne_idle_of_afterSetup ht', fun _ => hbusy⟩
    admitted := fun _ => admitted_congr (hc.admitted hbusy) hmarks hscale hin hout hn hplatform
      (by rw [hothers]; exact List.Subset.refl _)
    constants := fun _ => ⟨by rw [hk, hscale]; exact ck, by rw [hvk, hk]; exact cvk, by rw [hvz]; exact cvz, hi⟩
    probed := fun _ => by rw [hbr, hout]; exact hc.probed hs
    headIndex := hhead
    sample := hsample
    wholeBatch := hbatch
    bulkIndex := hbulk
    shortTail := htail
    finished := hfinish
    port := hflight.port
    drained := fun h => absurd ht' (by simp [h])
    inFlightOutput := hflight.output
    writtenOnce := hflight.once
    apart := by rw [hothers]; exact hc.apart }

/-- A move that stores nothing and keeps `I` leaves only the place of the sequencer to be shown. -/
theorem Coherent.advance_same_index {s t : State} (hc : Coherent s) (hs : afterProbe s.st = true)
    (ht : afterProbe t.st = true) (hsame : SameControl s t) (hi : t.i = s.i) (hmem : t.mem = s.mem)
    (hflight : t.inFlight = s.inFlight) (hpos : Position t) : Coherent t := by
  obtain ⟨-, hout, hn, -, -, -, hplatform⟩ := hsame.arguments
  obtain ⟨-, -, -, hle⟩ := hc.constants (afterSetup_of_afterProbe hs)
  refine hc.advance hs ht hsame hpos (by rwa [hi, hn]) (by rw [hmem]; exact hc.memory) ⟨?_, ?_, ?_⟩
  · rw [hplatform, hflight]; exact hc.port
  · rw [hflight, hout, hi]; exact hc.inFlightOutput
  · rw [hflight]; exact hc.writtenOnce

/-- The schedule is nothing that `Coherent` looks at. -/
theorem Coherent.popped {s : State} (hc : Coherent s) : Coherent (popped s) :=
  { hc with admitted := fun h => admitted_congr (hc.admitted h) rfl rfl rfl rfl rfl rfl (List.Subset.refl _) }

/-! ### The stores -/

/-- `cells` are the bytes of the `n` samples from `I`, each once, and the output has that many left. -/
structure SampleBytes (s : State) (cells : List Host.Cell) (n : Nat) : Prop where
  addresses : ∀ b, b ∈ cells.map Prod.fst ↔ storeAddr s ≤ b ∧ b < storeAddr s + 8 * n
  once : (cells.map Prod.fst).Nodup
  within : s.i.toNat + n ≤ s.nsamps.toNat

theorem Coherent.sampleCells {s : State} (hc : Coherent s) (hst : s.st = .s5) : SampleBytes s (sampleCells s) 1 where
  addresses := fun _ => mem_storeCells_fst
  once := storeCells_nodup _ _ _
  within := (hc.sample (by rw [hst]; rfl)).1

theorem Coherent.batchCells {s : State} (hc : Coherent s) (hst : s.st = .v8) : SampleBytes s (batchCells s) 8 where
  addresses := fun b => by
    rw [Machine.batchCells, List.map_append, List.mem_append, mem_storeCells_fst, mem_storeCells_fst]
    omega
  once := by
    rw [Machine.batchCells, List.map_append]
    refine List.Nodup.append (storeCells_nodup _ _ _) (storeCells_nodup _ _ _) fun b hlow hhigh => ?_
    rw [mem_storeCells_fst] at hlow hhigh
    omega
  within := hc.wholeBatch (by rw [hst]; rfl)

/-- Storing `n` samples moves `I` on without wrap. -/
theorem SampleBytes.toNat_add {s : State} {cells : List Host.Cell} {n : Nat} (h : SampleBytes s cells n) :
    (s.i + BitVec.ofNat 64 n).toNat = s.i.toNat + n := by
  have := h.within
  have := s.nsamps.isLt
  rw [BitVec.toNat_add, BitVec.toNat_ofNat]
  omega

/-- The bytes a store issues are above all that is in flight, so the flight stays in order. -/
theorem SampleBytes.flight {s t : State} {cells : List Host.Cell} {n : Nat} (h : SampleBytes s cells n)
    (hflight : FlightHolds s) (hplatform : t.platform = s.platform) (hout : t.outBase = s.outBase)
    (hi : t.i.toNat = s.i.toNat + n) (ht : t.inFlight = (issueCells cells s).inFlight) : FlightHolds t := by
  rw [issueCells_inFlight] at ht
  have haddr := h.addresses
  simp only [storeAddr_eq] at haddr
  obtain ⟨hport, houtput, honce⟩ := hflight
  cases hb : s.platform.buffersStores with
  | false =>
    have hnil : t.inFlight = [] := by rw [ht, hb]; exact hport hb
    exact ⟨fun _ => hnil, by simp [hnil], by simp [hnil]⟩
  | true =>
    rw [hb, if_pos rfl] at ht
    refine ⟨by simp [hplatform, hb], fun c hmem => ?_, ?_⟩
    · rw [ht, List.mem_append] at hmem
      rw [hout, hi]
      rcases hmem with hold | hnew
      · have := houtput c hold
        omega
      · have := (haddr c.1).1 (List.mem_map_of_mem hnew)
        omega
    · rw [ht, List.map_append]
      refine List.Nodup.append honce h.once fun b hold hnew => ?_
      obtain ⟨c, hmem, rfl⟩ := List.mem_map.1 hold
      have := houtput c hmem
      have := (haddr c.1).1 hnew
      omega

/-- A store leaves the block coherent, if it leaves the sequencer where it should stand. -/
theorem Coherent.store {s t : State} (hc : Coherent s) {cells : List Host.Cell} {n : Nat} (h : SampleBytes s cells n)
    (hs : afterProbe s.st = true) (ht : afterProbe t.st = true) (hsame : SameControl s t)
    (hi : t.i = s.i + BitVec.ofNat 64 n) (hmem : t.mem = (issueCells cells s).mem)
    (hflight : t.inFlight = (issueCells cells s).inFlight) (hpos : Position t) : Coherent t := by
  obtain ⟨-, hout, hn, -, -, -, hplatform⟩ := hsame.arguments
  have hi' : t.i.toNat = s.i.toNat + n := by rw [hi, h.toNat_add]
  refine hc.advance hs ht hsame hpos ?_ ?_ (h.flight hc.flight hplatform hout hi' hflight)
  · rw [hi', hn]; exact h.within
  · rw [hmem]; exact issueCells_wf hc.memory _

/-! ### Every move keeps the invariant of control -/

/-- Before the constants of a command are set up nothing is in flight. -/
theorem Coherent.drained_of_setup {s : State} (hc : Coherent s) (hst : s.st = .setup) : s.inFlight = [] :=
  hc.drained (by rw [hst]; rfl)

/-- A micro-operation leaves the sequencer where `I`, `BR` and `RET` say it should stand. -/
theorem SequencerMove.position {s t : State} (h : SequencerMove s t) (hc : Coherent s) : Position t := by
  have hpos := hc.position
  cases h with
  | idle | stuck | unserved => exact hpos
  | setup => rfl
  | finish => trivial
  | headSample hst hbr hleft =>
    exact ⟨hleft, fun _ => ⟨hc.headIndex (.inr hst), hbr⟩, nofun⟩
  | noHead hst hno =>
    have hi : s.i = 0 := hc.headIndex (.inr hst)
    rw [hi] at hno
    exact ⟨fun _ => by simp [hi], fun hbr => .inr (Nat.le_zero.1 (hno hbr))⟩
  | wholeBatch hst hleft => exact ⟨hleft, hc.bulkIndex (.inl hst)⟩
  | noBatch hst hno => exact Nat.lt_succ_of_le hno
  | tailSample hst hleft => exact ⟨hleft, nofun, fun _ => hc.shortTail (.inl hst)⟩
  | noTail hst hno =>
    obtain ⟨-, -, -, hle⟩ := hc.constants (by rw [hst]; rfl)
    have heq : s.i.toNat = s.nsamps.toNat := by omega
    exact BitVec.eq_of_toNat_eq heq
  | sStore hst =>
    have hi := (hc.sampleCells hst).toNat_add
    simp only [Position, hst] at hpos
    obtain ⟨-, hhead, htail⟩ := hpos
    cases hret : s.ret with
    | head =>
      obtain ⟨hzero, hbr⟩ := hhead hret
      simp [Position, BulkIndex, hzero, hbr]
    | tail =>
      have := htail hret
      show s.nsamps.toNat < (s.i + BitVec.ofNat 64 1).toNat + 8
      omega
  | vStore hst =>
    have hi := (hc.batchCells hst).toNat_add
    simp only [Position, hst] at hpos
    obtain ⟨hleft, hone, htwo⟩ := hpos
    show (s.br = .one → (s.i + BitVec.ofNat 64 8).toNat % 8 = 0) ∧
      (s.br = .two → (s.i + BitVec.ofNat 64 8).toNat % 8 = 1 ∨ s.nsamps.toNat = 0)
    rw [hi]
    refine ⟨fun hbr => ?_, fun hbr => ?_⟩
    · have := hone hbr
      omega
    · have := htwo hbr
      omega
  | probe hst | sLoad hst | sDecode hst | sWiden hst | sCvt hst | sMul hst | vLoad hst | vBswap16 hst | vHswap hst
  | vUnpacklo hst | vUnpackhi hst | vPerm hst | vCvt hst | vMul hst =>
    simp only [Position, hst] at hpos
    exact hpos

/-- From the probe to the last test, micro-operations write no register of control but `ST`, `RET` and `I`. -/
theorem SequencerMove.sameControl {s t : State} (h : SequencerMove s t) (hs : afterProbe s.st = true)
    (hlast : s.st ≠ .finish) : SameControl s t ∧ afterProbe t.st = true := by
  have hargs := h.sameArguments
  cases h with
  | setup hst => rw [hst] at hs; cases hs
  | probe hst => rw [hst] at hs; cases hs
  | finish hst => exact absurd hst hlast
  | idle | stuck | unserved => exact ⟨⟨rfl, hargs, rfl, rfl, rfl, rfl, rfl⟩, hs⟩
  | sStore =>
    refine ⟨⟨rfl, hargs, rfl, rfl, rfl, rfl, rfl⟩, ?_⟩
    cases hret : s.ret <;> simp [afterProbe, afterSetup]
  | _ => exact ⟨⟨rfl, hargs, rfl, rfl, rfl, rfl, rfl⟩, rfl⟩

/-- A micro-operation keeps the invariant of control. -/
theorem SequencerMove.keeps_coherent {s t : State} (h : SequencerMove s t) (hc : Coherent s) : Coherent t := by
  have hpos := h.position hc
  have hsame := h.sameControl
  cases h with
  | idle | stuck | unserved => exact hc
  | setup hst =>
    have hnil := hc.drained_of_setup hst
    have hbusy := hc.running.2 (by simp [hst])
    exact { hc with
      running := by simp [hbusy]
      admitted := fun _ => admitted_congr (hc.admitted hbusy) rfl rfl rfl rfl rfl rfl (List.Subset.refl _)
      constants := fun _ => ⟨rfl, fun _ => vslot_vofSlots fun _ => scaleConstant s.scale, rfl, by simp⟩
      probed := nofun
      headIndex := fun _ => rfl
      sample := nofun
      wholeBatch := nofun
      bulkIndex := by simp [inBatch]
      shortTail := by simp [inSample]
      finished := nofun
      drained := nofun
      inFlightOutput := by simp [hnil] }
  | probe hst =>
    have hbusy := hc.running.2 (by simp [hst])
    exact { hc with
      running := by simp [hbusy]
      admitted := fun _ => admitted_congr (hc.admitted hbusy) rfl rfl rfl rfl rfl rfl (List.Subset.refl _)
      constants := fun _ => hc.constants (by rw [hst]; rfl)
      probed := fun _ => rfl
      headIndex := fun _ => hc.headIndex (.inl hst)
      sample := nofun
      wholeBatch := nofun
      bulkIndex := by simp [inBatch]
      shortTail := by simp [inSample]
      finished := nofun
      drained := nofun }
  | finish hst => exact coherent_of_idle rfl rfl rfl (settled_wf hc.memory) hc.apart
  | sStore hst =>
    obtain ⟨hsame, ht⟩ := hsame (by rw [hst]; rfl) (by simp [hst])
    exact hc.store (hc.sampleCells hst) (by rw [hst]; rfl) ht hsame rfl rfl rfl hpos
  | vStore hst =>
    obtain ⟨hsame, ht⟩ := hsame (by rw [hst]; rfl) (by simp [hst])
    exact hc.store (hc.batchCells hst) (by rw [hst]; rfl) ht hsame rfl rfl rfl hpos
  | headSample hst | noHead hst | wholeBatch hst | noBatch hst | tailSample hst | noTail hst | sLoad hst | sDecode hst
  | sWiden hst | sCvt hst | sMul hst | vLoad hst | vBswap16 hst | vHswap hst | vUnpacklo hst | vUnpackhi hst
  | vPerm hst | vCvt hst | vMul hst =>
    obtain ⟨hsame, ht⟩ := hsame (by rw [hst]; rfl) (by simp [hst])
    exact hc.advance_same_index (by rw [hst]; rfl) ht hsame rfl rfl rfl hpos

/-! ### Moves of the other agents -/

/-- Another converter's move keeps the running command admitted: no pair it may add shares a byte with its buffers. -/
theorem admitted_otherStart {p : BufferPair} {s : State} (hadm : Admitted s) (hown : pairsMeet (ownPair s) p = false) :
    Admitted { s with others := s.others ++ [p] } :=
  { hadm with
    alone := fun q hq a hold => by
      rcases List.mem_append.1 hq with hq | hq
      · exact hadm.alone q hq a hold
      · obtain rfl := List.mem_singleton.1 hq
        have hfree := pairsMeet_eq_false_iff.1 hown a
        show inInput s a = false ∧ inOutput s a = false
        simpa only [pairHolds_ownPair, hold, and_true, not_or, Bool.not_eq_true] using hfree }

theorem Coherent.otherStart {p : BufferPair} {s : State} (hc : Coherent s)
    (hown : s.status.busy = true → pairsMeet (ownPair s) p = false) (hothers : meetsOther p s = false) :
    Coherent { s with others := s.others ++ [p] } :=
  { hc with
    admitted := fun hbusy => admitted_otherStart (hc.admitted hbusy) (hown hbusy)
    apart := by
      rw [List.pairwise_append]
      refine ⟨hc.apart, List.pairwise_singleton _ _, fun q hq r hr a hboth => ?_⟩
      obtain rfl := List.mem_singleton.1 hr
      exact meetsOther_eq_false_iff.1 hothers q hq a hboth.symm }

theorem Coherent.otherEnd {s : State} (hc : Coherent s) (index : Nat) : Coherent (otherEnd index s) :=
  { hc with
    admitted := fun hbusy => admitted_congr (hc.admitted hbusy) rfl rfl rfl rfl rfl rfl (List.eraseIdx_subset ..)
    apart := hc.apart.sublist (List.eraseIdx_sublist ..) }

theorem Coherent.portPerform {s : State} (hc : Coherent s) (index : Nat) : Coherent (portPerform index s) := by
  rcases portPerform_cases index s with e | ⟨c, -, -, e⟩ <;> rw [e]
  · exact hc
  · have hsub : (s.inFlight.eraseIdx index).Sublist s.inFlight := List.eraseIdx_sublist ..
    exact { hc with
      memory := memPut_wf hc.memory _ _
      admitted := fun hbusy => admitted_congr (hc.admitted hbusy) rfl rfl rfl rfl rfl rfl (List.Subset.refl _)
      port := fun hb => by rw [hc.port hb, List.eraseIdx_nil]
      drained := fun hst => by rw [hc.drained hst, List.eraseIdx_nil]
      inFlightOutput := fun c hmem => hc.inFlightOutput c (hsub.subset hmem)
      writtenOnce := hc.writtenOnce.sublist (hsub.map _) }

theorem Coherent.outsideWrite {s : State} (hc : Coherent s) (a : Nat) (v : Byte) :
    Coherent { s with mem := memPut s.mem a v } :=
  { hc with
    memory := memPut_wf hc.memory _ _
    admitted := fun hbusy => admitted_congr (hc.admitted hbusy) rfl rfl rfl rfl rfl rfl (List.Subset.refl _) }

theorem Coherent.quiet {s : State} (hc : Coherent s) (rdata : BitVec 64) (draws : Nat) :
    Coherent { s with rdata := rdata, draws := draws } :=
  { hc with
    admitted := fun hbusy => admitted_congr (hc.admitted hbusy) rfl rfl rfl rfl rfl rfl (List.Subset.refl _) }

/-- A block that runs no command is in `IDLE`, with nothing in flight. -/
theorem Coherent.idle {s : State} (hc : Coherent s) (hidle : s.status.busy = false) :
    s.st = .idle ∧ s.inFlight = [] := by
  have hst : s.st = .idle := by
    by_contra hne
    rw [hc.running.2 hne] at hidle
    cases hidle
  exact ⟨hst, hc.drained (by rw [hst]; rfl)⟩

/-- An accepted command stands in `SETUP`, where nothing but its admission is asked. -/
theorem Coherent.accept {s : State} (hc : Coherent s) (m : Mode) (hidle : s.status.busy = false) (hadm : Admitted s) :
    Coherent (accepted m s) := by
  obtain ⟨-, hnil⟩ := hc.idle hidle
  exact {
    memory := hc.memory
    exclusive := nofun
    running := by simp
    admitted := fun _ => admitted_congr hadm rfl rfl rfl rfl rfl rfl (List.Subset.refl _)
    constants := nofun
    probed := nofun
    headIndex := by simp
    sample := nofun
    wholeBatch := nofun
    bulkIndex := by simp [inBatch]
    shortTail := by simp [inSample]
    finished := nofun
    port := hc.port
    drained := fun _ => hnil
    inFlightOutput := by simp [hnil]
    writtenOnce := hc.writtenOnce
    apart := hc.apart }

theorem Coherent.argument {s : State} (hc : Coherent s) (a : Arg) (v : BitVec 64) (hidle : s.status.busy = false) :
    Coherent (writeArg a v s) := by
  obtain ⟨hst, hnil⟩ := hc.idle hidle
  exact coherent_of_idle (by simp [hst]) (by simp [hidle]) (by simp [hnil]) (by simp [hc.memory])
    (by rw [writeArg_others]; exact hc.apart)

/-- A move of any agent but reset keeps the invariant of control. -/
theorem Move.keeps_coherent {s t : State} (h : Move s t) (hc : Coherent s) : Coherent t := by
  cases h with
  | sequencer h => exact h.keeps_coherent hc
  | quiet rdata draws => exact hc.quiet rdata draws
  | accept m hidle hadm => exact hc.accept m hidle hadm
  | argument a v hidle => exact hc.argument a v hidle
  | outsideWrite a v => exact hc.outsideWrite a v
  | otherStart p hown hothers => exact hc.otherStart hown hothers
  | otherEnd index => exact hc.otherEnd index
  | port index => exact hc.portPerform index

/-- Settles O46, by the moves a step can be; after `rst` the block is idle. -/
theorem stepKeepsCoherent : Obligations.StepKeepsCoherent := by
  intro s t hc hstep
  rcases move_of_step hstep with hmove | ⟨landed, -, -, rfl⟩
  · exact hmove.keeps_coherent hc.popped
  · exact coherent_of_idle rfl rfl rfl (memPerform_wf hc.memory _) hc.apart

end Sys2Proof.Machine

/-! ### Memory, settled and not -/

namespace Sys2Proof.Machine

/-- Performing the same bytes on two canonical memories that agree at an address leaves them agreeing there. -/
theorem memGet_memPerform_congr {m m' : List Host.Cell} (hm : memWf m = true) (hm' : memWf m' = true)
    (cells : List Host.Cell) {a : Nat} (h : memGet m a = memGet m' a) :
    memGet (memPerform m cells) a = memGet (memPerform m' cells) a := by
  induction cells generalizing m m' with
  | nil => exact h
  | cons c cells ih =>
    refine ih (memPut_wf hm _ _) (memPut_wf hm' _ _) ?_
    by_cases ha : a = c.1
    · rw [ha, memGet_memPut_same hm, memGet_memPut_same hm']
    · rw [memGet_memPut_ne _ _ ha, memGet_memPut_ne _ _ ha, h]

/-- Bytes for distinct addresses may be performed in any order. -/
theorem memGet_memPerform_perm {m : List Host.Cell} (hm : memWf m = true) {cells cells' : List Host.Cell}
    (hperm : cells.Perm cells') (hn : (cells.map Prod.fst).Nodup) (a : Nat) :
    memGet (memPerform m cells) a = memGet (memPerform m cells') a := by
  have hn' := (hperm.map Prod.fst).nodup_iff.1 hn
  by_cases ha : a ∈ cells.map Prod.fst
  · obtain ⟨c, hc, rfl⟩ := List.mem_map.1 ha
    rw [memGet_memPerform_of_mem hm hn hc, memGet_memPerform_of_mem hm hn' (hperm.subset hc)]
  · have ha' : a ∉ cells'.map Prod.fst := fun h => ha ((hperm.map Prod.fst).mem_iff.2 h)
    rw [memGet_memPerform_of_notMem _ _ ha, memGet_memPerform_of_notMem _ _ ha']

/-- Whichever byte in flight the port performs, settled memory is the same (spec/20 R62). -/
theorem memGet_settled_portPerform {s : State} (hc : Coherent s) (index a : Nat) :
    memGet (settled (portPerform index s)) a = memGet (settled s) a := by
  rcases portPerform_cases index s with e | ⟨c, -, hget, e⟩ <;> rw [e]
  obtain ⟨hlt, rfl⟩ := List.getElem?_eq_some_iff.1 hget
  exact (memGet_memPerform_perm hc.memory (List.getElem_cons_eraseIdx_perm hlt).symm hc.writtenOnce a).symm

/-- Settled memory after an issue is settled memory with the issued bytes. -/
theorem settled_of_issue {s t : State} {cells : List Host.Cell} (hc : Coherent s)
    (hmem : t.mem = (issueCells cells s).mem) (hflight : t.inFlight = (issueCells cells s).inFlight) :
    settled t = memPerform (settled s) cells := by
  rw [settled, hmem, hflight]
  exact settled_issueCells hc.port cells

/-- The bytes in flight are the output buffer's. -/
theorem Coherent.inFlight_inOutput {s : State} (hc : Coherent s) {c : Host.Cell} (h : c ∈ s.inFlight) :
    inOutput s c.1 = true := by
  cases hst : afterSetup s.st with
  | false => rw [hc.drained hst] at h; cases h
  | true =>
    obtain ⟨-, -, -, hle⟩ := hc.constants hst
    obtain ⟨hlow, hhigh⟩ := hc.inFlightOutput c h
    exact inOutput_iff.2 ⟨hlow, by omega⟩

/-- Outside the output buffer memory is as settled as it will be. -/
theorem Coherent.memGet_settled {s : State} (hc : Coherent s) {a : Nat} (h : inOutput s a = false) :
    memGet (settled s) a = memGet s.mem a := by
  refine memGet_memPerform_of_notMem _ _ fun hmem => ?_
  obtain ⟨c, hcell, rfl⟩ := List.mem_map.1 hmem
  rw [hc.inFlight_inOutput hcell] at h
  cases h

/-- The bytes of the samples from `I` are the output buffer's. -/
theorem SampleBytes.inOutput {s : State} {cells : List Host.Cell} {n : Nat} (h : SampleBytes s cells n) {a : Nat}
    (ha : a ∈ cells.map Prod.fst) : inOutput s a = true := by
  have hrange := (h.addresses a).1 ha
  have hwithin := h.within
  rw [storeAddr_eq] at hrange
  exact inOutput_iff.2 ⟨by omega, by omega⟩

/-- A store of samples leaves everything outside the output buffer alone, at once and when it has settled. -/
theorem SampleBytes.memGet_outside {s t : State} {cells : List Host.Cell} {n : Nat} (h : SampleBytes s cells n)
    (hc : Coherent s) (hmem : t.mem = (issueCells cells s).mem)
    (hflight : t.inFlight = (issueCells cells s).inFlight) {a : Nat} (ha : Machine.inOutput s a = false) :
    memGet t.mem a = memGet s.mem a ∧ memGet (settled t) a = memGet (settled s) a := by
  have hnot : a ∉ cells.map Prod.fst := fun hin => by
    rw [h.inOutput hin] at ha
    cases ha
  rw [hmem, settled_of_issue hc hmem hflight]
  exact ⟨memGet_issueCells _ _ hnot, memGet_memPerform_of_notMem _ _ hnot⟩

/-- Only the stores write memory, and `C.FINISH` performs what they left in flight. -/
theorem SequencerMove.memGet_outside {s t : State} (h : SequencerMove s t) (hc : Coherent s) {a : Nat}
    (ha : inOutput s a = false) : memGet t.mem a = memGet s.mem a ∧ memGet (settled t) a = memGet (settled s) a := by
  cases h with
  | sStore hst => exact (hc.sampleCells hst).memGet_outside hc rfl rfl ha
  | vStore hst => exact (hc.batchCells hst).memGet_outside hc rfl rfl ha
  | finish => exact ⟨hc.memGet_settled ha, rfl⟩
  | _ => exact ⟨rfl, rfl⟩

/-- Settles O51: the bytes of every store, and those in flight, are the output buffer's. -/
theorem blockWritesOutputBufferOnly : Obligations.BlockWritesOutputBufferOnly := by
  intro s t hc hs hstep a ha
  exact (sequencerMove_of_step hs hstep).memGet_outside hc.popped ha

end Sys2Proof.Machine

/-! ### Samples in registers and in memory -/

namespace Sys2Proof.Machine

/-- A word slot of a stored vector is read back (spec/20 R56). -/
theorem memRead4_store_vector {m : List Host.Cell} (hm : memWf m = true) (a : Nat) (v : VReg) {j : Nat} (hj : j < 8) :
    memRead4 (memPerform m (storeCells a 32 v)) (a + 4 * j) = vslot v j := by
  refine eq_of_byteOf (n := 4) fun k hk => ?_
  rw [byteOf_memRead4 _ _ hk, Nat.add_assoc, memGet_store hm v (by omega), byteOf_vslot _ _ hk]

/-- A store leaves the words outside its bytes alone. -/
theorem memRead4_store_outside {w : Nat} (m : List Host.Cell) {a n b : Nat} (v : BitVec w)
    (hb : b + 4 ≤ a ∨ a + n ≤ b) : memRead4 (memPerform m (storeCells a n v)) b = memRead4 m b :=
  memRead4_congr fun _ _ => memGet_store_outside m v (by omega)

/-- Both parts of a stored sample are read back (spec/20 R56). -/
theorem memRead4_sampleCells {m : List Host.Cell} (hm : memWf m = true) (s : State) :
    memRead4 (memPerform m (sampleCells s)) (storeAddr s) = s.fr ∧
      memRead4 (memPerform m (sampleCells s)) (storeAddr s + 4) = s.fi := by
  refine ⟨eq_of_byteOf (n := 4) fun k hk => ?_, eq_of_byteOf (n := 4) fun k hk => ?_⟩
  · rw [byteOf_memRead4 _ _ hk, sampleCells, memGet_store hm _ (by omega), byteOf_samplePair_real _ _ hk]
  · rw [byteOf_memRead4 _ _ hk, Nat.add_assoc, sampleCells, memGet_store hm _ (by omega),
      byteOf_samplePair_imag _ _ hk]

/-- The slots of a stored batch are read back: those of `VFA` below those of `VFB` (spec/43 R179). -/
theorem memRead4_batchCells {m : List Host.Cell} (hm : memWf m = true) (s : State) {j : Nat} (hj : j < 8) :
    memRead4 (memPerform m (batchCells s)) (storeAddr s + 4 * j) = vslot s.vfa j ∧
      memRead4 (memPerform m (batchCells s)) (storeAddr s + 32 + 4 * j) = vslot s.vfb j := by
  rw [batchCells, memPerform_append]
  constructor
  · rw [memRead4_store_outside _ _ (by omega), memRead4_store_vector hm _ _ hj]
  · exact memRead4_store_vector (memPerform_wf hm _) _ _ hj

/-- A batch in two registers is in memory once it is stored, one sample every eight bytes. -/
theorem BatchPairs.stored {s : State} {re im : Nat → Word32} (h : BatchPairs s.vfa s.vfb re im) {m : List Host.Cell}
    (hm : memWf m = true) {q : Nat} (hq : q < 8) :
    memRead4 (memPerform m (batchCells s)) (storeAddr s + 8 * q) = re q ∧
      memRead4 (memPerform m (batchCells s)) (storeAddr s + 8 * q + 4) = im q := by
  by_cases hlow : q < 4
  · obtain ⟨hre, him, -, -⟩ := h q hlow
    rw [← hre, ← him, ← (memRead4_batchCells hm s (by omega : 2 * q < 8)).1,
      ← (memRead4_batchCells hm s (by omega : 2 * q + 1 < 8)).1]
    exact ⟨congrArg _ (by omega), congrArg _ (by omega)⟩
  · obtain ⟨t, rfl⟩ : ∃ t, q = 4 + t := ⟨q - 4, by omega⟩
    obtain ⟨-, -, hre, him⟩ := h t (by omega)
    rw [← hre, ← him, ← (memRead4_batchCells hm s (by omega : 2 * t < 8)).2,
      ← (memRead4_batchCells hm s (by omega : 2 * t + 1 < 8)).2]
    exact ⟨congrArg _ (by omega), congrArg _ (by omega)⟩

/-- A function applied to every slot is applied to the parts of every sample. -/
theorem BatchPairs.map {a b : VReg} {re im : Nat → Word32} (h : BatchPairs a b re im) (f : Word32 → Word32) :
    BatchPairs (vmap f a) (vmap f b) (fun j => f (re j)) (fun j => f (im j)) := by
  intro t ht
  obtain ⟨h1, h2, h3, h4⟩ := h t ht
  rw [vslot_vmap f a (by omega), vslot_vmap f a (by omega), vslot_vmap f b (by omega), vslot_vmap f b (by omega), h1,
    h2, h3, h4]
  exact ⟨rfl, rfl, rfl, rfl⟩

/-- Pairing every slot with a register of equal slots pairs the parts of every sample with what they hold. -/
theorem vmap₂_eq_vmap {f : Word32 → Word32 → Word32} {u v : VReg} {k : Word32} (hv : ∀ j, j < 8 → vslot v j = k) :
    vmap₂ f u v = vmap (f · k) u :=
  eq_of_vslot fun j hj => by rw [vslot_vmap₂ _ _ _ hj, vslot_vmap _ _ hj, hv j hj]

/-- The two unpacks and the exchange of halves put the widened lanes of half `q` in order (spec/43 R174 to R176). -/
theorem vslot_perm_unpack (v : VReg) {q j : Nat} (hq : q < 2) (hj : j < 8) :
    vslot (vofHalves (vhalf (unpackLo v) q) (vhalf (unpackHi v) q)) j = widen (vlane v (8 * q + j)) := by
  by_cases hlow : j < 4
  · rw [vslot_vofHalves_lo _ _ hlow, vhalf_slot _ _ hlow, unpackLo, vslot_vofSlots _ (by omega),
      show 8 * ((4 * q + j) / 4) + (4 * q + j) % 4 = 8 * q + j by omega]
  · obtain ⟨t, rfl⟩ : ∃ t, j = 4 + t := ⟨j - 4, by omega⟩
    rw [vslot_vofHalves_hi _ _ (by omega : t < 4), vhalf_slot _ _ (by omega : t < 4), unpackHi,
      vslot_vofSlots _ (by omega), show 8 * ((4 * q + t) / 4) + 4 + (4 * q + t) % 4 = 8 * q + (4 + t) by omega]

/-- Canonical words become the widened parts of their samples, in sample order (spec/43 R176). -/
theorem batchPairs_perm_unpack {m : Mode} {x : Nat → Word32} {v : VReg} (h : ∀ j, j < 8 → vslot v j = canon m (x j)) :
    BatchPairs (vofHalves (vhalf (unpackLo v) 0) (vhalf (unpackHi v) 0))
      (vofHalves (vhalf (unpackLo v) 1) (vhalf (unpackHi v) 1))
      (fun j => widen (decodeReal m (x j))) (fun j => widen (decodeImag m (x j))) := by
  intro t ht
  have hreal {l j : Nat} (hl : l = 2 * j) (hj : j < 8) : widen (vlane v l) = widen (decodeReal m (x j)) := by
    rw [hl, vlane_even, h j hj]
    rfl
  have himag {l j : Nat} (hl : l = 2 * j + 1) (hj : j < 8) : widen (vlane v l) = widen (decodeImag m (x j)) := by
    rw [hl, vlane_odd, h j hj]
    rfl
  refine ⟨?_, ?_, ?_, ?_⟩ <;> rw [vslot_perm_unpack v (by omega) (by omega)]
  · exact hreal (by omega) (by omega)
  · exact himag (by omega) (by omega)
  · exact hreal (by omega) (by omega)
  · exact himag (by omega) (by omega)

/-- The slots of the vector loaded at sample `I` are its input word and the seven that follow (spec/43 R171). -/
theorem vslot_vectorLoad (s : State) {j : Nat} (hj : j < 8) :
    vslot (memRead32 s.mem (inAddr s.inBase s.i)) j = inputWord s (s.i.toNat + j) := by
  rw [vslot_memRead32 _ _ hj, inputWord, inAddr, inStride, Nat.mul_add, Nat.add_assoc]

/-! ### What a move of memory leaves as it was -/

/-- An input word is the same where the input buffer is. -/
theorem inputWord_congr {s t : State} (hin : t.inBase = s.inBase)
    (hmem : ∀ a, inInput s a = true → memGet t.mem a = memGet s.mem a) {j : Nat} (hj : j < s.nsamps.toNat) :
    inputWord t j = inputWord s j := by
  rw [inputWord, inputWord, hin]
  refine memRead4_congr fun k hk => hmem _ (inInput_iff.2 ⟨by omega, by omega⟩)

/-- A sample stays converted while its input word, the mode, `K` and its eight bytes of settled memory are the same. -/
theorem Converted.congr {s t : State} {j : Nat} (h : Converted s j) (hm : t.m = s.m) (hk : t.k = s.k)
    (hout : t.outBase = s.outBase) (hword : inputWord t j = inputWord s j)
    (hbytes : ∀ k, k < 8 → memGet (settled t) (s.outBase.toNat + 8 * j + k) =
      memGet (settled s) (s.outBase.toNat + 8 * j + k)) : Converted t j := by
  rw [Converted, hm, hk, hout, hword]
  obtain ⟨hre, him⟩ := h
  constructor
  · rw [← hre]
    exact memRead4_congr fun k hk => hbytes k (by omega)
  · rw [← him]
    refine memRead4_congr fun k hk => ?_
    rw [Nat.add_assoc]
    exact hbytes (4 + k) (by omega)

/-- Outside a sample nothing is asked of the scalar registers. -/
theorem scalarHolds_of_not_inSample {s : State} (h : inSample s.st = false) : ScalarHolds s := by
  unfold ScalarHolds
  revert h
  cases s.st <;> simp [inSample]

/-- Outside a bulk iteration nothing is asked of the vector registers. -/
theorem vectorHolds_of_not_inBatch {s : State} (h : inBatch s.st = false) : VectorHolds s := by
  unfold VectorHolds
  revert h
  cases s.st <;> simp [inBatch]

theorem BatchPairs.congr {a b : VReg} {re im re' im' : Nat → Word32} (h : BatchPairs a b re im)
    (hre : ∀ j, j < 8 → re' j = re j) (him : ∀ j, j < 8 → im' j = im j) : BatchPairs a b re' im' := by
  intro t ht
  rw [hre t (by omega), him t (by omega), hre (4 + t) (by omega), him (4 + t) (by omega)]
  exact h t ht

/-- The vector registers hold what they should while they, the mode, `K` and the words of the batch are the same. -/
theorem VectorHolds.congr {s t : State} (h : VectorHolds s) (hst : t.st = s.st) (hm : t.m = s.m) (hk : t.k = s.k)
    (hvin : t.vin = s.vin) (hvlo : t.vlo = s.vlo) (hvhi : t.vhi = s.vhi) (hva : t.va = s.va) (hvb : t.vb = s.vb)
    (hvfa : t.vfa = s.vfa) (hvfb : t.vfb = s.vfb)
    (hword : ∀ j, j < 8 → inputWord t (t.i.toNat + j) = inputWord s (s.i.toNat + j)) : VectorHolds t := by
  have hslots {f : Word32 → Word32} (hold : ∀ j, j < 8 → vslot s.vin j = f (inputWord s (s.i.toNat + j))) (j : Nat)
      (hj : j < 8) : vslot s.vin j = f (inputWord t (t.i.toNat + j)) := by
    rw [hword j hj]
    exact hold j hj
  unfold VectorHolds at h ⊢
  simp only [hst, hm, hk, hvin, hvlo, hvhi, hva, hvb, hvfa, hvfb]
  revert h
  cases s.st with
  | v1 => exact hslots (f := id)
  | v2 => exact hslots (f := fun x => if bswapTable s.m then bswap16w x else x)
  | v3 => exact hslots
  | v4 => exact fun ⟨hcanon, hlo⟩ => ⟨hslots hcanon, hlo⟩
  | v5 => exact fun ⟨hlo, hhi, hcanon⟩ => ⟨hlo, hhi, hslots hcanon⟩
  | v6 | v7 | v8 =>
    exact fun h => h.congr (fun j hj => by simp only [hword j hj]) (fun j hj => by simp only [hword j hj])
  | _ => exact id

/-- The work of a running command is unharmed by what leaves its input buffer and its settled output buffer alone. -/
theorem Progress.with_memory {s : State} (hp : Progress s) (hc : Coherent s) {mem inFlight : List Host.Cell}
    (hin : ∀ a, inInput s a = true → memGet mem a = memGet s.mem a)
    (hout : ∀ a, inOutput s a = true → memGet (memPerform mem inFlight) a = memGet (settled s) a) :
    Progress { s with mem := mem, inFlight := inFlight } := by
  have hword {j : Nat} (hj : j < s.nsamps.toNat) :
      inputWord { s with mem := mem, inFlight := inFlight } j = inputWord s j :=
    inputWord_congr (s := s) (t := { s with mem := mem, inFlight := inFlight }) rfl hin hj
  refine ⟨fun hst j hj => ?_, ?_, ?_⟩
  · obtain ⟨-, -, -, hle⟩ := hc.constants hst
    have hj' : j < s.i.toNat := hj
    exact (hp.below hst j hj).congr rfl rfl rfl (hword (by omega)) fun k hk =>
      hout _ (inOutput_iff.2 ⟨by omega, by omega⟩)
  · cases hst : inSample s.st with
    | false => exact scalarHolds_of_not_inSample hst
    | true =>
      have hscalar := hp.scalar
      rw [ScalarHolds, ← hword (hc.sample hst).1] at hscalar
      exact hscalar
  · cases hst : inBatch s.st with
    | false => exact vectorHolds_of_not_inBatch hst
    | true =>
      have hlt := hc.wholeBatch hst
      exact hp.vector.congr rfl rfl rfl rfl rfl rfl rfl rfl rfl rfl fun j hj =>
        hword (j := s.i.toNat + j) (by omega)

end Sys2Proof.Machine

/-! ### Every move keeps the invariant of data -/

namespace Sys2Proof.Machine

/-- A store of the next `n` converted samples leaves every sample below the new `I` converted: it touches no input word
and no sample below the old `I`. -/
theorem SampleBytes.below {s t : State} {cells : List Host.Cell} {n : Nat} (h : SampleBytes s cells n)
    (hc : Coherent s) (hadm : Admitted s) (hold : ∀ j, j < s.i.toNat → Converted s j) (hargs : SameArguments s t)
    (hk : t.k = s.k) (hi : t.i = s.i + BitVec.ofNat 64 n) (hmem : t.mem = (issueCells cells s).mem)
    (hflight : t.inFlight = (issueCells cells s).inFlight)
    (hnew : ∀ q, q < n →
      memRead4 (memPerform (settled s) cells) (storeAddr s + 8 * q) = (conv s.m (inputWord s (s.i.toNat + q)) s.k).1 ∧
      memRead4 (memPerform (settled s) cells) (storeAddr s + 8 * q + 4) =
        (conv s.m (inputWord s (s.i.toNat + q)) s.k).2)
    (j : Nat) (hj : j < t.i.toNat) : Converted t j := by
  obtain ⟨hin, hout, -, -, -, hm, -⟩ := hargs
  rw [hi, h.toNat_add] at hj
  have hwithin := h.within
  have hsettled := settled_of_issue hc hmem hflight
  have hword : inputWord t j = inputWord s j := by
    refine inputWord_congr hin (fun a ha => ?_) (by omega)
    have houtside : Machine.inOutput s a = false := Bool.eq_false_iff.2 fun hboth => hadm.disjoint a ⟨ha, hboth⟩
    exact (h.memGet_outside hc hmem hflight houtside).1
  by_cases hlt : j < s.i.toNat
  · refine (hold j hlt).congr hm hk hout hword fun k hk => ?_
    rw [hsettled]
    refine memGet_memPerform_of_notMem _ _ fun hcell => ?_
    have hrange := (h.addresses _).1 hcell
    rw [storeAddr_eq] at hrange
    omega
  · obtain ⟨q, rfl⟩ : ∃ q, j = s.i.toNat + q := ⟨j - s.i.toNat, by omega⟩
    rw [Converted, hm, hk, hout, hword, hsettled, Nat.mul_add, ← Nat.add_assoc, ← storeAddr_eq]
    exact hnew q (by omega)

/-- Between two samples and within one, what is below `I` stays converted. -/
theorem SequencerMove.below {s t : State} (h : SequencerMove s t) (hc : Coherent s) (hp : Progress s)
    (ht : afterSetup t.st = true) : ∀ j, j < t.i.toNat → Converted t j := by
  have hargs := h.sameArguments
  have hbelow := hp.below
  cases h with
  | idle | stuck | unserved => exact hbelow ht
  | finish => cases ht
  | setup => exact fun j hj => absurd hj (Nat.not_lt_zero j)
  | sStore hst =>
    have hadm := hc.admitted (hc.running.2 (by simp [hst]))
    have hscalar := hp.scalar
    simp only [ScalarHolds, hst] at hscalar
    obtain ⟨hreal, himag⟩ := memRead4_sampleCells (settled_wf hc.memory) s
    refine (hc.sampleCells hst).below hc hadm (hbelow (by rw [hst]; rfl)) hargs rfl rfl rfl rfl fun q hq => ?_
    obtain rfl := Nat.lt_one_iff.1 hq
    exact ⟨hreal.trans hscalar.1, himag.trans hscalar.2⟩
  | vStore hst =>
    have hadm := hc.admitted (hc.running.2 (by simp [hst]))
    have hvector := hp.vector
    simp only [VectorHolds, hst] at hvector
    exact (hc.batchCells hst).below hc hadm (hbelow (by rw [hst]; rfl)) hargs rfl rfl rfl rfl fun q hq =>
      hvector.stored (settled_wf hc.memory) hq
  | probe hst | headSample hst | noHead hst | wholeBatch hst | noBatch hst | tailSample hst | noTail hst | sLoad hst
  | sDecode hst | sWiden hst | sCvt hst | sMul hst | vLoad hst | vBswap16 hst | vHswap hst | vUnpacklo hst
  | vUnpackhi hst | vPerm hst | vCvt hst | vMul hst => exact hbelow (by rw [hst]; rfl)

/-- Each scalar micro-operation takes the sample in hand one step further (spec/44 R201 to R205). -/
theorem SequencerMove.scalar {s t : State} (h : SequencerMove s t) (hs : ScalarHolds s) : ScalarHolds t := by
  cases h with
  | idle | stuck | unserved => exact hs
  | sLoad => rfl
  | sDecode hst =>
    simp only [ScalarHolds, hst] at hs
    exact ⟨congrArg (decodeReal s.m) hs, congrArg (decodeImag s.m) hs⟩
  | sWiden hst =>
    simp only [ScalarHolds, hst] at hs
    exact ⟨congrArg widen hs.1, congrArg widen hs.2⟩
  | sCvt hst =>
    simp only [ScalarHolds, hst] at hs
    exact ⟨congrArg i2f hs.1, congrArg i2f hs.2⟩
  | sMul hst =>
    simp only [ScalarHolds, hst] at hs
    exact ⟨congrArg (fmul · s.k) hs.1, congrArg (fmul · s.k) hs.2⟩
  | sStore => exact scalarHolds_of_not_inSample (by cases hret : s.ret <;> rfl)
  | _ => trivial

/-- An exchange that the mode may ask for is made in every slot or in none (spec/43 R172, R173). -/
theorem vslot_ite_vmap {b : Bool} {f : Word32 → Word32} {v : VReg} {j : Nat} {x : Word32} (hj : j < 8)
    (h : vslot v j = x) : vslot (if b then vmap f v else v) j = if b then f x else x := by
  cases b with
  | false => exact h
  | true => exact (vslot_vmap f v hj).trans (congrArg f h)

/-- Each vector micro-operation takes the batch in hand one step further (spec/43 R171 to R178). -/
theorem SequencerMove.vector {s t : State} (h : SequencerMove s t) (hc : Coherent s) (hs : VectorHolds s) :
    VectorHolds t := by
  cases h with
  | idle | stuck | unserved => exact hs
  | vLoad => exact fun j hj => vslot_vectorLoad s hj
  | vBswap16 hst =>
    simp only [VectorHolds, hst] at hs
    exact fun j hj => vslot_ite_vmap hj (hs j hj)
  | vHswap hst =>
    simp only [VectorHolds, hst] at hs
    exact fun j hj => vslot_ite_vmap hj (hs j hj)
  | vUnpacklo hst =>
    simp only [VectorHolds, hst] at hs
    exact ⟨hs, rfl⟩
  | vUnpackhi hst =>
    simp only [VectorHolds, hst] at hs
    obtain ⟨hcanon, hlo⟩ := hs
    exact ⟨hlo, rfl, hcanon⟩
  | vPerm hst =>
    simp only [VectorHolds, hst] at hs
    obtain ⟨hlo, hhi, hcanon⟩ := hs
    rw [hlo, hhi]
    exact batchPairs_perm_unpack hcanon
  | vCvt hst =>
    simp only [VectorHolds, hst] at hs
    exact hs.map i2f
  | vMul hst =>
    simp only [VectorHolds, hst] at hs
    obtain ⟨-, hvk, -⟩ := hc.constants (by rw [hst]; rfl)
    rw [vmap₂_eq_vmap hvk, vmap₂_eq_vmap hvk]
    exact hs.map (fmul · s.k)
  | sStore => exact vectorHolds_of_not_inBatch (by cases hret : s.ret <;> rfl)
  | _ => trivial

/-- A byte written outside the buffers of a running command harms none of its work. -/
theorem Progress.outsideWrite {s : State} (hp : Progress s) (hc : Coherent s) {a : Nat} (v : Byte)
    (hout : s.status.busy = true → inInput s a = false ∧ inOutput s a = false) :
    Progress { s with mem := memPut s.mem a v } := by
  cases hbusy : s.status.busy with
  | false =>
    obtain ⟨hst, -⟩ := hc.idle hbusy
    exact progress_of_not_afterSetup (by rw [hst]; rfl)
  | true =>
    obtain ⟨hin, hout⟩ := hout hbusy
    have hget {b : Nat} (hne : b ≠ a) : memGet (memPut s.mem a v) b = memGet s.mem b := memGet_memPut_ne _ _ hne
    refine hp.with_memory hc (fun b hb => hget ?_) fun b hb =>
      memGet_memPerform_congr (memPut_wf hc.memory _ _) hc.memory _ (hget ?_)
    · rintro rfl
      rw [hin] at hb
      cases hb
    · rintro rfl
      rw [hout] at hb
      cases hb

/-- Bytes are in flight only while an admitted command runs. -/
theorem Coherent.admitted_of_inFlight {s : State} (hc : Coherent s) {c : Host.Cell} (h : c ∈ s.inFlight) :
    Admitted s := by
  cases hbusy : s.status.busy with
  | true => exact hc.admitted hbusy
  | false =>
    rw [(hc.idle hbusy).2] at h
    cases h

/-- Neither does the port performing a byte: it is the output's, and settled memory has it already. -/
theorem Progress.portPerform {s : State} (hp : Progress s) (hc : Coherent s) (index : Nat) :
    Progress (portPerform index s) := by
  have hsettled := memGet_settled_portPerform hc index
  rcases portPerform_cases index s with e | ⟨c, hcell, -, e⟩ <;> rw [e] at hsettled ⊢
  · exact hp
  · refine hp.with_memory hc (fun a ha => memGet_memPut_ne _ _ ?_) fun a _ => hsettled a
    rintro rfl
    exact (hc.admitted_of_inFlight hcell).disjoint c.1 ⟨ha, hc.inFlight_inOutput hcell⟩

/-- A move of any agent but reset keeps the invariant of data. -/
theorem Move.keeps_progress {s t : State} (h : Move s t) (hc : Coherent s) (hp : Progress s) : Progress t := by
  cases h with
  | sequencer h => exact ⟨h.below hc hp, h.scalar hp.scalar, h.vector hc hp.vector⟩
  | accept => exact progress_of_not_afterSetup rfl
  | argument a v hidle =>
    obtain ⟨hst, -⟩ := hc.idle hidle
    exact progress_of_not_afterSetup (by rw [writeArg_st, hst]; rfl)
  | outsideWrite a v hout => exact hp.outsideWrite hc v hout
  | port index => exact hp.portPerform hc index
  | quiet | otherStart | otherEnd => exact ⟨hp.below, hp.scalar, hp.vector⟩

/-- Settles O47, by the moves a step can be; after `rst` no work is in hand. -/
theorem stepKeepsProgress : Obligations.StepKeepsProgress := by
  intro s t hc hp hstep
  rcases move_of_step hstep with hmove | ⟨landed, -, -, rfl⟩
  · exact hmove.keeps_progress hc.popped ⟨hp.below, hp.scalar, hp.vector⟩
  · exact progress_of_not_afterSetup rfl

end Sys2Proof.Machine

/-! ## Memory: stores read back, bytes in flight, accesses served -/

/-! ### Stores read back -/

namespace Sys2Proof.Machine

/-- A stored vector is read back (spec/20 R52, R53). -/
theorem memRead32_store {m : List Host.Cell} (hm : memWf m = true) (a : Nat) (v : VReg) :
    memRead32 (memPerform m (storeCells a 32 v)) a = v :=
  eq_of_byteOf (n := 32) fun _ hk => (byteOf_memRead32 _ _ hk).trans (memGet_store hm v hk)

/-- Both parts of a sample are read back from wherever it is stored (spec/20 R52, R53, R56). -/
theorem memRead4_store_samplePair {m : List Host.Cell} (hm : memWf m = true) (a : Nat) (re im : F32) :
    memRead4 (memPerform m (storeCells a 8 (samplePair re im))) a = re ∧
      memRead4 (memPerform m (storeCells a 8 (samplePair re im))) (a + 4) = im := by
  constructor <;> refine eq_of_byteOf (n := 4) fun k hk => ?_ <;> rw [byteOf_memRead4 _ _ hk]
  · rw [memGet_store hm _ (by omega), byteOf_samplePair_real _ _ hk]
  · rw [Nat.add_assoc, memGet_store hm _ (by omega), byteOf_samplePair_imag _ _ hk]

/-- Settles O36, byte by byte: each stored byte is read back, and a store keeps the bytes outside it and the canonical
form. -/
theorem storeThenLoadReturnsValue : Obligations.StoreThenLoadReturnsValue := by
  intro m a hm
  exact ⟨memRead32_store hm a, memRead4_store_samplePair hm a, fun v _ hx => memGet_store_outside m v hx,
    fun _ _ _ hx => memGet_store_outside m _ hx, fun _ => memPerform_wf hm _, fun _ _ => memPerform_wf hm _⟩

end Sys2Proof.Machine

/-! ### The port performing a byte in flight -/

namespace Sys2Proof.Machine

/-- Where a byte is in flight, the port moves it from the flight to memory. -/
theorem portPerform_of_some {index : Nat} {s : State} {c : Host.Cell} (h : s.inFlight[index]? = some c) :
    portPerform index s = { s with mem := memPut s.mem c.1 c.2, inFlight := s.inFlight.eraseIdx index } := by
  simp [portPerform, h]

/-- Where none is, the port has nothing to do. -/
theorem portPerform_of_none {index : Nat} {s : State} (h : s.inFlight[index]? = none) : portPerform index s = s := by
  simp [portPerform, h]

/-- The port touches memory and the bytes in flight only, and takes out of flight the byte at its index alone. -/
theorem portPerform_frame (index : Nat) (s : State) :
    portPerform index s =
      { s with mem := (portPerform index s).mem, inFlight := s.inFlight.eraseIdx index } := by
  cases h : s.inFlight[index]? with
  | none => rw [portPerform_of_none h, List.eraseIdx_of_length_le (List.getElem?_eq_none_iff.1 h)]
  | some c => rw [portPerform_of_some h]

/-- The byte that the port performs is in memory afterwards. -/
theorem memGet_portPerform_same {index : Nat} {s : State} {c : Host.Cell} (hm : memWf s.mem = true)
    (h : s.inFlight[index]? = some c) : memGet (portPerform index s).mem c.1 = c.2 := by
  rw [portPerform_of_some h]
  exact memGet_memPut_same hm _ _

/-- Every other byte of memory is as before. -/
theorem memGet_portPerform_other {index a : Nat} {s : State} (ha : ∀ c, s.inFlight[index]? = some c → a ≠ c.1) :
    memGet (portPerform index s).mem a = memGet s.mem a := by
  cases h : s.inFlight[index]? with
  | none => rw [portPerform_of_none h]
  | some c =>
    rw [portPerform_of_some h]
    exact memGet_memPut_ne _ _ (ha c h)

/-- Settles O37: bytes in flight are for distinct addresses, so settled memory is the same in whatever order they are
performed, and the rest is what the port does to one byte. -/
theorem arrivalOrderDoesNotMatter : Obligations.ArrivalOrderDoesNotMatter := by
  intro s index rest hc hturn
  have hp : popped s = { s with turns := rest } := by rw [popped, hturn, List.tail_cons]
  have hframe := portPerform_frame index (popped s)
  refine ⟨portPerform index (popped s), step_of_other (fetch_cons hturn), memGet_settled_portPerform hc.popped index,
    ?_, congrArg State.inFlight hframe, fun _ => memGet_portPerform_same hc.popped.memory,
    fun _ => memGet_portPerform_other (s := popped s)⟩
  rw [hp] at hframe ⊢
  rw [hframe]

end Sys2Proof.Machine

/-! ### No access of a running command is held up -/

namespace Sys2Proof.Machine

/-- The platform serves an access that lies within the input buffer of an admitted command. -/
theorem Admitted.served_input {s : State} (h : Admitted s) {a n : Nat} (hlow : s.inBase.toNat ≤ a)
    (hhigh : a + n ≤ s.inBase.toNat + 4 * s.nsamps.toNat) : served s.platform .read a n :=
  ⟨hhigh.trans h.inputEnds, fun _ _ => h.inputServed _ (inInput_iff.2 ⟨by omega, by omega⟩)⟩

/-- The platform serves an access that lies within the output buffer of an admitted command. -/
theorem Admitted.served_output {s : State} (h : Admitted s) {a n : Nat} (hlow : s.outBase.toNat ≤ a)
    (hhigh : a + n ≤ s.outBase.toNat + 8 * s.nsamps.toNat) : served s.platform .write a n :=
  ⟨hhigh.trans h.outputEnds, fun _ _ => h.outputServed _ (inOutput_iff.2 ⟨by omega, by omega⟩)⟩

theorem inAddr_eq (s : State) : inAddr s.inBase s.i = s.inBase.toNat + 4 * s.i.toNat := rfl

/-- Every access of a coherent block is served: its samples lie within the buffers of an admitted command. -/
theorem Coherent.currentAccess_served {s : State} (hc : Coherent s) {acc : Access} {a n : Nat}
    (h : currentAccess s = some (acc, a, n)) : served s.platform acc a n := by
  have hadm (hne : s.st ≠ .idle) : Admitted s := hc.admitted (hc.running.2 hne)
  have hin := inAddr_eq s
  have hout := storeAddr_eq s
  cases hst : s.st <;> simp only [currentAccess, hst] at h <;> cases h
  case s0 =>
    obtain ⟨hleft, -⟩ := hc.sample (by rw [hst]; rfl)
    exact (hadm (by simp [hst])).served_input (by omega) (by omega)
  case s5 =>
    obtain ⟨hleft, -⟩ := hc.sample (by rw [hst]; rfl)
    exact (hadm (by simp [hst])).served_output (by omega) (by omega)
  case v0 =>
    have hleft := hc.wholeBatch (by rw [hst]; rfl)
    exact (hadm (by simp [hst])).served_input (by omega) (by omega)
  case v8 =>
    have hleft := hc.wholeBatch (by rw [hst]; rfl)
    exact (hadm (by simp [hst])).served_output (by omega) (by omega)

/-- An access within the address space ends in a next state, served or not. -/
theorem access_ends_next {acc : Access} {a n : Nat} (h : a + n ≤ 2 ^ 64) (s t : State) :
    ∃ u, access acc a n s t = .next u := by
  rcases access_cases acc a n s t with ⟨hwrap, -⟩ | ⟨-, -, e⟩ | ⟨-, e⟩
  · omega
  · exact ⟨s, e⟩
  · exact ⟨t, e⟩

/-- The micro-operation issued ends in a next state, unless it makes an access past 2^64 (spec/93 U4). -/
theorem exec_issued_ends_next {s : State} {i : Instr} (hi : issued s = some i)
    (hfits : ∀ acc a n, currentAccess s = some (acc, a, n) → a + n ≤ 2 ^ 64) : ∃ t, exec i s = .next t := by
  have hst := st_of_issued hi
  cases i with
  | nop | convertNative | convertLe | convertBe => rw [issued, hst] at hi; cases hi
  | sLoad | sStore | vLoad | vStoreA | vStoreU =>
    exact access_ends_next (hfits _ _ _ (by rw [currentAccess, hst]; rfl)) _ _
  | cHeadtest | cBulktest | cTailtest =>
    simp only [exec, execCHeadtest, execCBulktest, execCTailtest]
    split <;> exact ⟨_, rfl⟩
  | _ => exact ⟨_, rfl⟩

/-- A coherent block always issues a micro-operation: once the probe is performed `BR` holds a branch. -/
theorem Coherent.issues {s : State} (hc : Coherent s) : issued s ≠ none := by
  intro hnone
  obtain ⟨hst, hbr⟩ := issued_eq_none.1 hnone
  have hprobed := hc.probed (by rw [hst]; rfl)
  exact probeBranch_ne_none s.outBase (hprobed.symm.trans hbr)

/-- A micro-operation of a coherent block that is out of `IDLE` leads to another sequencer state. -/
theorem SequencerMove.leaves_state {s t : State} (h : SequencerMove s t) (hc : Coherent s) (hrun : s.st ≠ .idle) :
    t.st ≠ s.st := by
  cases h with
  | idle hst => exact absurd hst hrun
  | stuck hnone => exact absurd hnone hc.issues
  | unserved hacc hno => exact absurd (hc.currentAccess_served hacc) hno
  | sStore hst => cases hret : s.ret <;> simp [hst]
  | setup hst | probe hst | headSample hst | noHead hst | wholeBatch hst | noBatch hst | tailSample hst | noTail hst
  | finish hst | sLoad hst | sDecode hst | sWiden hst | sCvt hst | sMul hst | vLoad hst | vBswap16 hst | vHswap hst
  | vUnpacklo hst | vUnpackhi hst | vPerm hst | vCvt hst | vMul hst | vStore hst => simp [hst]

/-- Settles O49: a coherent block issues a micro-operation, its access is served, and each of them leads to another
sequencer state. -/
theorem runningCommandAlwaysMovesOn : Obligations.RunningCommandAlwaysMovesOn := by
  intro s hc hbusy hs
  have hcp := hc.popped
  obtain ⟨i, hi⟩ := Option.ne_none_iff_exists'.1 hcp.issues
  obtain ⟨t, ht⟩ := exec_issued_ends_next hi fun acc a n hacc => (hcp.currentAccess_served hacc).1
  have hstep : step s = exec i (popped s) := (stepRunsIssuedMicroOperation s hs).1 i hi
  exact ⟨t, hstep.trans ht, (sequencerMove_of_exec hi ht).leaves_state hcp (hc.running.1 hbusy)⟩

end Sys2Proof.Machine

/-! ## Encoding: the command map, the bytes of an instruction, and writes of `CTRL` -/

/-! ### The command map -/

namespace Sys2Proof

/-- Bit 0 is looked at first: with it clear every word is a `NOP` (spec/30 R83). -/
theorem decodeCmd_of_start_clear {word : Word32} (h : word[0] = false) : decodeCmd word = .ok (.nop word) := by
  simp [decodeCmd, h]

/-- With bit 0 set, a word that is none of the three exact values is reserved (spec/30 R83, R84). -/
theorem decodeCmd_of_reserved {word : Word32} (hstart : word[0] = true) (h1 : word ≠ 1#32) (h3 : word ≠ 3#32)
    (h5 : word ≠ 5#32) : ∃ e, decodeCmd word = .error e := by
  unfold decodeCmd
  rw [if_neg (by simp [hstart]), if_neg h1, if_neg h3, if_neg h5]
  split
  · exact ⟨.reservedBits, rfl⟩
  · exact ⟨.reservedMode, rfl⟩

/-- The command words: what a word that decodes is, and what it decodes to. -/
theorem decodeCmd_cases {word : Word32} {i : Instr} (h : decodeCmd word = .ok i) :
    (word[0] = false ∧ i = .nop word) ∨ (word = 1#32 ∧ i = .convertNative) ∨ (word = 3#32 ∧ i = .convertLe) ∨
      (word = 5#32 ∧ i = .convertBe) := by
  unfold decodeCmd at h
  split_ifs at h with h0 h1 h3 h5 <;> cases h
  · exact .inl ⟨h0, rfl⟩
  · exact .inr (.inl ⟨h1, rfl⟩)
  · exact .inr (.inr (.inl ⟨h3, rfl⟩))
  · exact .inr (.inr (.inr ⟨h5, rfl⟩))

/-- Settles O2, by the equations of the command map; the three exact values are closed facts. -/
theorem commandMapIsTheTable : Obligations.CommandMapIsTheTable := by
  intro word
  refine ⟨decodeCmd_of_start_clear, ?_, ?_, ?_, decodeCmd_of_reserved⟩ <;>
  · rintro rfl
    rfl

/-! ### Encoding and decoding are inverse -/

/-- The tables read both ways (spec/30 R83, R86): the bits that decode to an instruction are its encoding, and it is well
formed. -/
theorem encode_of_decode {x : InstrWord} {i : Instr} (h : decode x = .ok i) : encode i = x ∧ i.wf = true := by
  cases x with
  | cmd c =>
    rcases decodeCmd_cases h with ⟨hstart, rfl⟩ | ⟨rfl, rfl⟩ | ⟨rfl, rfl⟩ | ⟨rfl, rfl⟩
    · exact ⟨rfl, by simp [Instr.wf, hstart]⟩
    all_goals exact ⟨rfl, rfl⟩
  | uop code =>
    simp only [decode, decodeUop] at h
    split at h <;> cases h
    all_goals
      next hcode => exact ⟨congrArg InstrWord.uop (BitVec.eq_of_toNat_eq hcode.symm), rfl⟩

/-- A well-formed instruction is decoded from its encoding; only a `NOP` has a field, the written word (spec/30 R83). -/
theorem decode_encode {i : Instr} (h : i.wf = true) : decode (encode i) = .ok i := by
  cases i with
  | nop word => exact decodeCmd_of_start_clear (by simpa [Instr.wf] using h)
  | _ => rfl

theorem decode_eq_ok_iff {x : InstrWord} {i : Instr} : decode x = .ok i ↔ encode i = x ∧ i.wf = true := by
  constructor
  · exact encode_of_decode
  · rintro ⟨rfl, hwf⟩
    exact decode_encode hwf

/-- The format and the bits are read back from the bytes they are laid out as. -/
theorem wordOfBytes_bytesOfWord (x : InstrWord) : wordOfBytes (bytesOfWord x) = .ok x := by
  cases x with
  | cmd c =>
    simp only [bytesOfWord, wordOfBytes]
    rw [BitVec.extractLsb'_append_extractLsb'_eq_extractLsb' (by decide : 24 = 16 + 8),
      BitVec.extractLsb'_append_extractLsb'_eq_extractLsb' (by decide : 16 = 8 + 8),
      BitVec.extractLsb'_append_extractLsb'_eq_extractLsb' (by decide : 8 = 0 + 8), BitVec.extractLsb'_eq_self]
  | uop code =>
    have hfits : (code.setWidth 8).toNat < 32 := by
      rw [BitVec.toNat_setWidth_of_le (by decide)]
      exact code.isLt
    simp only [bytesOfWord, wordOfBytes]
    rw [if_pos hfits, BitVec.setWidth_setWidth_of_le _ (by decide), BitVec.setWidth_eq]

/-- The bytes of a command word in ascending order of address, least significant first. -/
theorem bytesOfWord_cmd (b0 b1 b2 b3 : Byte) : bytesOfWord (.cmd (b3 ++ b2 ++ b1 ++ b0)) = [b0, b1, b2, b3] := by
  simp (disch := decide) only [bytesOfWord, BitVec.extractLsb'_append_eq_of_le, BitVec.extractLsb'_append_eq_right,
    Nat.reduceSub, BitVec.extractLsb'_eq_self]

/-- Bytes that have a format are the layout of the bits they hold. -/
theorem bytesOfWord_of_wordOfBytes {bs : List Byte} {x : InstrWord} (h : wordOfBytes bs = .ok x) :
    bytesOfWord x = bs := by
  unfold wordOfBytes at h
  split at h
  · cases h
    exact bytesOfWord_cmd ..
  · next b =>
    split at h <;> cases h
    next hfits =>
      have hb : (b.setWidth 5).setWidth 8 = b := by bv_omega
      rw [bytesOfWord, hb]
  · cases h

theorem wordOfBytes_eq_ok_iff {bs : List Byte} {x : InstrWord} : wordOfBytes bs = .ok x ↔ bytesOfWord x = bs := by
  constructor
  · exact bytesOfWord_of_wordOfBytes
  · rintro rfl
    exact wordOfBytes_bytesOfWord x

/-- Bytes decode by way of the bits they hold. -/
theorem decodeBytes_eq_ok_iff {bs : List Byte} {i : Instr} :
    decodeBytes bs = .ok i ↔ ∃ x, wordOfBytes bs = .ok x ∧ decode x = .ok i := by
  unfold decodeBytes
  cases wordOfBytes bs <;> simp

/-- Decoding and encoding are inverse between the bytes that decode and the well-formed instructions. -/
theorem decodeBytes_eq_ok_iff_encodeBytes {bs : List Byte} {i : Instr} :
    decodeBytes bs = .ok i ↔ encodeBytes i = bs ∧ i.wf = true := by
  simp only [decodeBytes_eq_ok_iff, wordOfBytes_eq_ok_iff, decode_eq_ok_iff, encodeBytes]
  constructor
  · rintro ⟨x, hbytes, rfl, hwf⟩
    exact ⟨hbytes, hwf⟩
  · rintro ⟨hbytes, hwf⟩
    exact ⟨encode i, hbytes, rfl, hwf⟩

/-- Settles O3: decoding and encoding are inverse, read from right to left. -/
theorem encodeThenDecodeGivesBack : Obligations.EncodeThenDecodeGivesBack :=
  fun _ hwf => decodeBytes_eq_ok_iff_encodeBytes.2 ⟨rfl, hwf⟩

/-- Settles O4: decoding and encoding are inverse, read from left to right. -/
theorem decodeThenEncodeGivesBack : Obligations.DecodeThenEncodeGivesBack :=
  fun _ _ h => decodeBytes_eq_ok_iff_encodeBytes.1 h

/-- Settles O1: every clause is about literal bytes. -/
theorem specWordsDecode : Obligations.SpecWordsDecode := by
  unfold Obligations.SpecWordsDecode
  decide

end Sys2Proof

/-! ### Writes of `CTRL` -/

namespace Sys2Proof.Machine

/-- A host write of `CTRL` at the head of the schedule is the next move. -/
theorem fetch_writeCtrl {s : State} {c : Word32} {rest : List Turn} (h : s.turns = .writeCtrl c :: rest) :
    fetch s = ctrlWrite c { s with turns := rest } := by
  rw [fetch_cons h, popped, h, List.tail_cons, turn]

theorem ctrlWrite_of_ok {c : Word32} {i : Instr} (h : decodeCmd c = .ok i) (s : State) : ctrlWrite c s = .run i s := by
  simp [ctrlWrite, h]

theorem ctrlWrite_of_error {c : Word32} {e : Reject} (h : decodeCmd c = .error e) (s : State) :
    ctrlWrite c s = .other (writeReserved c s) := by
  simp [ctrlWrite, h]

theorem writeReserved_busy {s : State} (h : s.status.busy = true) (c : Word32) : writeReserved c s = .next s := by
  simp [writeReserved, h]

theorem writeReserved_idle {s : State} (h : s.status.busy = false) (c : Word32) :
    writeReserved c s = .refused (.reservedCommand c) := by
  simp [writeReserved, h]

theorem startCommand_busy {s : State} (h : s.status.busy = true) (m : Mode) : startCommand m s = .next s := by
  simp [startCommand, h]

/-- Settles O7: the write is the move taken, and a word that decodes runs what it decodes to. -/
theorem stepRunsWrittenCommand : Obligations.StepRunsWrittenCommand := by
  intro s c rest i hturn hdecode
  exact step_of_run ((fetch_writeCtrl hturn).trans (ctrlWrite_of_ok hdecode _))

/-- While a command runs, what a word written to `CTRL` decodes to changes nothing: a `NOP` never does, and a `CONVERT` is
ignored (spec/30 R85). -/
theorem exec_command_busy {c : Word32} {i : Instr} {s : State} (hdecode : decodeCmd c = .ok i)
    (hbusy : s.status.busy = true) : exec i s = .next s := by
  rcases decodeCmd_cases hdecode with ⟨-, rfl⟩ | ⟨-, rfl⟩ | ⟨-, rfl⟩ | ⟨-, rfl⟩
  · rfl
  all_goals exact startCommand_busy hbusy _

/-- A step that writes a word with no meaning to `CTRL` runs no instruction. -/
theorem step_writeReserved {s : State} {c : Word32} {rest : List Turn} {e : Reject}
    (hturn : s.turns = .writeCtrl c :: rest) (hdecode : decodeCmd c = .error e) :
    step s = writeReserved c { s with turns := rest } :=
  step_of_other ((fetch_writeCtrl hturn).trans (ctrlWrite_of_error hdecode _))

/-- Settles O11, by whether the word decodes. -/
theorem busyIgnoresEveryCtrlWrite : Obligations.BusyIgnoresEveryCtrlWrite := by
  intro s c rest hbusy hturn
  cases hdecode : decodeCmd c with
  | ok i => exact (stepRunsWrittenCommand s c rest i hturn hdecode).trans (exec_command_busy hdecode hbusy)
  | error e => exact (step_writeReserved hturn hdecode).trans (writeReserved_busy (s := { s with turns := rest }) hbusy c)

/-- Settles O12: none of the three exact values has `MODE` = 3 or a bit of 31..3 set. -/
theorem reservedCommandIsRefused : Obligations.ReservedCommandIsRefused := by
  intro s word rest hidle hturn hstart hreserved
  have hne (k : Word32) (hk : k.extractLsb' 1 2 ≠ 3#2 ∧ k.extractLsb' 3 29 = 0#29) : word ≠ k := by
    rintro rfl
    exact hreserved.elim hk.1 (· hk.2)
  obtain ⟨e, hdecode⟩ :=
    decodeCmd_of_reserved hstart (hne _ (by decide)) (hne _ (by decide)) (hne _ (by decide))
  exact (step_writeReserved hturn hdecode).trans (writeReserved_idle (s := { s with turns := rest }) hidle word)

end Sys2Proof.Machine

/-! ## Numerics: a part of a converted word is one rounding -/

namespace Sys2Proof.Machine

/-- Infinity is the largest magnitude a rounding gives (spec/40 R101). -/
theorem rneMagnitude_le (m : Nat) (e : Int) : rneMagnitude m e ≤ f32InfMagnitude := by
  unfold rneMagnitude
  split
  · exact Nat.zero_le _
  · exact min_le_right _ _

/-- A rounding has the sign it is given, on every magnitude (spec/40 R101). -/
theorem f32Sign_rneF32 (neg : Bool) (m : Nat) (e : Int) : f32Sign (rneF32 neg m e) = neg :=
  f32Sign_pack neg ((rneMagnitude_le m e).trans_lt (by decide))

theorem f32Sign_i2f {x : Word32} (hf : fitsF32 x.toInt.natAbs = true) : f32Sign (i2f x) = x.msb := by
  rw [i2f, if_pos hf, f32Sign_rneF32]

theorem widen_msb (h : Lane) : (widen h).msb = h.msb := by
  rw [BitVec.msb_eq_toInt, BitVec.msb_eq_toInt, widen_toInt]

/-- A widened lane fits in 24 significant bits (spec/40 R105). -/
theorem fitsF32_widen (h : Lane) : fitsF32 (widen h).toInt.natAbs = true :=
  fitsF32_of_le ((widen_natAbs h).trans (by decide))

/-- Widening and `i2f` lose nothing of a lane, so the product with `K` is the only rounding (spec/40 R107). -/
theorem fmul_lane_isRne (h : Lane) {k : F32} (hk : f32Finite k = true) :
    IsRne (h.toInt * f32Value k) (h.msb ^^ f32Sign k) (fmul (i2f (widen h)) k) := by
  have hfits := fitsF32_widen h
  obtain ⟨hfinite, hvalue⟩ := i2f_exact hfits
  have hround := fmul_isRne hfinite hk
  rwa [hvalue, f32Sign_i2f hfits, widen_toInt, widen_msb] at hround

/-- The product of two finite values is no NaN (spec/40 R106, R110(e)). -/
theorem f32IsNaN_fmul {a b : F32} (ha : f32Finite a = true) (hb : f32Finite b = true) : f32IsNaN (fmul a b) = false := by
  rw [fmul, if_pos (by rw [ha, hb]; rfl), f32IsNaN_rneF32]

/-- Settles O54: both parts are the product of a lane and `K`. -/
theorem conversionIsOneRounding : Obligations.ConversionIsOneRounding :=
  fun m w _ hk => ⟨fmul_lane_isRne (decodeReal m w) hk, fmul_lane_isRne (decodeImag m w) hk⟩

/-- Settles O55: every lane's `i2f` is finite, and so is `K`. -/
theorem conversionIsNeverNaN : Obligations.ConversionIsNeverNaN := by
  intro m w k hk
  have hpart (h : Lane) : f32IsNaN (fmul (i2f (widen h)) k) = false :=
    f32IsNaN_fmul (i2f_exact (fitsF32_widen h)).1 hk
  exact ⟨hpart (decodeReal m w), hpart (decodeImag m w)⟩

end Sys2Proof.Machine

/-! ## The sample decoder: the two wire modes -/

namespace Sys2Proof.Machine

theorem canon_littleEndianWire (w : Word32) : canon .littleEndianWire w = hswap w := rfl

theorem canon_bigEndianWire (w : Word32) : canon .bigEndianWire w = bswap16w w := rfl

/-- The exchange of bytes in both half-words undoes itself (spec/41 R121). -/
theorem bswap16w_bswap16w (w : Word32) : bswap16w (bswap16w w) = w := by
  apply BitVec.eq_of_getLsbD_eq
  intro i hi
  rw [bswap16w_bit _ hi, bswap16w_bit _ (by split <;> omega)]
  congr 1
  split <;> split <;> omega

/-- The two exchanges together reverse the four bytes (spec/41 R121). -/
theorem bswap16w_hswap (w : Word32) : bswap16w (hswap w) = bswap32 w := by
  apply BitVec.eq_of_getLsbD_eq
  intro i hi
  rw [bswap16w_bit _ hi, hswap_bit _ (by split <;> omega), bswap32_bit _ hi]
  congr 1
  split <;> split <;> omega

/-- The big-endian canonical word of the byte reversal is the little-endian one of the word (spec/41 R125(c)). -/
theorem canon_bigEndianWire_bswap32 (w : Word32) : canon .bigEndianWire (bswap32 w) = canon .littleEndianWire w := by
  rw [canon_bigEndianWire, canon_littleEndianWire, ← bswap16w_hswap, bswap16w_bswap16w]

theorem bswap16w_inj {v w : Word32} : bswap16w v = bswap16w w ↔ v = w :=
  (Function.LeftInverse.injective bswap16w_bswap16w).eq_iff

/-- Settles O56: both canonical words are big-endian ones, of the byte reversal and of the word, and the big-endian mode
loses nothing. -/
theorem wireModesAreComplementary : Obligations.WireModesAreComplementary := by
  intro w
  have hrev := canon_bigEndianWire_bswap32 w
  refine ⟨congrArg (BitVec.extractLsb' 0 16) hrev, congrArg (BitVec.extractLsb' 16 16) hrev, ?_⟩
  rw [← hrev, canon_bigEndianWire, canon_bigEndianWire, bswap16w_inj, eq_comm]

end Sys2Proof.Machine

/-! ## The dispatcher and the sequencer -/

/-! ### Commands: ignored, refused, accepted -/

namespace Sys2Proof.Machine

/-- Settles O8: a `NOP` has no effect, and a word with bit 0 clear is one. -/
theorem nopChangesNothing : Obligations.NopChangesNothing := by
  refine ⟨fun _ _ => rfl, fun s word rest hstart hturn => ?_⟩
  exact stepRunsWrittenCommand s word rest _ hturn (decodeCmd_of_start_clear hstart)

theorem startCommand_refused_iff {s : State} {m : Mode} {r : Refusal} :
    startCommand m s = .refused r ↔ s.status.busy = false ∧ admission s = some r := by
  rcases startCommand_cases m s with ⟨hbusy, e⟩ | ⟨hidle, r', hr, e⟩ | ⟨-, hadm, e⟩ <;> rw [e]
  · simp [hbusy]
  · simp [hidle, hr]
  · simp [hadm]

theorem startCommand_notAdmitted {s : State} (hidle : s.status.busy = false) (hno : ¬Admitted s) (m : Mode) :
    ∃ r, startCommand m s = .refused r := by
  obtain ⟨r, hr⟩ := Option.ne_none_iff_exists'.1 (mt admission_eq_none_iff.1 hno)
  exact ⟨r, startCommand_refused_iff.2 ⟨hidle, hr⟩⟩

theorem startCommand_admitted {s : State} (hidle : s.status.busy = false) (hadm : Admitted s) (m : Mode) :
    startCommand m s = .next (accepted m s) := by
  simp [startCommand, hidle, admission_eq_none_iff.2 hadm]

/-- Settles O9: the three commands are one operation, in three modes. -/
theorem commandIsAcceptedWhenAdmitted : Obligations.CommandIsAcceptedWhenAdmitted := by
  intro s
  refine ⟨fun hbusy => ?_, fun hidle hno => ?_, fun hidle hadm => ?_⟩
  · exact ⟨startCommand_busy hbusy _, startCommand_busy hbusy _, startCommand_busy hbusy _⟩
  · have hrefused := startCommand_notAdmitted hidle hno
    exact ⟨hrefused _, hrefused _, hrefused _⟩
  · have haccepted := startCommand_admitted hidle hadm
    exact ⟨haccepted _, haccepted _, haccepted _⟩

/-- A buffer is found to pass 2^64 exactly when condition (d) of spec/42 R142 is false. -/
theorem buffersWrap_iff {s : State} :
    (2 ^ addressBits < inEnd s ∨ 2 ^ addressBits < outEnd s) ↔
      ¬(s.inBase.toNat + 4 * s.nsamps.toNat ≤ 2 ^ 64 ∧ s.outBase.toNat + 8 * s.nsamps.toNat ≤ 2 ^ 64) := by
  rw [inEnd_eq, outEnd_eq, addressBits]
  omega

/-- A byte shared with another converter that runs, seen from either side (spec/20 R68). -/
theorem meetsOther_ownPair_eq_false_iff {s : State} :
    meetsOther (ownPair s) s = false ↔
      ∀ p ∈ s.others, ∀ x, ¬((inInput s x = true ∨ inOutput s x = true) ∧ pairHolds p x = true) := by
  simp only [meetsOther_eq_false_iff, pairHolds_ownPair]

/-- Settles O10: `admission` looks at the conditions in their order, and each of its tests says what the condition says
byte by byte. -/
theorem refusalNamesFirstBrokenCondition : Obligations.RefusalNamesFirstBrokenCondition := by
  intro s i r hi hexec
  have hreason : admission s = some r := by
    rcases hi with rfl | rfl | rfl <;> exact (startCommand_refused_iff.1 hexec).2
  dsimp only
  rw [← allWritten_iff, ← buffersAdmitted_iff, ← overlap_eq_false_iff, ← meetsOther_ownPair_eq_false_iff]
  simp only [admission, buffersWrap_iff, ← Bool.not_eq_true] at hreason ⊢
  split_ifs at hreason with ha hb hc hd he hf hg <;> cases hreason
  · exact .inr (.inr (.inr (.inr (.inr (.inl ⟨rfl, ha, hb, hc, hd, he, not_not.2 hf⟩)))))
  · exact .inr (.inr (.inr (.inr (.inr (.inr ⟨rfl, ha, hb, hc, hd, he, hf, not_not.2 hg⟩)))))
  · exact .inr (.inr (.inr (.inr (.inl ⟨rfl, ha, hb, hc, hd, he⟩))))
  · exact .inr (.inr (.inr (.inl ⟨rfl, ha, hb, hc, hd⟩)))
  · exact .inr (.inr (.inl ⟨rfl, ha, hb, hc⟩))
  · exact .inr (.inl ⟨rfl, ha, hb⟩)
  · exact .inl ⟨rfl, ha⟩

end Sys2Proof.Machine

/-! ### Control micro-operations -/

namespace Sys2Proof.Machine

/-- Settles O13. -/
theorem idleChangesNothing : Obligations.IdleChangesNothing := fun _ => rfl

/-- Settles O14: `K` is the scale constant, and every slot of `VK` is `K`. -/
theorem setupWritesRoundedQuotient : Obligations.SetupWritesRoundedQuotient :=
  fun s => ⟨_, rfl, scaleConstant_isRne, fun _ => vslot_vofSlots fun _ => scaleConstant s.scale, rfl⟩

/-- The low four bits of an address are its place between two multiples of 16. -/
theorem lowFourBits_eq_iff {b : Addr} {r : Nat} (hr : r < 16) :
    b.extractLsb' 0 4 = BitVec.ofNat 4 r ↔ b.toNat % 16 = r := by
  rw [← BitVec.toNat_inj, BitVec.extractLsb'_toNat, BitVec.toNat_ofNat, Nat.shiftRight_zero, Nat.mod_eq_of_lt hr]

/-- Settles O15, by the three outcomes of the probe. -/
theorem probeReadsLowFourBits : Obligations.ProbeReadsLowFourBits := by
  intro s
  have hzero := lowFourBits_eq_iff (b := s.outBase) (r := 0) (by decide)
  have height := lowFourBits_eq_iff (b := s.outBase) (r := 8) (by decide)
  refine ⟨probeBranch s.outBase, rfl, fun h => ?_, fun h => ?_, fun h0 h8 => ?_⟩
  · exact probeBranch_eq_one_iff.2 (hzero.1 h)
  · exact probeBranch_eq_two_iff.2 (height.1 h)
  · rw [probeBranch_eq, if_neg (mt hzero.2 h0), if_neg (mt height.2 h8)]

/-- Settles O16: the test compares unsigned numbers. -/
theorem headTestStartsHeadSample : Obligations.HeadTestStartsHeadSample := by
  intro s
  simp only [exec, execCHeadtest, sampleLeft_iff, BitVec.lt_def]
  exact ⟨fun h => if_pos h, fun h => if_neg h⟩

/-- Settles O17: the test adds unbounded integers. -/
theorem bulkTestNeedsWholeBatch : Obligations.BulkTestNeedsWholeBatch := by
  intro s
  simp only [exec, execCBulktest, batchLeft_iff]
  exact ⟨fun h => if_pos h, fun h => if_neg h⟩

/-- Settles O18: the test compares unsigned numbers. -/
theorem tailTestStartsTailSample : Obligations.TailTestStartsTailSample := by
  intro s
  simp only [exec, execCTailtest, sampleLeft_iff, BitVec.lt_def]
  exact ⟨fun h => if_pos h, fun h => if_neg h⟩

/-- Settles O19: the memory left is settled memory. -/
theorem finishPerformsStoresThenDone : Obligations.FinishPerformsStoresThenDone := fun s =>
  ⟨_, rfl, by simp [statusWord], rfl, rfl, fun hmem honce _ hc => memGet_memPerform_of_mem hmem honce hc,
    fun _ ha => memGet_memPerform_of_notMem s.mem s.inFlight ha, rfl⟩

end Sys2Proof.Machine

/-! ### Where memory micro-operations access -/

namespace Sys2Proof.Machine

/-- Settles O35: each of the five is an access to the bytes named. -/
theorem accessPastTopIsRefused : Obligations.AccessPastTopIsRefused :=
  fun _ => ⟨access_wraps, access_wraps, access_wraps, fun h => ⟨access_wraps h, access_wraps h⟩⟩

/-- Settles O50: in branch 1 `OUT_BASE` is a multiple of 16 and `I` is even; in branch 2 it is 8 above one and `I` is
odd. -/
theorem alignedStoresAreAligned : Obligations.AlignedStoresAreAligned := by
  intro s hc hissued
  have hst : s.st = .v8 := st_of_issued hissued
  have hbatch : inBatch s.st = true := by rw [hst]; rfl
  have hprobed := hc.probed (by rw [hst]; rfl)
  have hleft := hc.wholeBatch hbatch
  obtain ⟨hone, htwo⟩ := hc.bulkIndex (.inr hbatch)
  cases hbr : s.br with
  | one =>
    have hbase := probeBranch_eq_one_iff.1 (hprobed.symm.trans hbr)
    have hindex := hone hbr
    omega
  | two =>
    have hbase := probeBranch_eq_two_iff.1 (hprobed.symm.trans hbr)
    have hindex := htwo hbr
    omega
  | three | none => simp [issued, hst, hbr] at hissued

end Sys2Proof.Machine

/-! ### The steps a command has left -/

namespace Sys2Proof.Machine

/-- The steps from `TAILTEST` with `left` samples left to the end of the command (spec/42 R150 to R152). -/
def tailSteps (left : Nat) : Nat := 7 * left + 2

/-- The steps from `BULKTEST` with `left` samples left to the end of the command (spec/42 R148, R149). -/
def loopSteps (left : Nat) : Nat := 10 * (left / 8) + tailSteps (left % 8) + 1

theorem loopSteps_of_batch {left : Nat} (h : 8 ≤ left) : loopSteps left = loopSteps (left - 8) + 10 := by
  unfold loopSteps
  rw [Nat.mod_eq_sub_mod h]
  omega

theorem loopSteps_of_noBatch {left : Nat} (h : left < 8) : loopSteps left = tailSteps left + 1 := by
  rw [loopSteps, Nat.div_eq_of_lt h, Nat.mod_eq_of_lt h, Nat.mul_zero, Nat.zero_add]

/-- The steps of a command: the head test, the head sample if there is one and the loops come after `SETUP` and `PROBE`
(spec/42 R157). -/
theorem commandSteps_eq (outBase : Addr) (n : Nat) :
    commandSteps outBase n = 6 * headCount outBase n + loopSteps (n - headCount outBase n) + 3 := by
  unfold commandSteps loopSteps tailSteps tailCount bulkCount
  omega

/-- At the head test `I` is 0, and the test is whether there is a head sample (spec/42 R147, R154). -/
theorem Coherent.headCount_eq {s : State} (hc : Coherent s) (hst : s.st = .headtest) :
    s.i.toNat = 0 ∧
      headCount s.outBase s.nsamps.toNat = if s.br = .two ∧ s.i.toNat < s.nsamps.toNat then 1 else 0 := by
  rw [hc.headIndex (.inr hst), hc.probed (by rw [hst]; rfl)]
  exact ⟨rfl, rfl⟩

/-- The steps that follow the sample in hand: those of the loop that `RET` names. -/
def stepsAfterSample (s : State) : Nat :=
  match s.ret with
  | .head => loopSteps (s.nsamps.toNat - (s.i.toNat + 1))
  | .tail => tailSteps (s.nsamps.toNat - (s.i.toNat + 1))

/-- The steps that follow the batch in hand. -/
def stepsAfterBatch (s : State) : Nat := loopSteps (s.nsamps.toNat - (s.i.toNat + 8))

/-- The steps that a command has left. Tied to the model by `SequencerMove.stepsLeft_eq_succ`. -/
def stepsLeft (s : State) : Nat :=
  match s.st with
  | .idle => 0
  | .setup => commandSteps s.outBase s.nsamps.toNat
  | .probe => commandSteps s.outBase s.nsamps.toNat - 1
  | .headtest => commandSteps s.outBase s.nsamps.toNat - 2
  | .bulktest => loopSteps (s.nsamps.toNat - s.i.toNat)
  | .tailtest => tailSteps (s.nsamps.toNat - s.i.toNat)
  | .finish => 1
  | .s0 => stepsAfterSample s + 6
  | .s1 => stepsAfterSample s + 5
  | .s2 => stepsAfterSample s + 4
  | .s3 => stepsAfterSample s + 3
  | .s4 => stepsAfterSample s + 2
  | .s5 => stepsAfterSample s + 1
  | .v0 => stepsAfterBatch s + 9
  | .v1 => stepsAfterBatch s + 8
  | .v2 => stepsAfterBatch s + 7
  | .v3 => stepsAfterBatch s + 6
  | .v4 => stepsAfterBatch s + 5
  | .v5 => stepsAfterBatch s + 4
  | .v6 => stepsAfterBatch s + 3
  | .v7 => stepsAfterBatch s + 2
  | .v8 => stepsAfterBatch s + 1

/-- Only an idle block has no step left. -/
theorem stepsLeft_eq_zero_iff {s : State} : stepsLeft s = 0 ↔ s.st = .idle := by
  unfold stepsLeft
  cases s.st <;> simp [commandSteps_eq, loopSteps, tailSteps]

/-- Every micro-operation of a command takes one of its steps (spec/42 R157). -/
theorem SequencerMove.stepsLeft_eq_succ {s t : State} (h : SequencerMove s t) (hc : Coherent s) (hne : t.st ≠ s.st) :
    stepsLeft s = stepsLeft t + 1 := by
  have hcommand := commandSteps_eq s.outBase s.nsamps.toNat
  cases h with
  | idle | stuck | unserved => exact absurd rfl hne
  | setup hst | probe hst =>
    simp only [stepsLeft, hst]
    omega
  | headSample hst hbr hleft =>
    obtain ⟨hi, hcount⟩ := hc.headCount_eq hst
    rw [hcount, if_pos ⟨hbr, hleft⟩] at hcommand
    simp only [stepsLeft, hst, hcommand, stepsAfterSample, hi, Nat.zero_add]
    omega
  | noHead hst hno =>
    obtain ⟨hi, hcount⟩ := hc.headCount_eq hst
    rw [hcount, if_neg fun h => absurd (hno h.1) (not_le.2 h.2)] at hcommand
    simp [stepsLeft, hst, hi, hcommand]
  | wholeBatch hst hleft =>
    simp only [stepsLeft, hst, stepsAfterBatch]
    rw [loopSteps_of_batch (by omega), Nat.sub_sub]
  | noBatch hst hno =>
    simp only [stepsLeft, hst]
    exact loopSteps_of_noBatch (by omega)
  | tailSample hst hleft =>
    simp only [stepsLeft, hst, stepsAfterSample, tailSteps]
    omega
  | noTail hst hno =>
    simp only [stepsLeft, hst, tailSteps]
    omega
  | sStore hst =>
    have hi : (s.i + 1).toNat = s.i.toNat + 1 := (hc.sampleCells hst).toNat_add
    cases hret : s.ret <;> simp only [stepsLeft, hst, stepsAfterSample, hret, hi, reduceIte, reduceCtorEq]
  | vStore hst =>
    have hi : (s.i + 8).toNat = s.i.toNat + 8 := (hc.batchCells hst).toNat_add
    simp only [stepsLeft, hst, stepsAfterBatch, hi]
  | finish hst | sLoad hst | sDecode hst | sWiden hst | sCvt hst | sMul hst | vLoad hst | vBswap16 hst | vHswap hst
  | vUnpacklo hst | vUnpackhi hst | vPerm hst | vCvt hst | vMul hst =>
    simp only [stepsLeft, hst, stepsAfterSample, stepsAfterBatch]

/-! ### The accesses a command has left -/

/-- The accesses of `left` tail samples from sample `j`. -/
def tailShapes (s : State) (j left : Nat) : List Shape := (List.range left).flatMap fun k => sampleShapes s (j + k)

/-- The accesses of the bulk loop and the tail, with `left` samples left from sample `j` (spec/42 R154). -/
def loopShapes (s : State) (j left : Nat) : List Shape :=
  (List.range (left / 8)).flatMap (fun k => batchShapes s (j + 8 * k)) ++
    tailShapes s (j + 8 * (left / 8)) (left % 8)

theorem tailShapes_succ (s : State) (j left : Nat) :
    tailShapes s j (left + 1) = sampleShapes s j ++ tailShapes s (j + 1) left := by
  simp only [tailShapes, List.range_succ_eq_map, List.flatMap_cons, List.flatMap_map, Nat.add_zero, Nat.succ_eq_add_one,
    Nat.add_assoc, Nat.add_comm 1]

theorem loopShapes_of_batch (s : State) (j : Nat) {left : Nat} (h : 8 ≤ left) :
    loopShapes s j left = batchShapes s j ++ loopShapes s (j + 8) (left - 8) := by
  obtain ⟨rest, rfl⟩ := Nat.exists_eq_add_of_le' h
  have hstart : j + 8 * (rest / 8 + 1) = j + 8 + 8 * (rest / 8) := by omega
  have hbatch (k : Nat) : j + 8 * (k + 1) = j + 8 + 8 * k := by omega
  simp only [loopShapes, Nat.add_sub_cancel, Nat.add_div_right rest (by decide : 0 < 8), Nat.add_mod_right, hstart,
    List.range_succ_eq_map, List.flatMap_cons, List.flatMap_map, Nat.succ_eq_add_one, hbatch, Nat.mul_zero,
    Nat.add_zero, List.append_assoc]

theorem loopShapes_of_noBatch (s : State) (j : Nat) {left : Nat} (h : left < 8) :
    loopShapes s j left = tailShapes s j left := by
  simp [loopShapes, Nat.div_eq_of_lt h, Nat.mod_eq_of_lt h]

/-- The accesses of a command: the head sample if there is one, and then the loops (spec/42 R154). -/
theorem commandShapes_eq (s : State) :
    commandShapes s =
      tailShapes s 0 (headCount s.outBase s.nsamps.toNat) ++
        loopShapes s (headCount s.outBase s.nsamps.toNat) (s.nsamps.toNat - headCount s.outBase s.nsamps.toNat) := by
  have htail : tailCount s.outBase s.nsamps.toNat = (s.nsamps.toNat - headCount s.outBase s.nsamps.toNat) % 8 := by
    unfold tailCount bulkCount
    omega
  simp only [commandShapes, htail, bulkCount, loopShapes, tailShapes, Nat.zero_add, List.append_assoc]

/-- The accesses that follow the sample in hand: those of the loop that `RET` names. -/
def shapesAfterSample (s : State) : List Shape :=
  match s.ret with
  | .head => loopShapes s (s.i.toNat + 1) (s.nsamps.toNat - (s.i.toNat + 1))
  | .tail => tailShapes s (s.i.toNat + 1) (s.nsamps.toNat - (s.i.toNat + 1))

/-- The accesses that follow the batch in hand. -/
def shapesAfterBatch (s : State) : List Shape := loopShapes s (s.i.toNat + 8) (s.nsamps.toNat - (s.i.toNat + 8))

/-- The accesses that a command has left. Tied to the model by `SequencerMove.shapesInAll_eq`. -/
def shapesLeft (s : State) : List Shape :=
  match s.st with
  | .idle | .finish => []
  | .setup | .probe | .headtest => commandShapes s
  | .bulktest => loopShapes s s.i.toNat (s.nsamps.toNat - s.i.toNat)
  | .tailtest => tailShapes s s.i.toNat (s.nsamps.toNat - s.i.toNat)
  | .s0 => sampleShapes s s.i.toNat ++ shapesAfterSample s
  | .s1 | .s2 | .s3 | .s4 | .s5 => (sampleShapes s s.i.toNat).tail ++ shapesAfterSample s
  | .v0 => batchShapes s s.i.toNat ++ shapesAfterBatch s
  | .v1 | .v2 | .v3 | .v4 | .v5 | .v6 | .v7 | .v8 => (batchShapes s s.i.toNat).tail ++ shapesAfterBatch s

/-- The accesses a command has made and those it has left. -/
def shapesInAll (s : State) : List Shape := s.history.map eventShape ++ shapesLeft s

/-- Every access that a micro-operation makes was the first of those left (spec/42 R154, spec/20 R63). -/
theorem SequencerMove.shapesInAll_eq {s t : State} (h : SequencerMove s t) (hc : Coherent s) (hne : t.st ≠ s.st) :
    shapesInAll t = shapesInAll s := by
  have hcommand := commandShapes_eq s
  unfold shapesInAll
  cases h with
  | idle | stuck | unserved => exact absurd rfl hne
  | headSample hst hbr hleft =>
    obtain ⟨hi, hcount⟩ := hc.headCount_eq hst
    rw [hcount, if_pos ⟨hbr, hleft⟩] at hcommand
    simp only [shapesLeft, hst, hcommand, shapesAfterSample, hi]
    rfl
  | noHead hst hno =>
    obtain ⟨hi, hcount⟩ := hc.headCount_eq hst
    rw [hcount, if_neg fun h => absurd (hno h.1) (not_le.2 h.2)] at hcommand
    simp only [shapesLeft, hst, hcommand, hi]
    rfl
  | wholeBatch hst hleft =>
    simp only [shapesLeft, hst, shapesAfterBatch]
    rw [loopShapes_of_batch s _ (by omega), Nat.sub_sub]
    rfl
  | noBatch hst hno =>
    simp only [shapesLeft, hst]
    rw [loopShapes_of_noBatch s _ (by omega)]
    rfl
  | tailSample hst hleft =>
    simp only [shapesLeft, hst, shapesAfterSample]
    rw [show s.nsamps.toNat - s.i.toNat = s.nsamps.toNat - (s.i.toNat + 1) + 1 by omega, tailShapes_succ]
    rfl
  | noTail hst hno =>
    simp [shapesLeft, hst, tailShapes, Nat.sub_eq_zero_of_le hno]
  | sLoad hst | vLoad hst =>
    simp only [shapesLeft, hst, List.map_append, List.append_assoc]
    rfl
  | sStore hst =>
    have hi : (s.i + 1).toNat = s.i.toNat + 1 := (hc.sampleCells hst).toNat_add
    cases hret : s.ret <;>
    · simp only [shapesLeft, hst, shapesAfterSample, hret, hi, reduceIte, reduceCtorEq, List.map_append,
        List.append_assoc]
      rfl
  | vStore hst =>
    have hi : (s.i + 8).toNat = s.i.toNat + 8 := (hc.batchCells hst).toNat_add
    simp only [shapesLeft, hst, shapesAfterBatch, hi, List.map_append, List.append_assoc, batchShapes,
      hc.probed (by rw [hst]; rfl), branchForm]
    rfl
  | finish hst => simp only [shapesLeft, hst]
  | setup hst | probe hst | sDecode hst | sWiden hst | sCvt hst | sMul hst | vBswap16 hst | vHswap hst | vUnpacklo hst
  | vUnpackhi hst | vPerm hst | vCvt hst | vMul hst =>
    simp only [shapesLeft, hst]
    rfl

end Sys2Proof.Machine

/-! ### A command from its acceptance to its end -/

namespace Sys2Proof.Machine

/-- With an empty schedule there is no turn to move on from. -/
theorem popped_of_nil {s : State} (h : s.turns = []) : popped s = s := by
  rw [popped, h, List.tail_nil, ← h]

/-- No micro-operation touches the schedule. -/
theorem SequencerMove.turns {s t : State} (h : SequencerMove s t) : t.turns = s.turns := by
  cases h <;> rfl

theorem SameArguments.trans {s t u : State} (hst : SameArguments s t) (htu : SameArguments t u) :
    SameArguments s u := by
  obtain ⟨hin, hout, hn, hscale, hmarks, hm, hplatform⟩ := hst
  unfold SameArguments
  rwa [← hin, ← hout, ← hn, ← hscale, ← hmarks, ← hm, ← hplatform]

theorem SameArguments.inOutput {s t : State} (h : SameArguments s t) (a : Nat) : inOutput t a = inOutput s a := by
  obtain ⟨-, hout, hn, -⟩ := h
  rw [Machine.inOutput, Machine.inOutput, outEnd, outEnd, hout, hn]

/-- No byte of the input buffer of an admitted command is the output buffer's (spec/42 R142(f)). -/
theorem Admitted.not_inOutput {s : State} (h : Admitted s) {a : Nat} (ha : inInput s a = true) :
    inOutput s a = false := Bool.eq_false_iff.2 fun hout => h.disjoint a ⟨ha, hout⟩

/-- What a command that has ended leaves: `STATUS` reads 2, and every sample is converted, with `K` of the scale factor
(spec/42 R152, R156). -/
structure Completed (s : State) : Prop where
  status : s.status = ⟨false, true⟩
  constant : s.k = scaleConstant s.scale
  converted : ∀ j, j < s.nsamps.toNat → Converted s j

/-- Only `C.FINISH` ends a command, and it leaves it completed. -/
theorem SequencerMove.completes {s t : State} (h : SequencerMove s t) (hc : Coherent s) (hp : Progress s)
    (hrun : s.st ≠ .idle) (ht : t.st = .idle) : Completed t := by
  cases h with
  | finish hst =>
    obtain ⟨hk, -⟩ := hc.constants (by rw [hst]; rfl)
    refine ⟨rfl, hk, fun j hj => ?_⟩
    have hconverted := hp.below (by rw [hst]; rfl) j (by rw [hc.finished hst]; exact hj)
    have hadm := hc.admitted (hc.running.2 hrun)
    refine hconverted.congr rfl rfl rfl ?_ fun _ _ => rfl
    exact inputWord_congr (s := s) (by rfl) (fun a ha => hc.memGet_settled (hadm.not_inOutput ha)) hj
  | idle | stuck | unserved => exact absurd ht hrun
  | sStore => cases hret : s.ret <;> simp [hret] at ht
  | _ => cases ht

/-- What holds between the steps of a command that runs from `launch` with an empty schedule. -/
structure RunsFrom (launch s : State) : Prop where
  coherent : Coherent s
  progress : Progress s
  schedule : s.turns = []
  arguments : SameArguments launch s
  outside : ∀ a, inOutput launch a = false → memGet s.mem a = memGet launch.mem a
  shapes : shapesInAll s = shapesInAll launch
  completed : s.st = .idle → Completed s

/-- A command that has just been accepted runs from there. -/
theorem runsFrom_accepted {s : State} {m : Mode} (hc : Coherent s) (hst : s.st = .idle) (hturns : s.turns = [])
    (hadm : Admitted s) : RunsFrom (accepted m s) (accepted m s) where
  coherent := hc.accept m (Bool.eq_false_iff.2 fun hbusy => hc.running.1 hbusy hst) hadm
  progress := progress_of_not_afterSetup rfl
  schedule := hturns
  arguments := ⟨rfl, rfl, rfl, rfl, rfl, rfl, rfl⟩
  outside := fun _ _ => rfl
  shapes := rfl
  completed := nofun

/-- One step of a running command. -/
theorem RunsFrom.takes_step {launch s : State} (h : RunsFrom launch s) (hrun : s.st ≠ .idle) :
    ∃ t, step s = .next t ∧ RunsFrom launch t ∧ stepsLeft s = stepsLeft t + 1 := by
  have hc := h.coherent
  have hsequencer : sequencerMoves s := .inl h.schedule
  obtain ⟨t, hstep, hne⟩ := runningCommandAlwaysMovesOn s hc (hc.running.2 hrun) hsequencer
  have hmove := sequencerMove_of_step hsequencer hstep
  rw [popped_of_nil h.schedule] at hmove
  refine ⟨t, hstep, ?_, hmove.stepsLeft_eq_succ hc hne⟩
  exact {
    coherent := hmove.keeps_coherent hc
    progress := (Move.sequencer hmove).keeps_progress hc h.progress
    schedule := hmove.turns.trans h.schedule
    arguments := h.arguments.trans hmove.sameArguments
    outside := fun a ha =>
      (hmove.memGet_outside hc ((h.arguments.inOutput a).trans ha)).1.trans (h.outside a ha)
    shapes := (hmove.shapesInAll_eq hc hne).trans h.shapes
    completed := hmove.completes hc h.progress hrun }

theorem runSteps_succ_of_step {n : Nat} {s t : State} (h : step s = .next t) : runSteps (n + 1) s = runSteps n t := by
  simp [runSteps, h]

/-- A running command takes any number of steps that it has left. -/
theorem RunsFrom.takes_steps {launch s : State} (h : RunsFrom launch s) {n : Nat} (hn : n ≤ stepsLeft s) :
    ∃ u, runSteps n s = .next u ∧ RunsFrom launch u ∧ stepsLeft u + n = stepsLeft s := by
  induction n generalizing s with
  | zero => exact ⟨s, rfl, h, rfl⟩
  | succ n ih =>
    have hrun : s.st ≠ .idle := fun hst => by
      rw [stepsLeft_eq_zero_iff.2 hst] at hn
      omega
    obtain ⟨t, hstep, ht, hleft⟩ := h.takes_step hrun
    obtain ⟨u, hu, hruns, hsum⟩ := ih ht (by omega)
    exact ⟨u, (runSteps_succ_of_step hstep).trans hu, hruns, by omega⟩

/-- A running command ends after the steps it has left. -/
theorem RunsFrom.ends {launch s : State} (h : RunsFrom launch s) :
    ∃ t, runSteps (stepsLeft s) s = .next t ∧ RunsFrom launch t ∧ t.st = .idle := by
  obtain ⟨t, ht, hruns, hsum⟩ := h.takes_steps le_rfl
  exact ⟨t, ht, hruns, stepsLeft_eq_zero_iff.1 (by omega)⟩

/-- Before that it is busy. -/
theorem RunsFrom.busy_until {launch s : State} (h : RunsFrom launch s) {n : Nat} (hn : n < stepsLeft s) :
    ∃ u, runSteps n s = .next u ∧ u.status.busy = true := by
  obtain ⟨u, hu, hruns, hsum⟩ := h.takes_steps hn.le
  refine ⟨u, hu, hruns.coherent.running.2 fun hst => ?_⟩
  rw [stepsLeft_eq_zero_iff.2 hst] at hsum
  omega

/-- What a command that has ended leaves in memory, in terms of what was there when it was launched (spec/42 R156). -/
theorem RunsFrom.converts {launch t : State} (h : RunsFrom launch t) (hadm : Admitted launch) (hst : t.st = .idle)
    {j : Nat} (hj : j < launch.nsamps.toNat) :
    memRead4 t.mem (launch.outBase.toNat + 8 * j) =
        (conv launch.m (inputWord launch j) (scaleConstant launch.scale)).1 ∧
      memRead4 t.mem (launch.outBase.toNat + 8 * j + 4) =
        (conv launch.m (inputWord launch j) (scaleConstant launch.scale)).2 := by
  obtain ⟨-, hk, hconverted⟩ := h.completed hst
  obtain ⟨hin, hout, hn, hscale, -, hm, -⟩ := h.arguments
  have hword : inputWord t j = inputWord launch j :=
    inputWord_congr hin (fun a ha => h.outside a (hadm.not_inOutput ha)) hj
  have hsettled : settled t = t.mem := by
    rw [settled, h.coherent.drained (by rw [hst]; rfl), memPerform_nil]
  have hsample := hconverted j (by rwa [hn])
  rwa [Converted, hsettled, hm, hk, hscale, hword, hout] at hsample

/-- Settles O59: the accepted command has the counted steps left, and `RunsFrom` says what it leaves at its end. -/
theorem commandEndsAsSpecified : Obligations.CommandEndsAsSpecified := by
  intro s m hc hst hturns hadm
  have hruns := runsFrom_accepted (m := m) hc hst hturns hadm
  refine ⟨fun n hn => hruns.busy_until hn, ?_⟩
  obtain ⟨t, ht, hend, hidle⟩ := hruns.ends
  obtain ⟨hin, hout, hn, hscale, -⟩ := hend.arguments
  refine ⟨t, ht, ?_, hidle, hend.coherent.drained (by rw [hidle]; rfl), fun j hj => ?_, hend.outside, hin, hout, hn,
    hscale⟩
  · rw [(hend.completed hidle).status]
    rfl
  · exact hend.converts (hruns.coherent.admitted rfl) hidle hj

/-- Settles O60: the accesses made and those left are the same at every step, and at the end none is left. -/
theorem commandAccessesInOrder : Obligations.CommandAccessesInOrder := by
  intro s m hc hst hturns hadm
  obtain ⟨t, ht, hend, hidle⟩ := (runsFrom_accepted (m := m) hc hst hturns hadm).ends
  refine ⟨t, ht, ?_⟩
  have hshapes := hend.shapes
  rwa [shapesInAll, shapesLeft, hidle, List.append_nil] at hshapes

end Sys2Proof.Machine

/-! ## The bulk converter -/

/-! ### Loads and exchanges of lanes -/

namespace Sys2Proof.Machine

/-- A served vector load. -/
theorem execVLoad_served {s : State} (hserved : served s.platform .read (inAddr s.inBase s.i) 32) :
    execVLoad s = .next
      { s with
        vin := memRead32 s.mem (inAddr s.inBase s.i)
        st := .v1
        history := s.history ++ [.read (inAddr s.inBase s.i) 32] } :=
  access_served hserved

/-- Settles O26: the slots of the loaded vector are words of memory, byte by byte. -/
theorem vectorLoadReadsEightWords : Obligations.VectorLoadReadsEightWords := by
  intro s a hserved
  refine ⟨_, execVLoad_served hserved, fun j hj k hk => ?_, rfl⟩
  rw [vslot_vectorLoad s hj, inputWord, byteOf_memRead4 _ _ hk]

theorem bswapTable_iff {m : Mode} : bswapTable m = true ↔ m = .bigEndianWire := by
  cases m <;> simp [bswapTable]

theorem realHiTable_iff {m : Mode} : realHiTable m = true ↔ m = .littleEndianWire := by
  cases m <;> simp [realHiTable]

/-- An exchange of bytes in every slot is one in every lane (spec/43 R172). -/
theorem vlane_vmap_bswap16w (v : VReg) {l : Nat} (hl : l < 16) : vlane (vmap bswap16w v) l = bswap16 (vlane v l) := by
  obtain ⟨j, rfl | rfl⟩ := l.even_or_odd'
  · rw [vlane_even, vlane_even, vslot_vmap _ _ (by omega), bswap16w, lanes_low]
  · rw [vlane_odd, vlane_odd, vslot_vmap _ _ (by omega), bswap16w, lanes_high]

/-- An exchange of half-words in every slot is one of the lanes `2j` and `2j + 1` (spec/43 R173). -/
theorem vlane_vmap_hswap (v : VReg) {j : Nat} (hj : j < 8) :
    vlane (vmap hswap v) (2 * j) = vlane v (2 * j + 1) ∧ vlane (vmap hswap v) (2 * j + 1) = vlane v (2 * j) := by
  rw [vlane_even, vlane_odd, vlane_even, vlane_odd, vslot_vmap _ _ hj, hswap, lanes_low, lanes_high]
  exact ⟨rfl, rfl⟩

/-- Settles O27, by whether the mode asks for the exchange. -/
theorem vectorByteSwapOnlyBigEndian : Obligations.VectorByteSwapOnlyBigEndian := by
  intro s
  refine ⟨_, rfl, rfl, fun hm l hl => ?_, fun hm => if_neg (bswapTable_iff.not.2 hm)⟩
  dsimp only
  rw [if_pos (bswapTable_iff.2 hm)]
  exact vlane_vmap_bswap16w s.vin hl

/-- What `V.BSWAP16` and then `V.HSWAP` make of `VIN` (spec/43 R172, R173). -/
def canonSlots (m : Mode) (v : VReg) : VReg :=
  let u := if bswapTable m then vmap bswap16w v else v
  if realHiTable m then vmap hswap u else u

/-- The two exchanges put the canonical word in every slot (spec/41 R123). -/
theorem vslot_canonSlots (m : Mode) (v : VReg) {j : Nat} (hj : j < 8) :
    vslot (canonSlots m v) j = canon m (vslot v j) :=
  vslot_ite_vmap hj (vslot_ite_vmap hj rfl)

/-- Settles O28: after both exchanges every slot is canonical, and a canonical word has its real lane below. -/
theorem vectorHalfSwapOnlyLittleEndian : Obligations.VectorHalfSwapOnlyLittleEndian := by
  intro s
  refine ⟨_, rfl, rfl, fun hm j hj => ?_, fun hm => if_neg (realHiTable_iff.not.2 hm), _, _, rfl, rfl, fun j hj => ?_⟩
  · dsimp only
    rw [if_pos (realHiTable_iff.2 hm)]
    exact vlane_vmap_hswap s.vin hj
  · have hcanon := vslot_canonSlots s.m s.vin hj
    rw [vlane_even, vlane_odd]
    exact ⟨congrArg (·.extractLsb' 0 16) hcanon, congrArg (·.extractLsb' 16 16) hcanon⟩

end Sys2Proof.Machine

/-! ### Unpacks and the permute -/

namespace Sys2Proof.Machine

/-- The low unpack widens the low four lanes of half `q` (spec/43 R174). -/
theorem vslot_unpackLo (v : VReg) {q p : Nat} (hq : q < 2) (hp : p < 4) :
    vslot (unpackLo v) (4 * q + p) = widen (vlane v (8 * q + p)) := by
  rw [unpackLo, vslot_vofSlots _ (by omega), show 8 * ((4 * q + p) / 4) + (4 * q + p) % 4 = 8 * q + p by omega]

/-- The high unpack widens the high four lanes of half `q` (spec/43 R175). -/
theorem vslot_unpackHi (v : VReg) {q p : Nat} (hq : q < 2) (hp : p < 4) :
    vslot (unpackHi v) (4 * q + p) = widen (vlane v (8 * q + 4 + p)) := by
  rw [unpackHi, vslot_vofSlots _ (by omega),
    show 8 * ((4 * q + p) / 4) + 4 + (4 * q + p) % 4 = 8 * q + 4 + p by omega]

/-- Settles O29: widening keeps the number of a lane. -/
theorem unpacksWidenLanesOfEachHalf : Obligations.UnpacksWidenLanesOfEachHalf := by
  intro s
  refine ⟨⟨_, rfl, rfl, fun q hq p hp => ?_⟩, ⟨_, rfl, rfl, fun q hq p hp => ?_⟩⟩
  · exact (congrArg _ (vslot_unpackLo s.vin hq hp)).trans (widen_toInt _)
  · exact (congrArg _ (vslot_unpackHi s.vin hq hp)).trans (widen_toInt _)

/-- Halves `q` of two registers, put together, hold the slots of both in order. -/
theorem vslot_vofHalves_vhalf (u v : VReg) (q : Nat) {j : Nat} (hj : j < 4) :
    vslot (vofHalves (vhalf u q) (vhalf v q)) j = vslot u (4 * q + j) ∧
      vslot (vofHalves (vhalf u q) (vhalf v q)) (4 + j) = vslot v (4 * q + j) := by
  rw [vslot_vofHalves_lo _ _ hj, vslot_vofHalves_hi _ _ hj, vhalf_slot _ _ hj, vhalf_slot _ _ hj]
  exact ⟨rfl, rfl⟩

/-- Settles O30: the permute exchanges halves, and after the unpacks that brings the widened lanes in order. -/
theorem permuteRecombinesHalves : Obligations.PermuteRecombinesHalves := by
  intro s
  refine ⟨⟨_, rfl, rfl, fun j hj => ?_⟩, _, _, _, rfl, rfl, rfl, fun k hk => ?_⟩
  · obtain ⟨hlo, hhi⟩ := vslot_vofHalves_vhalf s.vlo s.vhi 0 hj
    obtain ⟨hlo', hhi'⟩ := vslot_vofHalves_vhalf s.vlo s.vhi 1 hj
    rw [Nat.mul_zero, Nat.zero_add] at hlo hhi
    exact ⟨hlo, hhi, hlo', hhi'⟩
  · have hlow := (congrArg BitVec.toInt (vslot_perm_unpack s.vin (by omega : 0 < 2) hk)).trans (widen_toInt _)
    have hhigh := (congrArg BitVec.toInt (vslot_perm_unpack s.vin (by omega : 1 < 2) hk)).trans (widen_toInt _)
    rw [Nat.mul_zero, Nat.zero_add] at hlow
    exact ⟨hlow, hhigh⟩

end Sys2Proof.Machine

/-! ### Conversion and multiplication, slot by slot -/

namespace Sys2Proof.Machine

theorem i2f_zero : i2f 0 = 0 := by decide

/-- A converted slot has exactly the value of the integer, if any finite pattern has it (spec/40 R105). -/
theorem vslot_vmap_i2f_exact {v : VReg} {k : Nat} (hk : k < 8) {r : F32} (hr : f32Finite r = true)
    (hv : f32Value r = (vslot v k).toInt) :
    f32Finite (vslot (vmap i2f v) k) = true ∧ f32Value (vslot (vmap i2f v) k) = (vslot v k).toInt := by
  rw [vslot_vmap _ _ hk]
  exact i2f_exact (fitsF32_of_value hr hv)

theorem vslot_vmap_i2f_zero {v : VReg} {k : Nat} (hk : k < 8) (h : vslot v k = 0) : vslot (vmap i2f v) k = 0 := by
  rw [vslot_vmap _ _ hk, h, i2f_zero]

/-- Settles O31: both registers are converted slot by slot. -/
theorem vectorConvertIsExact : Obligations.VectorConvertIsExact := fun _ =>
  ⟨_, rfl, rfl, fun _ hk => ⟨fun _ => vslot_vmap_i2f_exact hk, fun _ => vslot_vmap_i2f_exact hk,
    vslot_vmap_i2f_zero hk, vslot_vmap_i2f_zero hk⟩⟩

/-- A slot of a product is the product of the slots, rounded once (spec/40 R106). -/
theorem vslot_vmap₂_fmul_isRne {u v : VReg} {k : Nat} (hk : k < 8) (hu : f32Finite (vslot u k) = true)
    (hv : f32Finite (vslot v k) = true) :
    IsRne (f32Value (vslot u k) * f32Value (vslot v k)) (f32Sign (vslot u k) ^^ f32Sign (vslot v k))
      (vslot (vmap₂ fmul u v) k) := by
  rw [vslot_vmap₂ _ _ _ hk]
  exact fmul_isRne hu hv

/-- Settles O32: both registers are multiplied slot by slot. -/
theorem vectorMulRoundsEachSlot : Obligations.VectorMulRoundsEachSlot := fun _ =>
  ⟨_, rfl, rfl, fun _ hk hfinite =>
    ⟨(vslot_vmap₂_fmul_isRne hk · hfinite), (vslot_vmap₂_fmul_isRne hk · hfinite)⟩⟩

end Sys2Proof.Machine

/-! ### Vector stores -/

namespace Sys2Proof.Machine

/-- The bytes of a batch are the 64 bytes from the address of sample `I`. -/
theorem mem_batchCells_fst {s : State} {a : Nat} :
    a ∈ (batchCells s).map Prod.fst ↔ storeAddr s ≤ a ∧ a < storeAddr s + 64 := by
  rw [batchCells, List.map_append, List.mem_append, mem_storeCells_fst, mem_storeCells_fst]
  omega

/-- All a served vector store does, in either form (spec/43 R179, R180). -/
theorem vectorStore_served {s : State} (hport : s.platform.buffersStores = false → s.inFlight = [])
    (hserved : served s.platform .write (storeAddr s) 64) (form : Form) :
    ∃ t, vectorStore form s = .next t ∧ settled t = memPerform (settled s) (batchCells s) ∧
      (∀ x, x < storeAddr s ∨ storeAddr s + 64 ≤ x →
        memGet (settled t) x = memGet (settled s) x ∧ memGet t.mem x = memGet s.mem x) ∧
      (s.platform.buffersStores = false → t.inFlight = []) ∧
      t = { s with
        mem := t.mem
        inFlight := t.inFlight
        i := s.i + 8
        st := .bulktest
        history := s.history ++
          [.write (storeAddr s) 32 s.vfa.toNat form, .write (storeAddr s + 32) 32 s.vfb.toNat form] } := by
  obtain ⟨hsettled, houtside, hflight, hframe⟩ := vectorWrites hport (storeAddr s) s.vfa s.vfb form rfl
  refine ⟨_, access_served hserved, hsettled, fun x hx => ⟨?_, houtside x hx⟩, hflight,
    congrArg (fun u : State => { u with i := s.i + 8, st := .bulktest }) hframe⟩
  refine (congrArg (memGet · x) hsettled).trans (memGet_memPerform_of_notMem _ _ fun hx' => ?_)
  have := mem_batchCells_fst.1 hx'
  omega

/-- `BR` says in which form `V8` stores (spec/42 R149). -/
theorem issued_store_iff {s : State} (hst : s.st = .v8) :
    (issued s = some .vStoreA ↔ s.br = .one ∨ s.br = .two) ∧ (issued s = some .vStoreU ↔ s.br = .three) := by
  cases hbr : s.br <;> simp [issued, hst, hbr]

/-- Settles O33: both stores are the one operation, in the two forms, and a stored slot is read back byte by byte. -/
theorem vectorStoresWriteSixtyFourBytes : Obligations.VectorStoresWriteSixtyFourBytes := by
  intro s i form hi a
  refine ⟨issued_store_iff, fun hserved hwf hport => ?_⟩
  obtain ⟨t, ht, hsettled, hrest⟩ := vectorStore_served hport hserved form
  have hexec : exec i s = vectorStore form s := by
    rcases hi with ⟨rfl, rfl⟩ | ⟨rfl, rfl⟩ <;> rfl
  refine ⟨t, hexec.trans ht, fun j hj k hk => ?_, hrest⟩
  obtain ⟨hvfa, hvfb⟩ := memRead4_batchCells (settled_wf hwf) s hj
  rw [hsettled, ← byteOf_memRead4 _ _ hk, ← byteOf_memRead4 _ _ hk, ← hvfa, ← hvfb]
  exact ⟨rfl, rfl⟩

end Sys2Proof.Machine

/-! ### A bulk iteration -/

namespace Sys2Proof.Machine

/-- One step of the sequencer under an empty schedule, in a run. -/
theorem runSteps_succ_of_issued {n : Nat} {s t : State} {i : Instr} (hturns : s.turns = []) (hi : issued s = some i)
    (ht : exec i s = .next t) : runSteps (n + 1) s = runSteps n t := by
  have hstep := (stepRunsIssuedMicroOperation s (.inl hturns)).1 i hi
  rw [← popped, popped_of_nil hturns] at hstep
  exact runSteps_succ_of_step (hstep.trans ht)

/-- What the micro-operations of `V0` to `V7` make of a state: a batch loaded, converted and multiplied
(spec/43 R183). -/
def batchReady (s : State) : State :=
  let vin := canonSlots s.m (memRead32 s.mem (inAddr s.inBase s.i))
  let va := vofHalves (vhalf (unpackLo vin) 0) (vhalf (unpackHi vin) 0)
  let vb := vofHalves (vhalf (unpackLo vin) 1) (vhalf (unpackHi vin) 1)
  { s with
    history := s.history ++ [.read (inAddr s.inBase s.i) 32]
    vin := vin
    vlo := unpackLo vin
    vhi := unpackHi vin
    va := va
    vb := vb
    vfa := vmap₂ fmul (vmap i2f va) s.vk
    vfb := vmap₂ fmul (vmap i2f vb) s.vk
    st := .v8 }

/-- Eight steps from `V0` make a batch ready to be stored. -/
theorem runSteps_batchReady {s : State} (hst : s.st = .v0) (hturns : s.turns = [])
    (hserved : served s.platform .read (inAddr s.inBase s.i) 32) (n : Nat) :
    runSteps (n + 8) s = runSteps n (batchReady s) := by
  refine .trans (runSteps_succ_of_issued (i := .vLoad) hturns (by rw [issued, hst]) (execVLoad_served hserved)) ?_
  refine .trans (runSteps_succ_of_issued (i := .vBswap16) hturns rfl rfl) ?_
  refine .trans (runSteps_succ_of_issued (i := .vHswap) hturns rfl rfl) ?_
  refine .trans (runSteps_succ_of_issued (i := .vUnpacklo) hturns rfl rfl) ?_
  refine .trans (runSteps_succ_of_issued (i := .vUnpackhi) hturns rfl rfl) ?_
  refine .trans (runSteps_succ_of_issued (i := .vPerm) hturns rfl rfl) ?_
  refine .trans (runSteps_succ_of_issued (i := .vCvt) hturns rfl rfl) ?_
  exact runSteps_succ_of_issued (i := .vMul) hturns rfl rfl

/-- With `K` in every slot of `VK`, a ready batch is converted, each sample by itself (spec/43 R178, R183). -/
theorem batchPairs_batchReady {s : State} (hvk : ∀ j, j < 8 → vslot s.vk j = s.k) :
    BatchPairs (batchReady s).vfa (batchReady s).vfb (fun j => (conv s.m (inputWord s (s.i.toNat + j)) s.k).1)
      (fun j => (conv s.m (inputWord s (s.i.toNat + j)) s.k).2) := by
  have hcanon (j : Nat) (hj : j < 8) : vslot (batchReady s).vin j = canon s.m (inputWord s (s.i.toNat + j)) :=
    (vslot_canonSlots _ _ hj).trans (congrArg (canon s.m) (vslot_vectorLoad s hj))
  have hpairs := ((batchPairs_perm_unpack hcanon).map i2f).map (fmul · s.k)
  rwa [← vmap₂_eq_vmap hvk, ← vmap₂_eq_vmap hvk] at hpairs

/-- The store of a batch is a step from `V8` once a branch is chosen (spec/42 R149). -/
theorem issued_store_of_branch {s : State} (hst : s.st = .v8) (hbr : s.br ≠ .none) :
    ∃ i form, issued s = some i ∧ exec i s = vectorStore form s := by
  obtain ⟨haligned, hunaligned⟩ := issued_store_iff hst
  cases hb : s.br with
  | none => exact absurd hb hbr
  | one => exact ⟨_, _, haligned.2 (.inl hb), rfl⟩
  | two => exact ⟨_, _, haligned.2 (.inr hb), rfl⟩
  | three => exact ⟨_, _, hunaligned.2 hb, rfl⟩

/-- Settles O58: eight steps make the batch ready, and the ninth stores it. -/
theorem bulkIterationConvertsEightWords : Obligations.BulkIterationConvertsEightWords := by
  intro s x y hst hturns hbr hvk hread hwrite hwf hport
  obtain ⟨i, form, hissued, hexec⟩ := issued_store_of_branch (s := batchReady s) rfl hbr
  obtain ⟨t, ht, hsettled, houtside, -, hframe⟩ := vectorStore_served (s := batchReady s) hport hwrite form
  have hrun : runSteps 9 s = .next t :=
    (runSteps_batchReady hst hturns hread 1).trans (runSteps_succ_of_issued hturns hissued (hexec.trans ht))
  refine ⟨t, hrun, fun j hj => ?_, houtside, congrArg State.i hframe, congrArg State.st hframe⟩
  have hword : inputWord s (s.i.toNat + j) = memRead4 s.mem (x + 4 * j) := by
    rw [inputWord, Nat.mul_add, ← Nat.add_assoc]
  have hstored := (batchPairs_batchReady hvk).stored (settled_wf (s := batchReady s) hwf) hj
  rw [← hsettled, hword] at hstored
  exact hstored

end Sys2Proof.Machine

/-! ## The scalar converter -/

/-! ### The load and the lanes of a word -/

namespace Sys2Proof.Machine

/-- A served scalar load. -/
theorem execSLoad_served {s : State} (hserved : served s.platform .read (inAddr s.inBase s.i) 4) :
    execSLoad s = .next
      { s with
        w := memRead4 s.mem (inAddr s.inBase s.i)
        st := .s1
        history := s.history ++ [.read (inAddr s.inBase s.i) 4] } :=
  access_served hserved

/-- Settles O20: the word read is the four bytes, byte by byte. -/
theorem scalarLoadReadsFourBytes : Obligations.ScalarLoadReadsFourBytes := by
  intro s a hserved
  exact ⟨_, execSLoad_served hserved, fun k hk => byteOf_memRead4 _ _ hk, rfl⟩

/-- The low half-word is bytes 1 and 0. -/
theorem lowHalf_eq_bytes (w : Word32) : w.extractLsb' 0 16 = byteOf w 1 ++ byteOf w 0 :=
  (BitVec.extractLsb'_append_extractLsb'_eq_extractLsb' (len₁ := 8) (len₂ := 8) rfl).symm

/-- The high half-word is bytes 3 and 2. -/
theorem highHalf_eq_bytes (w : Word32) : w.extractLsb' 16 16 = byteOf w 3 ++ byteOf w 2 :=
  (BitVec.extractLsb'_append_extractLsb'_eq_extractLsb' (len₁ := 8) (len₂ := 8) rfl).symm

/-- The exchange of the two bytes of a lane (spec/00 R10). -/
theorem bswap16_append (u v : Byte) : bswap16 (u ++ v : Lane) = v ++ u := by
  rw [bswap16, BitVec.extractLsb'_append_eq_right, BitVec.extractLsb'_append_eq_left]

/-- Native words hold the real lane below, both least significant byte first (spec/41 R124). -/
theorem decode_nativeWire (w : Word32) :
    decodeReal .nativeWire w = byteOf w 1 ++ byteOf w 0 ∧ decodeImag .nativeWire w = byteOf w 3 ++ byteOf w 2 :=
  ⟨lowHalf_eq_bytes w, highHalf_eq_bytes w⟩

/-- Little-endian wire words hold the real lane above (spec/41 R124). -/
theorem decode_littleEndianWire (w : Word32) :
    decodeReal .littleEndianWire w = byteOf w 3 ++ byteOf w 2 ∧
      decodeImag .littleEndianWire w = byteOf w 1 ++ byteOf w 0 := by
  rw [decodeReal, decodeImag, canon_littleEndianWire, hswap, lanes_low, lanes_high]
  exact ⟨highHalf_eq_bytes w, lowHalf_eq_bytes w⟩

/-- Big-endian wire words hold the real lane below, both most significant byte first (spec/41 R124). -/
theorem decode_bigEndianWire (w : Word32) :
    decodeReal .bigEndianWire w = byteOf w 0 ++ byteOf w 1 ∧
      decodeImag .bigEndianWire w = byteOf w 2 ++ byteOf w 3 := by
  rw [decodeReal, decodeImag, canon_bigEndianWire, bswap16w, lanes_low, lanes_high, lowHalf_eq_bytes,
    highHalf_eq_bytes]
  exact ⟨bswap16_append _ _, bswap16_append _ _⟩

/-- Settles O21, mode by mode. -/
theorem scalarDecodeByBytes : Obligations.ScalarDecodeByBytes := fun s =>
  ⟨_, rfl, rfl, fun hm => hm ▸ decode_nativeWire s.w, fun hm => hm ▸ decode_littleEndianWire s.w,
    fun hm => hm ▸ decode_bigEndianWire s.w⟩

end Sys2Proof.Machine

/-! ### Widening, conversion and multiplication -/

namespace Sys2Proof.Machine

/-- Settles O22: widening keeps the number of a lane. -/
theorem scalarWidenKeepsNumber : Obligations.ScalarWidenKeepsNumber := fun _ =>
  ⟨_, rfl, widen_toInt _, widen_toInt _, rfl⟩

/-- Settles O23: an integer that some pattern equals fits in 24 significant bits, and `i2f` of it is exact. -/
theorem scalarConvertIsExact : Obligations.ScalarConvertIsExact := by
  intro s
  have hexact {x : Word32} (r : F32) (hr : f32Finite r = true) (hv : f32Value r = x.toInt) :=
    i2f_exact (fitsF32_of_value hr hv)
  have hzero {x : Word32} (hx : x = 0) : i2f x = 0 := (congrArg i2f hx).trans i2f_zero
  exact ⟨_, rfl, hexact, hexact, hzero, hzero, rfl⟩

/-- Settles O24: each part is the product with `K`, rounded once. -/
theorem scalarMulRoundsOnce : Obligations.ScalarMulRoundsOnce := fun _ =>
  ⟨_, rfl, fmul_isRne, fmul_isRne, rfl⟩

end Sys2Proof.Machine

/-! ### The scalar store -/

namespace Sys2Proof.Machine

/-- A served scalar store writes the pair and goes back where `RET` says (spec/44 R206, spec/42 R151). -/
theorem execSStore_served {s : State} (hserved : served s.platform .write (storeAddr s) 8) :
    execSStore s = .next
      { memWrite (storeAddr s) 8 (samplePair s.fr s.fi) .unaligned s with
        i := s.i + 1
        st := if s.ret = .head then .bulktest else .tailtest } := by
  refine (access_served hserved).trans ?_
  cases s.ret <;> rfl

/-- All a served scalar store does, to settled memory and to the state. -/
theorem execSStore_effect {s : State} (hport : s.platform.buffersStores = false → s.inFlight = [])
    (hserved : served s.platform .write (storeAddr s) 8) :
    ∃ t, execSStore s = .next t ∧ settled t = memPerform (settled s) (sampleCells s) ∧
      (∀ x, x < storeAddr s ∨ storeAddr s + 8 ≤ x →
        memGet (settled t) x = memGet (settled s) x ∧ memGet t.mem x = memGet s.mem x) ∧
      (s.platform.buffersStores = false → t.inFlight = []) ∧
      t = { s with
        mem := t.mem
        inFlight := t.inFlight
        i := s.i + 1
        st := if s.ret = .head then .bulktest else .tailtest
        history := s.history ++ [.write (storeAddr s) 8 (samplePair s.fr s.fi).toNat .unaligned] } := by
  have hsettled := settled_memWrite hport (storeAddr s) 8 (samplePair s.fr s.fi) .unaligned
  have hframe := memWrite_frame (storeAddr s) 8 (samplePair s.fr s.fi) .unaligned s
  refine ⟨_, execSStore_served hserved, hsettled, fun x hx => ⟨?_, memGet_memWrite _ _ _ _ _ hx⟩, fun hb => ?_, ?_⟩
  · exact (congrArg (memGet · x) hsettled).trans (memGet_store_outside _ _ hx)
  · exact (memWrite_inFlight_of_unbuffered _ _ _ _ hb).trans (hport hb)
  · exact congrArg (fun u : State =>
      { u with i := s.i + 1, st := if s.ret = Ret.head then .bulktest else .tailtest }) hframe

/-- Settles O25: the two parts of the stored pair are read back byte by byte. -/
theorem scalarStoreWritesEightBytes : Obligations.ScalarStoreWritesEightBytes := by
  intro s a hserved hwf hport
  obtain ⟨t, ht, hsettled, hrest⟩ := execSStore_effect hport hserved
  refine ⟨t, ht, fun k hk => ?_, hrest⟩
  obtain ⟨hreal, himag⟩ := memRead4_sampleCells (settled_wf hwf) s
  rw [hsettled, ← byteOf_memRead4 _ _ hk, ← byteOf_memRead4 _ _ hk, ← hreal, ← himag]
  exact ⟨rfl, rfl⟩

end Sys2Proof.Machine

/-! ### A scalar sample -/

namespace Sys2Proof.Machine

/-- What the micro-operations of `S0` to `S4` make of a state: a sample loaded, converted and multiplied
(spec/44 R208). -/
def sampleReady (s : State) : State :=
  let w := memRead4 s.mem (inAddr s.inBase s.i)
  { s with
    history := s.history ++ [.read (inAddr s.inBase s.i) 4]
    w := w
    rr := decodeReal s.m w
    ri := decodeImag s.m w
    xr := widen (decodeReal s.m w)
    xi := widen (decodeImag s.m w)
    fr := (conv s.m w s.k).1
    fi := (conv s.m w s.k).2
    st := .s5 }

/-- Five steps from `S0` make a sample ready to be stored. -/
theorem runSteps_sampleReady {s : State} (hst : s.st = .s0) (hturns : s.turns = [])
    (hserved : served s.platform .read (inAddr s.inBase s.i) 4) (n : Nat) :
    runSteps (n + 5) s = runSteps n (sampleReady s) := by
  refine .trans (runSteps_succ_of_issued (i := .sLoad) hturns (by rw [issued, hst]) (execSLoad_served hserved)) ?_
  refine .trans (runSteps_succ_of_issued (i := .sDecode) hturns rfl rfl) ?_
  refine .trans (runSteps_succ_of_issued (i := .sWiden) hturns rfl rfl) ?_
  refine .trans (runSteps_succ_of_issued (i := .sCvt) hturns rfl rfl) ?_
  exact runSteps_succ_of_issued (i := .sMul) hturns rfl rfl

/-- Settles O57: five steps make the sample ready, and the sixth stores it. -/
theorem scalarSampleConvertsOneWord : Obligations.ScalarSampleConvertsOneWord := by
  intro s x y hst hturns hread hwrite hwf hport
  obtain ⟨t, ht, hsettled, houtside, -, hframe⟩ := execSStore_effect (s := sampleReady s) hport hwrite
  have hrun : runSteps 6 s = .next t :=
    (runSteps_sampleReady hst hturns hread 1).trans (runSteps_succ_of_issued (i := .sStore) hturns rfl ht)
  obtain ⟨hreal, himag⟩ := memRead4_sampleCells (settled_wf (s := sampleReady s) hwf) (sampleReady s)
  rw [← hsettled] at hreal himag
  exact ⟨t, hrun, hreal, himag, houtside, congrArg State.i hframe, congrArg State.st hframe⟩

end Sys2Proof.Machine

/-! ## Exceptions: what no step does -/

/-! ### The moves that are refused -/

namespace Sys2Proof.Machine

/-- A sequencer's move of a coherent block ends in a next state: what is issued makes no access past 2^64. -/
theorem Coherent.step_sequencer_ends_next {s : State} (hc : Coherent s) (hs : sequencerMoves s) :
    ∃ t, step s = .next t := by
  have hcp := hc.popped
  obtain ⟨i, hi⟩ := Option.ne_none_iff_exists'.1 hcp.issues
  rw [(stepRunsIssuedMicroOperation s hs).1 i hi]
  exact exec_issued_ends_next hi fun _ _ _ hacc => (hcp.currentAccess_served hacc).1

/-- Only a `CONVERT` of the command words is refused, while idle and not admitted (spec/42 R141, R143). -/
theorem exec_command_refused {word : Word32} {i : Instr} {s : State} {r : Refusal} (hdecode : decodeCmd word = .ok i)
    (h : exec i s = .refused r) : s.status.busy = false ∧ word[0] = true ∧ ¬Admitted s := by
  have hconvert {m : Mode} (h : startCommand m s = .refused r) : s.status.busy = false ∧ ¬Admitted s := by
    obtain ⟨hidle, hr⟩ := startCommand_refused_iff.1 h
    exact ⟨hidle, fun hadm => by cases (admission_eq_none_iff.2 hadm).symm.trans hr⟩
  rcases decodeCmd_cases hdecode with ⟨-, rfl⟩ | ⟨rfl, rfl⟩ | ⟨rfl, rfl⟩ | ⟨rfl, rfl⟩
  · cases h
  all_goals
    obtain ⟨hidle, hno⟩ := hconvert h
    exact ⟨hidle, rfl, hno⟩

/-- A word with no meaning has `START` = 1 (spec/30 R83, R84). -/
theorem start_of_decodeCmd_error {word : Word32} {e : Reject} (h : decodeCmd word = .error e) : word[0] = true := by
  by_contra hstart
  rw [decodeCmd_of_start_clear (Bool.eq_false_of_not_eq_true hstart)] at h
  cases h

/-- A reserved word is refused while idle, as such (spec/30 R84, R85). -/
theorem writeReserved_refused {word : Word32} {s : State} {r : Refusal} (h : writeReserved word s = .refused r) :
    s.status.busy = false ∧ r = .reservedCommand word := by
  cases hbusy : s.status.busy with
  | true => rw [writeReserved_busy hbusy] at h; cases h
  | false => rw [writeReserved_idle hbusy] at h; cases h; exact ⟨rfl, rfl⟩

/-- A write of `CTRL` is refused while idle only, for its word or for the command that the word is. -/
theorem step_writeCtrl_refused {s : State} {word : Word32} {rest : List Turn} {r : Refusal}
    (hturn : s.turns = .writeCtrl word :: rest) (h : step s = .refused r) :
    s.status.busy = false ∧ word[0] = true ∧ (r = .reservedCommand word ∨ ¬Admitted s) := by
  cases hdecode : decodeCmd word with
  | ok i =>
    obtain ⟨hidle, hstart, hno⟩ :=
      exec_command_refused hdecode ((stepRunsWrittenCommand s word rest i hturn hdecode).symm.trans h)
    exact ⟨hidle, hstart, .inr fun hadm => hno (admitted_congr hadm rfl rfl rfl rfl rfl rfl (List.Subset.refl _))⟩
  | error e =>
    obtain ⟨hidle, hr⟩ := writeReserved_refused ((step_writeReserved hturn hdecode).symm.trans h)
    exact ⟨hidle, start_of_decodeCmd_error hdecode, .inl hr⟩

theorem agentAccess_refused {acc : Access} {a : Nat} {s t : State} {r : Refusal}
    (h : agentAccess acc a s t = .refused r) : r = .concurrentAccess := by
  unfold agentAccess at h
  split at h <;> cases h
  rfl

theorem otherStart_refused {p : BufferPair} {s : State} {r : Refusal} (h : otherStart p s = .refused r) :
    r = .concurrentAccess := by
  rcases otherStart_cases p s with ⟨-, e⟩ | ⟨-, -, e⟩ <;> rw [e] at h <;> cases h
  rfl

theorem otherAccess_refused {acc : Access} {index a : Nat} {s t : State} {r : Refusal}
    (h : otherAccess acc index a s t = .refused r) : r = .concurrentAccess := by
  rcases otherAccess_cases acc index a s t with ⟨-, e⟩ | ⟨p, -, -, ⟨-, -, e⟩ | ⟨-, e⟩⟩ <;> rw [e] at h <;> cases h
  rfl

/-- Settles O48: there is no fault at all; a refusal is looked for at each kind of move. -/
theorem coherentStepNeverFaults : Obligations.CoherentStepNeverFaults := by
  refine fun s hc => ⟨nofun, fun r h => ?_⟩
  have hsequencer (hs : sequencerMoves s) : False := by
    obtain ⟨t, ht⟩ := hc.step_sequencer_ends_next hs
    cases ht.symm.trans h
  cases hturns : s.turns with
  | nil => exact (hsequencer (.inl hturns)).elim
  | cons tn rest =>
    have hstep {o : Host.Outcome State Fault Refusal} (ho : turn tn (popped s) = .other o) : o = .refused r :=
      (step_of_other ((fetch_cons hturns).trans ho)).symm.trans h
    cases tn with
    | sequencer => exact (hsequencer (.inr ⟨rest, hturns⟩)).elim
    | writeCtrl word =>
      obtain ⟨hidle, hstart, hr⟩ := step_writeCtrl_refused hturns h
      exact .inl ⟨hidle, word, rest, rfl, hstart, hr⟩
    | agentWrite a v => exact .inr ⟨agentAccess_refused (hstep rfl), _, rest, rfl, .inl ⟨a, v, rfl⟩⟩
    | agentRead a => exact .inr ⟨agentAccess_refused (hstep rfl), _, rest, rfl, .inr (.inl ⟨a, rfl⟩)⟩
    | otherStart p => exact .inr ⟨otherStart_refused (hstep rfl), _, rest, rfl, .inr (.inr (.inl ⟨p, rfl⟩))⟩
    | otherRead k a =>
      exact .inr ⟨otherAccess_refused (hstep rfl), _, rest, rfl, .inr (.inr (.inr (.inl ⟨k, a, rfl⟩)))⟩
    | otherWrite k a v =>
      exact .inr ⟨otherAccess_refused (hstep rfl), _, rest, rfl, .inr (.inr (.inr (.inr ⟨k, a, v, rfl⟩)))⟩
    | writeStatus | writeArg | readReg | otherEnd | port | rst => cases hstep rfl

end Sys2Proof.Machine

/-! ## Reset and hazards -/

/-! ### DONE is sticky -/

namespace Sys2Proof.Machine

/-- A turn that runs no instruction comes to its outcome. -/
theorem step_of_turn {s : State} {tn : Turn} {rest : List Turn} {o : Host.Outcome State Fault Refusal}
    (hturn : s.turns = tn :: rest) (h : turn tn { s with turns := rest } = .other o) : step s = o := by
  refine step_of_other ((fetch_cons hturn).trans ?_)
  rwa [popped, hturn, List.tail_cons]

/-- Of the micro-operations only `C.FINISH` writes `STATUS`, and it sets `DONE` (spec/42 R152). -/
theorem SequencerMove.keeps_done {s t : State} (h : SequencerMove s t) (hdone : s.status.done = true) :
    t.status.done = true := by
  cases h with
  | finish => rfl
  | _ => exact hdone

/-- A command that ends in a next state changed nothing, or was written with `START` = 1 and has just been accepted. -/
theorem exec_command_next {word : Word32} {i : Instr} {s t : State} (hdecode : decodeCmd word = .ok i)
    (h : exec i s = .next t) : t = s ∨ (word[0] = true ∧ ∃ m, t = accepted m s) := by
  have hconvert {m : Mode} (h : startCommand m s = .next t) : t = s ∨ t = accepted m s := by
    rcases startCommand_cases m s with ⟨-, e⟩ | ⟨-, r, -, e⟩ | ⟨-, -, e⟩ <;> rw [e] at h <;> cases h
    · exact .inl rfl
    · exact .inr rfl
  rcases decodeCmd_cases hdecode with ⟨-, rfl⟩ | ⟨rfl, rfl⟩ | ⟨rfl, rfl⟩ | ⟨rfl, rfl⟩
  · cases h
    exact .inl rfl
  all_goals exact (hconvert h).imp_right fun ht => ⟨rfl, _, ht⟩

/-- Settles O53, by the moves a step can be: but for `C.FINISH`, which sets `DONE`, and `rst`, only an accepted command
writes `STATUS`. -/
theorem doneIsSticky : Obligations.DoneIsSticky := by
  intro s t hdone hstep hnorst
  have hsame (h : t.status = s.status) : t.status.done = true := by rw [h]; exact hdone
  rcases step_cases hstep with ⟨i, hexec, hi, -⟩ | ⟨-, -, rfl⟩ | ⟨c, r, i, hturn, hdecode, hexec⟩ | ⟨c, r, -, -, rfl⟩ |
    ⟨v, r, -, rfl⟩ | ⟨a, v, r, -, rfl⟩ | ⟨a, r, -, rfl⟩ | ⟨a, v, r, -, -, rfl⟩ | ⟨a, r, -, -, rfl⟩ |
    ⟨p, r, -, -, -, rfl⟩ | ⟨k, a, r, -, rfl⟩ | ⟨k, a, v, r, -, rfl | ⟨p, -, -, -, rfl⟩⟩ | ⟨k, r, -, rfl⟩ |
    ⟨k, r, -, rfl⟩ | ⟨landed, r, hrst, -⟩
  · exact .inl ((sequencerMove_of_exec (s := popped s) hi hexec).keeps_done hdone)
  · exact .inl hdone
  · rcases exec_command_next hdecode hexec with rfl | ⟨hstart, m, rfl⟩
    · exact .inl hdone
    · exact .inr ⟨rfl, rfl, c, r, hturn, hstart⟩
  · exact .inl hdone
  · exact .inl hdone
  · exact .inl (hsame (writeArg_status ..))
  · exact .inl (hsame (readReg_status ..))
  · exact .inl hdone
  · exact .inl hdone
  · exact .inl hdone
  · exact .inl hdone
  · exact .inl hdone
  · exact .inl hdone
  · exact .inl hdone
  · exact .inl (hsame (portPerform_status ..))
  · exact absurd hrst (hnorst landed r)

end Sys2Proof.Machine

/-! ### Reset -/

namespace Sys2Proof.Machine

/-- `rst` is one move (spec/70 R250). -/
theorem step_rst {s : State} {landed : List Bool} {rest : List Turn} (hturn : s.turns = .rst landed :: rest) :
    step s = .next (resetWith landed { s with turns := rest }) := step_of_turn hturn rfl

/-- With nothing in flight and no store to be issued no byte lands. -/
theorem landing_eq_nil {s : State} (hflight : s.inFlight = []) (h5 : s.st ≠ .s5) (h8 : s.st ≠ .v8)
    (landed : List Bool) : landing landed s = [] := by
  rw [landing, hflight, currentStore_eq_nil h5 h8]
  rfl

/-- After a reset no command is accepted until the arguments are written again (spec/70 R251). -/
theorem startCommand_resetWith (m : Mode) (landed : List Bool) (s : State) :
    startCommand m (resetWith landed s) = .refused .unwrittenArgument := startCommand_refused_iff.2 ⟨rfl, rfl⟩

/-- Settles O43: `resetWith` sets the registers as in `State.reset`, and memory changes by the bytes that land. -/
theorem rstReturnsToIdle : Obligations.RstReturnsToIdle := by
  intro s landed rest hturn
  obtain ⟨-, hstatus, -⟩ := resetStateIsTheSpecs
  have hrefused (m : Mode) := startCommand_resetWith m landed { s with turns := rest }
  refine ⟨_, step_rst hturn, rfl, hstatus, rfl, rfl, rfl, rfl, rfl, fun hflight h5 h8 => ?_,
    hrefused .nativeWire, hrefused .littleEndianWire, hrefused .bigEndianWire⟩
  rw [resetWith_mem, landing_eq_nil (s := { s with turns := rest }) hflight h5 h8, memPerform_nil]

end Sys2Proof.Machine

/-! ### What a reset leaves of a command under way -/

namespace Sys2Proof.Machine

/-- The memory `m` holds what the input word of sample `j` converts to, at that sample's place in the output buffer. -/
def ConvertedIn (m : List Host.Cell) (s : State) (j : Nat) : Prop :=
  memRead4 m (s.outBase.toNat + 8 * j) = (conv s.m (inputWord s j) s.k).1 ∧
    memRead4 m (s.outBase.toNat + 8 * j + 4) = (conv s.m (inputWord s j) s.k).2

/-- What `Converted` asks is asked of settled memory. -/
theorem convertedIn_settled_iff {s : State} {j : Nat} : ConvertedIn (settled s) s j ↔ Converted s j := Iff.rfl

/-- The eight bytes of a converted sample are those of the whole command's output (spec/42 R156). -/
theorem ConvertedIn.memGet {m : List Host.Cell} {s : State} {j a : Nat} (h : ConvertedIn m s j)
    (hlow : s.outBase.toNat + 8 * j ≤ a) (hhigh : a < s.outBase.toNat + 8 * j + 8) : memGet m a = outputByte s a := by
  obtain ⟨hreal, himag⟩ := h
  obtain ⟨k, rfl⟩ := Nat.exists_eq_add_of_le hlow
  rw [outputByte, show (s.outBase.toNat + 8 * j + k - s.outBase.toNat) / 8 = j by omega,
    show (s.outBase.toNat + 8 * j + k - s.outBase.toNat) % 8 = k by omega]
  by_cases hk : k < 4
  · rw [byteOf_samplePair_real _ _ hk, ← hreal, byteOf_memRead4 _ _ hk]
  · obtain ⟨l, rfl⟩ := Nat.exists_eq_add_of_le (not_lt.1 hk)
    rw [byteOf_samplePair_imag _ _ (by omega), ← himag, byteOf_memRead4 _ _ (by omega), ← Nat.add_assoc]

/-- Every byte in flight is the output buffer's, and has the value of the whole command's output. -/
theorem Progress.inFlight_outputByte {s : State} (hp : Progress s) (hc : Coherent s) {c : Host.Cell}
    (h : c ∈ s.inFlight) : inOutput s c.1 = true ∧ c.2 = outputByte s c.1 := by
  have hset : afterSetup s.st = true := by
    by_contra hst
    rw [hc.drained (Bool.eq_false_of_not_eq_true hst)] at h
    cases h
  obtain ⟨hlow, hhigh⟩ := hc.inFlightOutput c h
  have hconverted := hp.below hset ((c.1 - s.outBase.toNat) / 8) (by omega)
  refine ⟨hc.inFlight_inOutput h, ?_⟩
  calc c.2 = memGet (settled s) c.1 := (memGet_memPerform_of_mem hc.memory hc.writtenOnce h).symm
    _ = outputByte s c.1 := (convertedIn_settled_iff.2 hconverted).memGet (by omega) (by omega)

/-- Bytes of samples from `I` have the value of the whole command's output, if storing them converts these samples. -/
theorem SampleBytes.outputByte {s : State} {cells : List Host.Cell} {n : Nat} (h : SampleBytes s cells n)
    (hc : Coherent s) (hnew : ∀ q, q < n → ConvertedIn (memPerform (settled s) cells) s (s.i.toNat + q)) {c : Host.Cell}
    (hcell : c ∈ cells) : Machine.inOutput s c.1 = true ∧ c.2 = outputByte s c.1 := by
  have hmem : c.1 ∈ cells.map Prod.fst := List.mem_map_of_mem hcell
  have hrange := (h.addresses c.1).1 hmem
  rw [storeAddr_eq] at hrange
  refine ⟨h.inOutput hmem, ?_⟩
  calc c.2 = memGet (memPerform (settled s) cells) c.1 :=
        (memGet_memPerform_of_mem (settled_wf hc.memory) h.once hcell).symm
    _ = Machine.outputByte s c.1 :=
        (hnew ((c.1 - s.outBase.toNat) / 8 - s.i.toNat) (by omega)).memGet (by omega) (by omega)

/-- In `S5` storing the pair converts sample `I`. -/
theorem Progress.sampleCells_convert {s : State} (hp : Progress s) (hst : s.st = .s5) {m : List Host.Cell}
    (hm : memWf m = true) {q : Nat} (hq : q < 1) :
    ConvertedIn (memPerform m (sampleCells s)) s (s.i.toNat + q) := by
  obtain rfl := Nat.lt_one_iff.1 hq
  have hscalar := hp.scalar
  simp only [ScalarHolds, hst] at hscalar
  obtain ⟨hreal, himag⟩ := memRead4_sampleCells hm s
  exact ⟨hreal.trans hscalar.1, himag.trans hscalar.2⟩

/-- In `V8` storing the batch converts the eight samples from `I`. -/
theorem Progress.batchCells_convert {s : State} (hp : Progress s) (hst : s.st = .v8) {m : List Host.Cell}
    (hm : memWf m = true) {q : Nat} (hq : q < 8) :
    ConvertedIn (memPerform m (batchCells s)) s (s.i.toNat + q) := by
  have hvector := hp.vector
  simp only [VectorHolds, hst] at hvector
  have haddr : s.outBase.toNat + 8 * (s.i.toNat + q) = storeAddr s + 8 * q := by rw [storeAddr_eq]; omega
  rw [ConvertedIn, haddr]
  exact hvector.stored hm hq

/-- Once the probe is performed `BR` holds a branch. -/
theorem Coherent.br_ne_none {s : State} (hc : Coherent s) (h : afterProbe s.st = true) : s.br ≠ .none := by
  rw [hc.probed h]
  exact probeBranch_ne_none _

/-- In `S5` the port serves the current store. -/
theorem Coherent.served_s5 {s : State} (hc : Coherent s) (hst : s.st = .s5) :
    served s.platform .write (storeAddr s) 8 := hc.currentAccess_served (by rw [currentAccess, hst])

/-- In `V8` the port serves the current store. -/
theorem Coherent.served_v8 {s : State} (hc : Coherent s) (hst : s.st = .v8) :
    served s.platform .write (storeAddr s) 64 := hc.currentAccess_served (by rw [currentAccess, hst])

/-- Every byte of the current store is the output buffer's, and has the value of the whole command's output. -/
theorem Progress.currentStore_outputByte {s : State} (hp : Progress s) (hc : Coherent s) {c : Host.Cell}
    (h : c ∈ currentStore s) : inOutput s c.1 = true ∧ c.2 = outputByte s c.1 := by
  have hwf := settled_wf hc.memory
  by_cases h5 : s.st = .s5
  · rw [currentStore_s5 h5 (hc.served_s5 h5)] at h
    exact (hc.sampleCells h5).outputByte hc (fun _ hq => hp.sampleCells_convert h5 hwf hq) h
  · by_cases h8 : s.st = .v8
    · rw [currentStore_v8 h8 (hc.br_ne_none (by rw [h8]; rfl)) (hc.served_v8 h8)] at h
      exact (hc.batchCells h8).outputByte hc (fun _ hq => hp.batchCells_convert h8 hwf hq) h
    · rw [currentStore_eq_nil h5 h8] at h
      cases h

/-- After a reset a byte of memory is as it was, or has the value of the whole command's output (spec/70 R252). -/
theorem Progress.memGet_resetWith {s : State} (hp : Progress s) (hc : Coherent s) (landed : List Bool) (b : Nat) :
    memGet (resetWith landed s).mem b = memGet s.mem b ∨
      (inOutput s b = true ∧ memGet (resetWith landed s).mem b = outputByte s b) :=
  (memGet_memPerform_cases hc.memory (landing landed s) b).imp_right fun h =>
    (List.mem_append.1 (landing_subset landed s h)).elim (hp.inFlight_outputByte hc) (hp.currentStore_outputByte hc)

/-- A byte of a write's event lies within the write. -/
theorem exists_write_of_mem_eventCells {e : Event} {c : Host.Cell} (h : c ∈ eventCells e) :
    ∃ a n v form, e = .write a n v form ∧ a ≤ c.1 ∧ c.1 < a + n := by
  cases e with
  | read a n => cases h
  | write a n v form => exact ⟨a, n, v, form, rfl, mem_storeCells_fst.1 (List.mem_map_of_mem h)⟩

/-- A byte that a reset changes was in flight, or belongs to a write that the reset records (spec/20 R67). -/
theorem Coherent.changed_by_resetWith {s : State} (hc : Coherent s) (landed : List Bool) {b : Nat}
    (h : memGet (resetWith landed s).mem b ≠ memGet s.mem b) :
    b ∈ s.inFlight.map Prod.fst ∨ ∃ a n v form, .write a n v form ∈ caughtWrites landed s ∧ a ≤ b ∧ b < a + n := by
  have hlanded := (memGet_memPerform_cases hc.memory (landing landed s) b).resolve_left h
  rcases landing_cases landed s hlanded with hflight | ⟨e, he, hcell⟩
  · exact .inl (List.mem_map_of_mem hflight)
  · obtain ⟨a, n, v, form, rfl, hrange⟩ := exists_write_of_mem_eventCells hcell
    exact .inr ⟨a, n, v, form, he, hrange⟩

/-- In `S5` a reset records the write of the sample, if the choice of bytes reaches it. -/
theorem Coherent.caughtWrites_s5 {s : State} (hc : Coherent s) (hst : s.st = .s5) (landed : List Bool) :
    caughtWrites landed s = if landed.length - s.inFlight.length = 0 then [] else
      [.write (storeAddr s) 8 (samplePair s.fr s.fi).toNat .unaligned] := by
  rw [caughtWrites, currentWrites_s5 hst (hc.served_s5 hst)]
  rfl

/-- In `V8` a reset records the two writes of the batch, each if the choice of bytes reaches it. -/
theorem Coherent.caughtWrites_v8 {s : State} (hc : Coherent s) (hst : s.st = .v8) (landed : List Bool) :
    caughtWrites landed s =
      (if landed.length - s.inFlight.length = 0 then [] else
        [.write (storeAddr s) 32 s.vfa.toNat (branchForm s.br)]) ++
      if landed.length - s.inFlight.length ≤ 32 then [] else
        [.write (storeAddr s + 32) 32 s.vfb.toNat (branchForm s.br)] := by
  have hbytes : (eventCells (.write (storeAddr s) 32 s.vfa.toNat (branchForm s.br))).length = 32 := by
    rw [eventCells_write _ _ _ _ rfl, storeCells, List.length_map, List.length_range]
  rw [caughtWrites, currentWrites_v8 hst (hc.br_ne_none (by rw [hst]; rfl)) (hc.served_v8 hst)]
  generalize landed.length - s.inFlight.length = reached
  simp only [begunWrites, hbytes, Nat.sub_eq_zero_iff_le]
  by_cases hreached : reached = 0
  · simp [hreached]
  · rw [if_neg hreached, if_neg hreached]
    rfl

/-- In any other state a reset records nothing. -/
theorem caughtWrites_eq_nil {s : State} (h5 : s.st ≠ .s5) (h8 : s.st ≠ .v8) (landed : List Bool) :
    caughtWrites landed s = [] := by
  rw [caughtWrites, currentWrites_eq_nil h5 h8, begunWrites]

/-- Settles O44: what lands was in flight or is of the current store, and both hold bytes of the whole command's
output. -/
theorem resetLeavesOldOrConvertedBytes : Obligations.ResetLeavesOldOrConvertedBytes := by
  intro s landed rest hc hp hturn a reached form recorded
  have hrecorded : caughtWrites landed s = recorded := by
    by_cases h5 : s.st = .s5
    · simp only [recorded, h5]
      exact hc.caughtWrites_s5 h5 landed
    · by_cases h8 : s.st = .v8
      · simp only [recorded, h8]
        exact hc.caughtWrites_v8 h8 landed
      · rw [caughtWrites_eq_nil h5 h8]
        simp only [recorded]
  rw [← hrecorded]
  exact ⟨_, step_rst hturn, rfl, fun b => ⟨hp.memGet_resetWith hc landed b, hc.changed_by_resetWith landed⟩⟩

end Sys2Proof.Machine

/-! ### Accesses and starts that run into a command -/

namespace Sys2Proof.Machine

/-- All an access of an agent that is no converter can come to. -/
theorem agentAccess_cases (acc : Access) (a : Nat) (s t : State) :
    (concurrent acc a s = true → agentAccess acc a s t = .refused .concurrentAccess) ∧
      (¬concurrent acc a s = true → agentAccess acc a s t = .next t) :=
  ⟨fun h => if_pos h, fun h => if_neg h⟩

/-- A write runs into a command in either of its buffers (spec/70 R256). -/
theorem concurrent_write_iff {a : Nat} {s : State} :
    concurrent .write a s = true ↔ s.status.busy = true ∧ pairHolds (ownPair s) a = true := by
  simp [concurrent, pairHolds_ownPair, or_comm]

/-- A read runs into a command in its output buffer only (spec/70 R256). -/
theorem concurrent_read_iff {a : Nat} {s : State} :
    concurrent .read a s = true ↔ s.status.busy = true ∧ inOutput s a = true := by
  simp [concurrent]

/-- An access of another converter to its own buffer is refused in a buffer of a running command, and else performed. -/
theorem otherAccess_own (acc : Access) {k a : Nat} {s : State} {p : BufferPair} (hp : s.others[k]? = some p)
    (hown : pairGrants acc p a = true) (t : State) :
    (s.status.busy = true ∧ pairHolds (ownPair s) a = true →
        otherAccess acc k a s t = .refused .concurrentAccess) ∧
      (¬(s.status.busy = true ∧ pairHolds (ownPair s) a = true) → otherAccess acc k a s t = .next t) := by
  rw [otherAccess, hp]
  simp [hown]

/-- Two pairs meet exactly when some address is in both (spec/20 R68). -/
theorem pairsMeet_iff {p q : BufferPair} :
    pairsMeet p q = true ↔ ∃ a, pairHolds p a = true ∧ pairHolds q a = true := by
  rw [← not_iff_not, Bool.not_eq_true, pairsMeet_eq_false_iff, not_exists]

/-- A pair meets another converter that runs exactly when it meets the pair of one. -/
theorem meetsOther_iff {p : BufferPair} {s : State} :
    meetsOther p s = true ↔ ∃ q ∈ s.others, pairsMeet q p = true := by
  simp only [meetsOther, List.any_eq_true, pairsMeet_iff, and_comm]

/-- A start is refused where its pair shares a byte with one of a running command, and else adds its pair. -/
theorem otherStart_shares (p : BufferPair) (s : State) :
    (((s.status.busy = true ∧ pairsMeet (ownPair s) p = true) ∨ meetsOther p s = true) →
        otherStart p s = .refused .concurrentAccess) ∧
      (¬((s.status.busy = true ∧ pairsMeet (ownPair s) p = true) ∨ meetsOther p s = true) →
        otherStart p s = .next { s with others := s.others ++ [p] }) := by
  simp only [otherStart, ← Bool.and_eq_true, ← Bool.or_eq_true]
  exact ⟨fun h => if_pos h, fun h => if_neg h⟩

/-- A stored byte is read back from canonical memory, and no other byte changes. -/
theorem memGet_memPut (m : List Host.Cell) (a : Nat) (v : Byte) :
    (memWf m = true → memGet (memPut m a v) a = v) ∧ ∀ b, b ≠ a → memGet (memPut m a v) b = memGet m b :=
  ⟨fun hm => memGet_memPut_same hm a v, fun _ hb => memGet_memPut_ne m v hb⟩

/-- Settles O41, move by move: each is refused under the condition its operation tests, and else performed. -/
theorem concurrentAccessIsRefused : Obligations.ConcurrentAccessIsRefused := by
  intro s x rest inside input output reads writes writing
  have hown (a : Nat) : pairHolds (ownPair s) a = true ↔ input a ∨ output a :=
    pairHolds_ownPair.trans (or_congr inInput_iff inOutput_iff)
  have hpair (p : BufferPair) (a : Nat) : pairHolds p a = true ↔ reads p a ∨ writes p a :=
    pairHolds_iff.trans (or_congr pairInput_iff pairOutput_iff)
  have hwritten (v : Byte) : writing v { s with turns := rest, mem := memPut s.mem x.toNat v } :=
    ⟨rfl, memGet_memPut s.mem x.toNat v⟩
  refine ⟨fun v hturn => ?_, fun hturn => ?_, fun p hturn => ?_,
    fun k p hp => ⟨fun hturn hx => ?_, fun v hturn hx => ?_⟩⟩ <;> rw [step_of_turn hturn rfl]
  · rw [← hown, ← concurrent_write_iff]
    obtain ⟨hrefused, hnext⟩ := agentAccess_cases .write x.toNat { s with turns := rest }
      { s with turns := rest, mem := memPut s.mem x.toNat v }
    exact ⟨hrefused, fun h => ⟨_, hnext h, hwritten v⟩⟩
  · have hout : inOutput s x.toNat = true ↔ output x.toNat := inOutput_iff
    rw [← hout, ← concurrent_read_iff]
    exact agentAccess_cases .read x.toNat { s with turns := rest } _
  · simp only [← hown, ← hpair, ← pairsMeet_iff, ← meetsOther_iff]
    exact otherStart_shares p { s with turns := rest }
  · rw [← hown]
    exact otherAccess_own .read (s := { s with turns := rest }) hp (pairInput_iff.2 hx) _
  · rw [← hown]
    obtain ⟨hrefused, hnext⟩ := otherAccess_own .write (s := { s with turns := rest }) hp (pairOutput_iff.2 hx)
      { s with turns := rest, mem := memPut s.mem x.toNat v }
    exact ⟨hrefused, fun h => ⟨_, hnext h, hwritten v⟩⟩

end Sys2Proof.Machine

/-! ### Accesses that are not served -/

namespace Sys2Proof.Machine

/-- A byte is not served exactly when no region that holds it grants the access, or a device region holds it. -/
theorem not_byteServed_iff {p : Platform} {acc : Access} {a : Nat} :
    ¬byteServed p acc a ↔
      (∀ r ∈ p.regions, regionHolds r a = true → regionGrants acc r = false) ∨
        ∃ r ∈ p.regions, regionHolds r a = true ∧ r.kind = .device := by
  have hdevice (r : Region) : r.kind ≠ .ordinary ↔ r.kind = .device := by cases r.kind <;> simp
  rw [byteServed, not_and_or]
  refine or_congr ?_ ?_
  · simp only [not_exists, not_and]
    exact forall₂_congr fun r _ => by rw [← Bool.not_eq_true (regionGrants acc r), imp_not_comm]
  · push Not
    simp only [hdevice]

/-- Settles O34: each of the five is an access to the bytes named, and one of these bytes is not served. -/
theorem refusedAccessLeavesStateAlone : Obligations.RefusedAccessLeavesStateAlone := by
  intro s x y no
  have hnothing {acc : Access} {a n : Nat} (t : State) : no acc a n → access acc a n s t = .next s :=
    fun ⟨htop, _, hk, hbyte⟩ => access_notServed htop hk (not_byteServed_iff.2 hbyte)
  exact ⟨hnothing _, hnothing _, hnothing _, fun h => ⟨hnothing _ h, hnothing _ h⟩⟩

end Sys2Proof.Machine
